-- ==== Sys2Proof/Word.lean ====
section
/-! DEFINITION. The data formats of the block: bytes, sample codes and binary64 reals. -/

namespace Sys2Proof

/-- One byte: of the host's sample stream (R61), of an emitted frame (R65), of a queued operation (R90). -/
abbrev Byte := BitVec 8

/-- A sample code: one unsigned 16-bit field, 0 to 65535 (R60, R91). -/
abbrev Code := BitVec 16

/-- A real of the block: an IEEE-754 binary64 value, held as its 64 bits, sign [63], exponent [62:52],
fraction [51:0] (R10, R95).  The arithmetic is in `Sys2Proof/Machine/Numerics.lean`; a structure, not a
synonym, so that no bit-vector operation is taken for a real one. -/
structure F64 where
  /-- The 64 bits of the value. -/
  bits : BitVec 64
deriving DecidableEq, Repr, Inhabited

end Sys2Proof
end

