-- ==== Sys2Proof/Syntax.lean ====
section
/-! DEFINITION. The operations of rule R98, one constructor per row of the operation map, each with the typed
operands R98 lists.  They take the place of instructions (R6). -/

namespace Sys2Proof

/-- The three filter instances of R31. -/
inductive FilterId where
  /-- `SF`, the sync filter. -/
  | sf
  /-- `FI`, burst I. -/
  | fi
  /-- `FQ`, burst Q. -/
  | fq
deriving DecidableEq, Repr, Inhabited

/-- The 27 operations of R98.  STEP has no operand of its own: R171 gives it `n = scan_pos`.  A `halfint`
operand is carried as twice its value (R12). -/
inductive Instr where
  /-- 0x00 RESET (R250). -/
  | reset
  /-- 0x01 PROCESS lo, len (R251). -/
  | process (lo len : Nat)
  /-- 0x10 STEP, n = scan_pos (R171). -/
  | step
  /-- 0x11 DISPATCH xpt, count (R173). -/
  | dispatch (xpt : F64) (count : Nat)
  /-- 0x20 CLS.ACTIVE linelen, count (R190). -/
  | clsActive (linelen : F64) (count : Nat)
  /-- 0x21 CLS.FIELD2 (R191). -/
  | clsField2
  /-- 0x22 CLS.NEWFRAME (R192). -/
  | clsNewframe
  /-- 0x23 CLS.VSYNC (R193). -/
  | clsVsync
  /-- 0x24 CLS.HALF (R194). -/
  | clsHalf
  /-- 0x25 CLS.SKIP (R195). -/
  | clsSkip
  /-- 0x26 CLS.NONE (R196). -/
  | clsNone
  /-- 0x27 PHRESYNC (R198). -/
  | phresync
  /-- 0x30 FCLR F, level (R121). -/
  | fclr (f : FilterId) (level : F64)
  /-- 0x31 FFEED F, v (R122). -/
  | ffeed (f : FilterId) (v : F64)
  /-- 0x32 HETGEN (R126). -/
  | hetgen
  /-- 0x33 S2IRE code (R140). -/
  | s2ire (code : Code)
  /-- 0x34 IRE2S ire (R141). -/
  | ire2s (ire : F64)
  /-- 0x35 CUBIC y0, y1, y2, y3, t (R150). -/
  | cubic (y0 y1 y2 y3 t : F64)
  /-- 0x36 SCALE start, end, outLen (R151). -/
  | scale (start stop : F64) (outLen : Nat)
  /-- 0x37 BURST off (R160). -/
  | burst (off : Int)
  /-- 0x38 WRAP d (R210). -/
  | wrap (d : F64)
  /-- 0x39 TGTUPD phase1 (R211). -/
  | tgtupd (phase1 : F64)
  /-- 0x3A PCL begin, end (R212). -/
  | pcl (start stop : F64)
  /-- 0x3B MAPROW line, given as 2·line (R230). -/
  | maprow (line2 : Int)
  /-- 0x3C LVLADJ begin, end (R231). -/
  | lvladj (start stop : F64)
  /-- 0x3D ASMLINE begin, end (R232). -/
  | asmline (start stop : F64)
  /-- 0x3E EMIT (R234). -/
  | emit
deriving DecidableEq, Repr, Inhabited

end Sys2Proof
end

