-- ==== Sys2Proof/WellFormed.lean ====
section
/-! DEFINITION. Well-formed operations: the operand ranges of R98.  Integers are unbounded (R11), and reals and
codes are in range by their types, so SCALE's output length is the only operand that can be out of range. -/

namespace Sys2Proof

/-- The operation's operands are in range; SCALE's output length is at least 1 (R151). -/
def Instr.wellFormed : Instr → Bool
  | .reset => true
  | .process _ _ => true
  | .step => true
  | .dispatch _ _ => true
  | .clsActive _ _ => true
  | .clsField2 => true
  | .clsNewframe => true
  | .clsVsync => true
  | .clsHalf => true
  | .clsSkip => true
  | .clsNone => true
  | .phresync => true
  | .fclr _ _ => true
  | .ffeed _ _ => true
  | .hetgen => true
  | .s2ire _ => true
  | .ire2s _ => true
  | .cubic _ _ _ _ _ => true
  | .scale _ _ outLen => decide (1 ≤ outLen)
  | .burst _ => true
  | .wrap _ => true
  | .tgtupd _ => true
  | .pcl _ _ => true
  | .maprow _ => true
  | .lvladj _ _ => true
  | .asmline _ _ => true
  | .emit => true

end Sys2Proof
end

