-- ==== Sys2Proof/Decode.lean ====
section
/-! DEFINITION. Decoding and encoding of operations.  R98 gives each operation its 8-bit selector and nothing
else ("operands are not packed into bits", R90); the operand bytes that follow the selector in the model's
port are the model's own: a real's 64 bits, a code's 16 and a filter's 8, low byte first, and an integer in as
many bytes as it needs, for integers are unbounded (R11) (DESIGN CHOICE, log entry 1). -/

namespace Sys2Proof

/-- Why the decoder refuses a byte string. -/
inductive DecodeError where
  /-- A selector R98 does not list: reserved, names no operation (R100 a, U4). -/
  | reservedSelector (selector : Byte)
  /-- The bytes end inside the operation. -/
  | truncated
  /-- A filter operand that is none of SF, FI, FQ (R31). -/
  | reservedFilter (code : Byte)
deriving DecidableEq, Repr

/-! ### Operand bytes -/

/-- The `n` low bytes of `v`, least significant first. -/
def leBytes : Nat → Nat → List Byte
  | 0, _ => []
  | n + 1, v => BitVec.ofNat 8 v :: leBytes n (v / 256)

/-- The number that bytes spell, least significant first. -/
def leNat : List Byte → Nat
  | [] => 0
  | b :: rest => b.toNat + 256 * leNat rest

/-- Split off the first `n` bytes. -/
def takeBytes : Nat → List Byte → Option (List Byte × List Byte)
  | 0, bs => some ([], bs)
  | _ + 1, [] => none
  | n + 1, b :: bs =>
    match takeBytes n bs with
    | none => none
    | some (front, rest) => some (b :: front, rest)

/-- An integer operand of any size from the head of the bytes: seven bits a byte, the lowest first, bit 7 set in
every byte but the last.  Each further byte counts from 1, so that every integer has one spelling. -/
def takeNat : List Byte → Option (Nat × List Byte)
  | [] => none
  | b :: bs =>
    if b.toNat < 128 then some (b.toNat, bs)
    else
      match takeNat bs with
      | none => none
      | some (high, rest) => some (b.toNat - 128 + 128 * (high + 1), rest)

/-- The bytes of an integer operand, of which at most `more` have a successor. -/
def natBytesFrom : Nat → Nat → List Byte
  | 0, n => [BitVec.ofNat 8 n]
  | more + 1, n =>
    if n < 128 then [BitVec.ofNat 8 n]
    else BitVec.ofNat 8 (128 + n % 128) :: natBytesFrom more (n / 128 - 1)

/-- The bytes of an unsigned integer operand. -/
def natBytes (n : Nat) : List Byte := natBytesFrom (Nat.log2 n) n

/-- The unsigned integer that stands for a signed one: 0, -1, 1, -2, … are 0, 1, 2, 3, …. -/
def zigzag (i : Int) : Nat := if 0 ≤ i then 2 * i.toNat else 2 * (-i).toNat - 1

/-- The signed integer that an unsigned one stands for. -/
def unzigzag (n : Nat) : Int := if n % 2 = 0 then (n / 2 : Nat) else -((n / 2 + 1 : Nat) : Int)

/-- The bytes of a signed integer operand. -/
def intBytes (i : Int) : List Byte := natBytes (zigzag i)

/-- The operand byte of a filter instance. -/
def filterByte : FilterId → Byte
  | .sf => 0#8
  | .fi => 1#8
  | .fq => 2#8

/-- Read `n` bytes as a number and go on with the rest. -/
def withWord {α : Type} (n : Nat) (bs : List Byte) (k : Nat → List Byte → Except DecodeError α) :
    Except DecodeError α :=
  match takeBytes n bs with
  | none => .error .truncated
  | some (front, rest) => k (leNat front) rest

/-- Read an unsigned integer operand, of any size (R11). -/
def withNat {α : Type} (bs : List Byte) (k : Nat → List Byte → Except DecodeError α) :
    Except DecodeError α :=
  match takeNat bs with
  | none => .error .truncated
  | some (n, rest) => k n rest

/-- Read a signed integer operand, of any size (R11). -/
def withInt {α : Type} (bs : List Byte) (k : Int → List Byte → Except DecodeError α) :
    Except DecodeError α := withNat bs fun n => k (unzigzag n)

/-- Read a real operand: its 64 bits (R95). -/
def withReal {α : Type} (bs : List Byte) (k : F64 → List Byte → Except DecodeError α) :
    Except DecodeError α := withWord 8 bs fun w => k ⟨BitVec.ofNat 64 w⟩

/-- Read a sample code (R91). -/
def withCode {α : Type} (bs : List Byte) (k : Code → List Byte → Except DecodeError α) :
    Except DecodeError α := withWord 2 bs fun w => k (BitVec.ofNat 16 w)

/-- Read a filter operand. -/
def withFilter {α : Type} (bs : List Byte) (k : FilterId → List Byte → Except DecodeError α) :
    Except DecodeError α :=
  withWord 1 bs fun w rest =>
    match w with
    | 0 => k .sf rest
    | 1 => k .fi rest
    | 2 => k .fq rest
    | _ => .error (.reservedFilter (BitVec.ofNat 8 w))

/-- The operands of the operation a selector names (R98), from the bytes after the selector. -/
def decodeOperands (selector : Byte) (bs : List Byte) : Except DecodeError (Instr × List Byte) :=
  match selector.toNat with
  | 0x00 => .ok (.reset, bs)
  | 0x01 => withNat bs fun lo bs => withNat bs fun len bs => .ok (.process lo len, bs)
  | 0x10 => .ok (.step, bs)
  | 0x11 => withReal bs fun xpt bs => withNat bs fun count bs => .ok (.dispatch xpt count, bs)
  | 0x20 => withReal bs fun len bs => withNat bs fun count bs => .ok (.clsActive len count, bs)
  | 0x21 => .ok (.clsField2, bs)
  | 0x22 => .ok (.clsNewframe, bs)
  | 0x23 => .ok (.clsVsync, bs)
  | 0x24 => .ok (.clsHalf, bs)
  | 0x25 => .ok (.clsSkip, bs)
  | 0x26 => .ok (.clsNone, bs)
  | 0x27 => .ok (.phresync, bs)
  | 0x30 => withFilter bs fun f bs => withReal bs fun level bs => .ok (.fclr f level, bs)
  | 0x31 => withFilter bs fun f bs => withReal bs fun v bs => .ok (.ffeed f v, bs)
  | 0x32 => .ok (.hetgen, bs)
  | 0x33 => withCode bs fun code bs => .ok (.s2ire code, bs)
  | 0x34 => withReal bs fun ire bs => .ok (.ire2s ire, bs)
  | 0x35 =>
    withReal bs fun y0 bs => withReal bs fun y1 bs => withReal bs fun y2 bs =>
      withReal bs fun y3 bs => withReal bs fun t bs => .ok (.cubic y0 y1 y2 y3 t, bs)
  | 0x36 =>
    withReal bs fun start bs => withReal bs fun stop bs => withNat bs fun n bs =>
      .ok (.scale start stop (n + 1), bs)
  | 0x37 => withInt bs fun off bs => .ok (.burst off, bs)
  | 0x38 => withReal bs fun d bs => .ok (.wrap d, bs)
  | 0x39 => withReal bs fun phase bs => .ok (.tgtupd phase, bs)
  | 0x3A => withReal bs fun start bs => withReal bs fun stop bs => .ok (.pcl start stop, bs)
  | 0x3B => withInt bs fun line2 bs => .ok (.maprow line2, bs)
  | 0x3C => withReal bs fun start bs => withReal bs fun stop bs => .ok (.lvladj start stop, bs)
  | 0x3D => withReal bs fun start bs => withReal bs fun stop bs => .ok (.asmline start stop, bs)
  | 0x3E => .ok (.emit, bs)
  | _ => .error (.reservedSelector selector)

/-- Decode the operation at the head of the bytes; the answer is the operation and the bytes after it. -/
def decode : List Byte → Except DecodeError (Instr × List Byte)
  | [] => .error .truncated
  | selector :: bs => decodeOperands selector bs

/-! ### The encoder, from the same table -/

/-- The selector of an operation (R98). -/
def Instr.selector : Instr → Byte
  | .reset => 0x00#8
  | .process _ _ => 0x01#8
  | .step => 0x10#8
  | .dispatch _ _ => 0x11#8
  | .clsActive _ _ => 0x20#8
  | .clsField2 => 0x21#8
  | .clsNewframe => 0x22#8
  | .clsVsync => 0x23#8
  | .clsHalf => 0x24#8
  | .clsSkip => 0x25#8
  | .clsNone => 0x26#8
  | .phresync => 0x27#8
  | .fclr _ _ => 0x30#8
  | .ffeed _ _ => 0x31#8
  | .hetgen => 0x32#8
  | .s2ire _ => 0x33#8
  | .ire2s _ => 0x34#8
  | .cubic _ _ _ _ _ => 0x35#8
  | .scale _ _ _ => 0x36#8
  | .burst _ => 0x37#8
  | .wrap _ => 0x38#8
  | .tgtupd _ => 0x39#8
  | .pcl _ _ => 0x3A#8
  | .maprow _ => 0x3B#8
  | .lvladj _ _ => 0x3C#8
  | .asmline _ _ => 0x3D#8
  | .emit => 0x3E#8

/-- The bytes of a real operand. -/
def realBytes (a : F64) : List Byte := leBytes 8 a.bits.toNat

/-- The operand bytes of an operation, in the order R98 lists the operands. -/
def Instr.operandBytes : Instr → List Byte
  | .process lo len => natBytes lo ++ natBytes len
  | .dispatch xpt count => realBytes xpt ++ natBytes count
  | .clsActive linelen count => realBytes linelen ++ natBytes count
  | .fclr f level => filterByte f :: realBytes level
  | .ffeed f v => filterByte f :: realBytes v
  | .s2ire code => leBytes 2 code.toNat
  | .ire2s ire => realBytes ire
  | .cubic y0 y1 y2 y3 t =>
    realBytes y0 ++ (realBytes y1 ++ (realBytes y2 ++ (realBytes y3 ++ realBytes t)))
  | .scale start stop outLen => realBytes start ++ (realBytes stop ++ natBytes (outLen - 1))
  | .burst off => intBytes off
  | .wrap d => realBytes d
  | .tgtupd phase1 => realBytes phase1
  | .pcl start stop => realBytes start ++ realBytes stop
  | .maprow line2 => intBytes line2
  | .lvladj start stop => realBytes start ++ realBytes stop
  | .asmline start stop => realBytes start ++ realBytes stop
  | .reset => []
  | .step => []
  | .clsField2 => []
  | .clsNewframe => []
  | .clsVsync => []
  | .clsHalf => []
  | .clsSkip => []
  | .clsNone => []
  | .phresync => []
  | .hetgen => []
  | .emit => []

/-- The bytes of a well-formed operation: its selector, then its operand bytes. -/
def encode (i : Instr) : List Byte := i.selector :: i.operandBytes

/-! ### Table words -/

/-- Zero bytes that complete any operation a table word begins: CUBIC, the longest that can, has five reals. -/
def paddingBytes : Nat := 40

/-- The bytes of an operation whose bits are `w`, of which the table gives `nbits`: all higher bits are 0. -/
def tableBytes (nbits w : Nat) : List Byte :=
  leBytes ((nbits + 7) / 8 + paddingBytes) (w % 2 ^ nbits)

/-- The operation the decoder reads from a table word, bit 0 the least significant bit of the first byte. -/
def decodeTableWord (nbits w : Nat) : Option Instr :=
  match decode (tableBytes nbits w) with
  | .ok (i, _) => some i
  | .error _ => none

end Sys2Proof
end

