-- ==== Sys2Proof/Machine/Cells.lean ====
section
/-! DEFINITION. Sparse arrays: the one representation of the block's writable memories and of the sample
space.  An array is a list of (index, value) pairs in one canonical form: indices strictly rising and no entry
equal to what an unlisted index reads as.  `fill` is that value; `none` means an unlisted index holds none. -/

namespace Sys2Proof.Machine

/-- A sparse array of `α` (R69: each memory is an array of fixed-type elements reached by an index). -/
abbrev Cells (α : Type) := List (Nat × α)

/-- The listed value at an index, if any. -/
def Cells.find {α : Type} : Cells α → Nat → Option α
  | [], _ => none
  | (b, v) :: rest, a => if a = b then some v else Cells.find rest a

/-- What an index reads as: the listed value, else the fill. -/
def Cells.read {α : Type} (fill : Option α) (m : Cells α) (a : Nat) : Option α :=
  match Cells.find m a with
  | some v => some v
  | none => fill

/-- What an index of an array with a fill value reads as. -/
def Cells.readD {α : Type} (fill : α) (m : Cells α) (a : Nat) : α :=
  (Cells.find m a).getD fill

/-- Consecutive entries from index `base`. -/
def Cells.run {α : Type} : Nat → List α → Cells α
  | _, [] => []
  | base, v :: vs => (base, v) :: Cells.run (base + 1) vs

/-- The entry is not what an unlisted index reads as. -/
def Cells.keep {α : Type} [DecidableEq α] (fill : Option α) (c : Nat × α) : Bool :=
  decide (some c.2 ≠ fill)

/-- Write `vals` at `base, base + 1, …`: the only write there is.  It keeps the canonical form. -/
def Cells.write {α : Type} [DecidableEq α] (fill : Option α) (m : Cells α) (base : Nat)
    (vals : List α) : Cells α :=
  m.filter (fun c => decide (c.1 < base)) ++
    ((Cells.run base vals).filter (Cells.keep fill) ++
      m.filter (fun c => decide (base + vals.length ≤ c.1)))

/-- The canonical form. -/
def Cells.wf {α : Type} [DecidableEq α] (fill : Option α) (m : Cells α) : Bool :=
  decide (m.Pairwise fun c d => c.1 < d.1) && m.all (Cells.keep fill)

end Sys2Proof.Machine
end

