-- ==== Sys2Proof/Config.lean ====
section
/-! DEFINITION. Configuration: the FIXED and DECIDED constants of rule R7, the record of the OPEN
parameters, and the free values (opaque constants) for what the spec leaves open. -/

namespace Sys2Proof

/-- A filter's coefficient set (R120): `b0` is b[0], `b` is b[1..NB], `a` is a[1..NA]; a[0] = 1 implied. -/
structure FilterSpec where
  b0 : F64
  b  : List F64
  a  : List F64
deriving DecidableEq, Repr, Inhabited

/-- `SAMPLE_BYTE_ORDER` and `SINK_BYTE_ORDER` (R61, R65, D5, D6). -/
inductive ByteOrder where
  | little
  | big
deriving DecidableEq, Repr, Inhabited

/-- `hetIndex(off, i)` (R127): the default reading `i`, or the alternative reading `off + 140 + i`. -/
inductive HetIndexMap where
  | windowRelative
  | lineRelative
deriving DecidableEq, Repr, Inhabited

/-- `BURST_VARIANT` (R162): the normative as-built detector, or the non-normative repaired one. -/
inductive BurstVariant where
  | asBuilt
  | repaired
deriving DecidableEq, Repr, Inhabited

/-- The OPEN parameters of R7.  `EXT` is no field: `EXT = SCALE_TGT / 1820` (R290), so it is computed
from `scaleTgt` (`Params.ext`).  `NUMERICS` is no field: the model fixes its default, binary64 (R10). -/
structure Params where
  scaleTgt       : Nat
  syncCoef       : FilterSpec
  burstCoef      : FilterSpec
  syncThreshold  : F64
  syncBaseline   : F64
  burstBaseline  : F64
  hetLen         : Nat
  physGain       : F64
  physOffset     : F64
  lookahead      : Nat
  chunkMax       : Nat
  sampleOrder    : ByteOrder
  sinkOrder      : ByteOrder
  hetIndex       : HetIndexMap
  burstVariant   : BurstVariant
deriving DecidableEq, Repr, Inhabited

/-- The binary64 operations whose result is open on some operands: on a non-finite one (U7), and 0/0, the root of a
negative number and the angle of (0, 0) (log entry 3). -/
inductive RealOp where
  | add | sub | mul | div | sqrt | cos | sin | atan2
deriving DecidableEq, Repr, Inhabited

/-- The comparisons of R13, which R13 states for finite operands only. -/
inductive CmpOp where
  | lt | le | eq
deriving DecidableEq, Repr, Inhabited

/-- The conversions of a real to an integer, which exist for finite operands only. -/
inductive IntOp where
  | floor | ceil | trunc
deriving DecidableEq, Repr, Inhabited

namespace Config

/-! ### FIXED and DECIDED constants (R7) -/

/-- `FB_ROWS` (FIXED). -/
def FB_ROWS : Nat := 505
/-- `FB_COLS` (FIXED). -/
def FB_COLS : Nat := 1685
/-- `W_GATE` (FIXED): a Crossing is accepted when its count exceeds this (R171). -/
def W_GATE : Nat := 16
/-- `BW_START` (FIXED): first window sample's offset in NL (R160). -/
def BW_START : Nat := 140
/-- `BW_LEN` (FIXED): window samples of one BURST (R160). -/
def BW_LEN : Nat := 100
/-- `BW_SKIP` (FIXED): warm-up samples kept out of the maximum (R160). -/
def BW_SKIP : Nat := 16
/-- `N_LINE` (DECIDED D13). -/
def N_LINE : Nat := 1820
/-- `WIN2_OFFSET` (DECIDED D15). -/
def WIN2_OFFSET : Nat := 1820
/-- `ACTIVE_START` (DECIDED D16). -/
def ACTIVE_START : Nat := 130
/-- `SPC` (DECIDED D17): samples per subcarrier cycle. -/
def SPC : Nat := 8
/-- `H_PRE` (DECIDED D27). -/
def H_PRE : Nat := 8

/-- +0.0. -/
def ZERO : F64 := ⟨0x0000000000000000#64⟩
/-- `FB_FILL` (DECIDED D23): +0.0. -/
def FB_FILL : F64 := ZERO
/-- 0.5, the factor of the cubic (R150). -/
def HALF : F64 := ⟨0x3FE0000000000000#64⟩
/-- 1. -/
def ONE : F64 := ⟨0x3FF0000000000000#64⟩
/-- `GAIN` = 1.3 (FIXED), the nearest binary64 value (R10). -/
def GAIN : F64 := ⟨0x3FF4CCCCCCCCCCCD#64⟩
/-- `VEL` = 0.84 (FIXED), the nearest binary64 value (R10). -/
def VEL : F64 := ⟨0x3FEAE147AE147AE1#64⟩
/-- 0.9, the classification literal (FIXED), the nearest binary64 value (R10). -/
def NINE_TENTHS : F64 := ⟨0x3FECCCCCCCCCCCCD#64⟩
/-- `pi`: the binary64 number nearest π (R10), 3.141592653589793. -/
def PI : F64 := ⟨0x400921FB54442D18#64⟩

/-! ### The reference instantiation REF (D34)

No source supports its values (R7); it serves tests, and stands in below for an open choice that breaks a
constraint. -/

/-- The REF parameters of D34. -/
def ref : Params where
  scaleTgt      := 2080
  syncCoef      := ⟨HALF, [HALF], []⟩
  burstCoef     := ⟨⟨0x3FC0000000000000#64⟩, List.replicate 7 ⟨0x3FC0000000000000#64⟩, []⟩
  syncThreshold := ⟨0x40C0000000000000#64⟩
  syncBaseline  := ⟨0x40D0000000000000#64⟩
  burstBaseline := ⟨0x40D0000000000000#64⟩
  hetLen        := 128
  physGain      := HALF
  physOffset    := ⟨0x408F400000000000#64⟩
  lookahead     := 512
  chunkMax      := 8192
  sampleOrder   := .little
  sinkOrder     := .little
  hetIndex      := .windowRelative
  burstVariant  := .asBuilt

/-! ### Free values: nothing constrains them (log entries 2, 3, 4 and 5) -/

/-- The host's choice of the OPEN parameters, before any constraint is checked (R7, R282; log entry 2). -/
opaque openChoice : Params

/-- The value of a real operation the spec does not define: one on a non-finite operand (U7), 0/0, the
square root of a negative number, or the angle of (0, 0) (log entry 3).  A one-operand operation repeats its operand. -/
opaque freeReal : RealOp → F64 → F64 → F64

/-- The truth of a comparison with a non-finite operand (R13, U7; log entry 3). -/
opaque freeCompare : CmpOp → F64 → F64 → Bool

/-- The integer of a non-finite real (U7; log entry 3). -/
opaque freeInt : IntOp → F64 → Int

/-- Which of the two enclosing binary64 values the numerics give for the cosine of an angle of the heterodyne
table: the one further from zero (R10, D3, U12; log entry 4). -/
opaque cosLastBit : F64 → Bool

/-- The same of the sine (R10, D3, U12; log entry 4). -/
opaque sinLastBit : F64 → Bool

/-- The same of the angle `atan2(fq, fi)` of the repaired burst detector (R162; log entry 5). -/
opaque atan2LastBit : F64 → F64 → Bool

end Config

end Sys2Proof
end

