-- ==== Sys2Proof/Machine/Numerics.lean ====
section
/-! DEFINITION. The numerics of rule R10: IEEE-754 binary64, round to nearest with ties to even, each
operation rounded once, computed exactly on integers.  A result the spec does not define (an operand that is
not finite, 0/0, the root of a negative number) is a free value (U7; log entry 3). -/

namespace Sys2Proof

/-- A sign and a magnitude of 63 bits as a value (R95). -/
def F64.ofParts (negative : Bool) (magnitude : Nat) : F64 :=
  ⟨BitVec.ofNat 64 ((if negative then 2 ^ 63 else 0) + magnitude)⟩

/-- The sign bit [63] (R95). -/
def F64.sign (a : F64) : Bool := decide (2 ^ 63 ≤ a.bits.toNat)

/-- The bits below the sign: exponent and fraction as one number, which grows with the magnitude (R95). -/
def F64.magnitude (a : F64) : Nat := a.bits.toNat % 2 ^ 63

/-- The biased exponent, bits [62:52] (R95). -/
def F64.exponent (a : F64) : Nat := a.magnitude / 2 ^ 52

/-- The fraction, bits [51:0] (R95). -/
def F64.fraction (a : F64) : Nat := a.magnitude % 2 ^ 52

/-- Neither an infinity nor a NaN. -/
def F64.finite (a : F64) : Bool := decide (a.exponent < 2047)

/-- The integer significand of a finite value: value = ±`significand`·2^`scale`. -/
def F64.significand (a : F64) : Nat :=
  if a.exponent = 0 then a.fraction else 2 ^ 52 + a.fraction

/-- The power of two that the significand counts. -/
def F64.scale (a : F64) : Int :=
  if a.exponent = 0 then -1074 else (a.exponent : Int) - 1075

/-- The signed significand. -/
def F64.signed (a : F64) : Int :=
  if a.sign then -(a.significand : Int) else (a.significand : Int)

/-- The exact value of a finite real as a count of 2^-1074. -/
def F64.toFixed (a : F64) : Int := a.signed * 2 ^ (a.scale + 1074).toNat

/-- ±infinity. -/
def F64.infinity (negative : Bool) : F64 := F64.ofParts negative (2047 * 2 ^ 52)

/-- Round `m`·2^`e` to nearest, ties to even, at binary64's precision and least exponent; `sticky` says that
the exact value lies strictly between `m` and `m + 1` (then `m` has at least 55 bits).  Overflow gives the
infinity of the sign (R10). -/
def F64.round (negative : Bool) (m : Nat) (e : Int) (sticky : Bool) : F64 :=
  let e' : Int := max (e + (Nat.log2 m : Int) - 52) (-1074)
  let kept : Nat :=
    if e' ≤ e then m <<< (e - e').toNat
    else
      let k := (e' - e).toNat
      let q := m >>> k
      let r := m % 2 ^ k
      let half := 2 ^ (k - 1)
      if half < r || (r == half && (sticky || q % 2 == 1)) then q + 1 else q
  let magnitude : Nat := (e' + 1074).toNat * 2 ^ 52 + kept
  if 2047 * 2 ^ 52 ≤ magnitude then F64.infinity negative else F64.ofParts negative magnitude

/-- The real of an integer that a formula uses as a real (`n - 1` in the crosspoint, `i` and `outLen` in SCALE, the
quotient in WRAP).  It is exact up to 2^53 in magnitude, and for the floor or ceiling of a real.  Beyond, R9 and R10
do not say how an unbounded integer becomes a real, and the model rounds it once to nearest, ties to even, before the
operation: DESIGN CHOICE, unsafe, log entry 22. -/
def F64.ofInt (i : Int) : F64 :=
  if i = 0 then Config.ZERO else F64.round (decide (i < 0)) i.natAbs 0 false

/-- The real of a natural number that a formula uses as a real (log entry 22 beyond 2^53). -/
def F64.ofNat (n : Nat) : F64 := F64.ofInt (n : Int)

/-- `real(c)` of a sample code: zero extended, exact (R8, R9). -/
def F64.ofCode (c : Code) : F64 := F64.ofNat c.toNat

/-- `-a`: the sign bit is flipped. -/
def F64.neg (a : F64) : F64 := ⟨a.bits ^^^ 0x8000000000000000#64⟩

/-- The sum of two finite values, rounded once; an exact zero is +0 unless both operands are negative. -/
def F64.addFinite (a b : F64) : F64 :=
  let e := min a.scale b.scale
  let total : Int := a.signed * 2 ^ (a.scale - e).toNat + b.signed * 2 ^ (b.scale - e).toNat
  if total = 0 then F64.ofParts (a.sign && b.sign) 0
  else F64.round (decide (total < 0)) total.natAbs e false

/-- `a + b` (R10). -/
def F64.add (a b : F64) : F64 :=
  if a.finite && b.finite then F64.addFinite a b else Config.freeReal .add a b

/-- `a - b` (R10). -/
def F64.sub (a b : F64) : F64 :=
  if a.finite && b.finite then F64.addFinite a b.neg else Config.freeReal .sub a b

/-- The product of two finite values, rounded once. -/
def F64.mulFinite (a b : F64) : F64 :=
  let m := a.significand * b.significand
  if m = 0 then F64.ofParts (a.sign != b.sign) 0
  else F64.round (a.sign != b.sign) m (a.scale + b.scale) false

/-- `a · b` (R10). -/
def F64.mul (a b : F64) : F64 :=
  if a.finite && b.finite then F64.mulFinite a b else Config.freeReal .mul a b

/-- The quotient of two finite values, rounded once; a nonzero value over zero is an infinity, 0/0 is open. -/
def F64.divFinite (a b : F64) : F64 :=
  if b.significand = 0 then
    if a.significand = 0 then Config.freeReal .div a b else F64.infinity (a.sign != b.sign)
  else if a.significand = 0 then F64.ofParts (a.sign != b.sign) 0
  else
    let n := a.significand <<< 108
    F64.round (a.sign != b.sign) (n / b.significand) (a.scale - b.scale - 108)
      (n % b.significand != 0)

/-- `a / b` (R10). -/
def F64.div (a b : F64) : F64 :=
  if a.finite && b.finite then F64.divFinite a b else Config.freeReal .div a b

/-- The integer square root of `n`, bit by bit: `bits` binary digits are still to be settled below `r`. -/
def isqrtFrom (n : Nat) : Nat → Nat → Nat
  | 0, r => r
  | bits + 1, r => isqrtFrom n bits (if (r + 2 ^ bits) * (r + 2 ^ bits) ≤ n then r + 2 ^ bits else r)

/-- The greatest `r` with `r·r ≤ n`. -/
def isqrt (n : Nat) : Nat := isqrtFrom n (Nat.log2 n / 2 + 1) 0

/-- The square root of a positive finite value, rounded once (R10). -/
def F64.sqrtPositive (a : F64) : F64 :=
  let odd := a.scale % 2
  let n := (a.significand <<< odd.toNat) <<< 110
  let r := isqrt n
  F64.round false r ((a.scale - odd) / 2 - 55) (r * r != n)

/-- `sqrt(a)`, correctly rounded (R10); the root of a zero is that zero. -/
def F64.sqrt (a : F64) : F64 :=
  if a.finite then
    if a.significand = 0 then a
    else if a.sign then Config.freeReal .sqrt a a
    else F64.sqrtPositive a
  else Config.freeReal .sqrt a a

/-- The order key of a value: both zeros are 0 (R13). -/
def F64.key (a : F64) : Int := if a.sign then -(a.magnitude : Int) else (a.magnitude : Int)

/-- `a < b` (R13). -/
def F64.lt (a b : F64) : Bool :=
  if a.finite && b.finite then decide (a.key < b.key) else Config.freeCompare .lt a b

/-- `a ≤ b` (R13). -/
def F64.le (a b : F64) : Bool :=
  if a.finite && b.finite then decide (a.key ≤ b.key) else Config.freeCompare .le a b

/-- `a = b` as values: +0 and -0 are equal (R13). -/
def F64.eqv (a b : F64) : Bool :=
  if a.finite && b.finite then decide (a.key = b.key) else Config.freeCompare .eq a b

/-- `floor` of a finite value (R8). -/
def F64.floorFinite (a : F64) : Int :=
  if 0 ≤ a.scale then a.signed * 2 ^ a.scale.toNat else a.signed / 2 ^ (-a.scale).toNat

/-- `floor(a)` (R8). -/
def F64.floor (a : F64) : Int :=
  if a.finite then a.floorFinite else Config.freeInt .floor a

/-- `ceil(a)` (R8). -/
def F64.ceil (a : F64) : Int :=
  if a.finite then -(a.neg.floorFinite) else Config.freeInt .ceil a

/-- `trunc(a)`: toward zero (R8, R11). -/
def F64.trunc (a : F64) : Int :=
  if a.finite then (if a.sign then -(a.neg.floorFinite) else a.floorFinite)
  else Config.freeInt .trunc a

/-! ### The constants R10 makes by written operations -/

/-- `2·pi`. -/
def Config.TWO_PI : F64 := F64.mul (F64.ofNat 2) Config.PI
/-- `pi/2`, 1.5707963267948966. -/
def Config.HALF_PI : F64 := F64.div Config.PI (F64.ofNat 2)
/-- `-3·pi/4`, -2.356194490192345 (R211). -/
def Config.NEG_THREE_QUARTER_PI : F64 := F64.div (F64.mul (F64.ofInt (-3)) Config.PI) (F64.ofNat 4)
/-- `0.9·N_LINE`, 1638.0 (R99). -/
def Config.ACTIVE_MIN : F64 := F64.mul Config.NINE_TENTHS (F64.ofNat Config.N_LINE)

end Sys2Proof
end

