-- ==== Sys2Proof/Machine/Params.lean ====
section
/-! DEFINITION. The configuration record: what is computed from the OPEN parameters, the constraints of rule
R290 with a name for each, and the configuration the machine of this package has. -/

namespace Sys2Proof

/-- `EXT` = SCALE_TGT/1820, the nearest binary64 value (R7, R290). -/
def Params.ext (p : Params) : F64 := F64.div (F64.ofNat p.scaleTgt) (F64.ofNat Config.N_LINE)

/-- The constraint of R290 that a refused configuration record breaks (U6). -/
inductive ConfigProblem where
  /-- SCALE_TGT < 2060. -/
  | scaleTarget
  /-- HET_LEN < 100, or too short for the index map chosen. -/
  | hetLength
  /-- SYNC_BASELINE < SYNC_THRESHOLD. -/
  | baselineBelowThreshold
  /-- PHYS_GAIN = 0. -/
  | physGainZero
  /-- SYNC_COEF has no unity DC gain. -/
  | syncGain
  /-- BURST_COEF has no unity DC gain. -/
  | burstGain
  /-- CHUNK_MAX ≤ LOOKAHEAD + H_PRE. -/
  | chunkMax
  /-- A real that is an infinity or a NaN. -/
  | nonFinite
deriving DecidableEq, Repr

/-- Every coefficient is finite (R290). -/
def FilterSpec.finite (f : FilterSpec) : Bool :=
  f.b0.finite && f.b.all F64.finite && f.a.all F64.finite

/-- b[0] + … + b[NB] - (a[1] + … + a[NA]), exactly, as a count of 2^-1074 (R120). -/
def FilterSpec.dcGain (f : FilterSpec) : Int :=
  f.b0.toFixed + (f.b.map F64.toFixed).sum - (f.a.map F64.toFixed).sum

/-- Unity DC gain (R120, R123): exact, as R120 states it (U6 would allow a rounding tolerance; log entry 2). -/
def FilterSpec.unityGain (f : FilterSpec) : Bool := decide (f.dcGain = 2 ^ 1074)

/-- The least heterodyne table that every index BURST forms lies in (R7; for the alternative index map the
last index is WIN2_OFFSET + 239; DEDUCED, log entry 2). -/
def Params.minHetLen (p : Params) : Nat :=
  match p.hetIndex with
  | .windowRelative => Config.BW_LEN
  | .lineRelative => Config.WIN2_OFFSET + Config.BW_START + Config.BW_LEN

/-- All reals of the record are finite (R290). -/
def Params.finite (p : Params) : Bool :=
  p.ext.finite && p.syncCoef.finite && p.burstCoef.finite && p.syncThreshold.finite &&
    p.syncBaseline.finite && p.burstBaseline.finite && p.physGain.finite && p.physOffset.finite

/-- The first constraint of R290 that the record breaks, if any.  `SCALE_TGT = N_LINE·EXT` and `EXT > 1`
hold by the way `EXT` is formed. -/
def Params.problem (p : Params) : Option ConfigProblem :=
  if p.finite = false then some .nonFinite
  else if p.scaleTgt < Config.WIN2_OFFSET + Config.BW_START + Config.BW_LEN then some .scaleTarget
  else if p.hetLen < p.minHetLen then some .hetLength
  else if F64.lt p.syncBaseline p.syncThreshold then some .baselineBelowThreshold
  else if p.physGain.key = 0 then some .physGainZero
  else if p.syncCoef.unityGain = false then some .syncGain
  else if p.burstCoef.unityGain = false then some .burstGain
  else if p.chunkMax ≤ p.lookahead + Config.H_PRE then some .chunkMax
  else none

/-- The record satisfies every constraint of R290. -/
def Params.valid (p : Params) : Bool := p.problem.isNone

/-- Building the configuration record: a record that breaks a constraint is refused by name (R290, U6). -/
def Params.build (p : Params) : Except ConfigProblem Params :=
  match p.problem with
  | some c => .error c
  | none => .ok p

/-- The configuration of this package's machine: the host's open choice of the OPEN parameters, at the
defaults R127 and R162 name for the index map and the burst variant.  An open choice that breaks a constraint
is no configuration (U6); REF stands in its place, so that `Config.params` always satisfies R290 and is
otherwise free (log entry 2). -/
def Config.params : Params :=
  match Params.build
      { Config.openChoice with hetIndex := .windowRelative, burstVariant := .asBuilt } with
  | .ok p => p
  | .error _ => Config.ref

end Sys2Proof
end

