-- ==== Sys2Proof/Machine/Quadrature.lean ====
section
/-! DEFINITION. The cosine and sine of the angles of the heterodyne table (R126).  R10, D3 and U12 leave open
their last bit only: each value is one of the two binary64 values that enclose the exact one, and which of the
two is a free value (log entry 4).  The exact value is computed in fixed point, far past the last bit. -/

namespace Sys2Proof.Machine

/-- π in units of 2^-1536, rounded down (R8); the tests compare it with a sum of arctangents. -/
def piFixed : Nat :=
  0x3243f6a8885a308d313198a2e03707344a4093822299f31d0082efa98ec4e6c89452821e638d01377be5466cf34e90c6cc0ac29b7c97c50dd3f84d5b5b54709179216d5d98979fb1bd1310ba698dfb5ac2ffd72dbd01adfb7b8e1afed6a267e96ba7c9045f12c7f9924a19947b3916cf70801f2e2858efc16636920d871574e69a458fea3f4933d7e0d95748f728eb658718bcd5882154aee7b54a41dc25a59b59c30d5392af26013c5d1b023286085f0ca417918b8db38ef8e79dcb0603a180e

/-- Bits after the point of the series below. -/
def seriesBits : Nat := 320

/-- 1 - x²/((n+1)·(n+2))·(1 - x²/((n+3)·(n+4))·(…)) to `k` terms, in units of 2^-320, from x² in those units:
the cosine of x for n = 0, the sine of x over x for n = 1. -/
def alternating (square : Nat) : Nat → Nat → Nat
  | 0, _ => 2 ^ seriesBits
  | k + 1, n =>
    2 ^ seriesBits - ((square * alternating square k (n + 2)) >>> seriesBits) / ((n + 1) * (n + 2))

/-- Cosine and sine of an angle of at most π/4 in magnitude, in units of 2^-320. -/
def smallCosSin (angle : Int) : Int × Int :=
  let square := (angle.natAbs * angle.natAbs) >>> seriesBits
  let sine : Int := ((angle.natAbs * alternating square 40 1) >>> seriesBits : Nat)
  ((alternating square 40 0 : Nat), if angle < 0 then -sine else sine)

/-- The quarter turns in a positive finite angle, to the nearest, and what is left, in units of 2^-320. -/
def quarterTurns (a : F64) : Nat × Int :=
  let fixed := a.significand <<< (a.scale + 1536).toNat
  let quarter := piFixed >>> 1
  let turns := (2 * fixed + quarter) / (2 * quarter)
  let rest : Int := (fixed : Int) - ((turns * quarter : Nat) : Int)
  let cut : Int := (rest.natAbs >>> (1536 - seriesBits) : Nat)
  (turns, if rest < 0 then -cut else cut)

/-- Cosine and sine of a positive finite angle, in units of 2^-320. -/
def cosSin (a : F64) : Int × Int :=
  let (turns, rest) := quarterTurns a
  let (c, s) := smallCosSin rest
  match turns % 4 with
  | 0 => (c, s)
  | 1 => (-s, c)
  | 2 => (-c, -s)
  | _ => (s, -c)

/-- One of the two binary64 values that enclose a value in units of 2^-320: the one further from zero if
`away`, else the one nearer to it. -/
def enclosing (value : Int) (away : Bool) : F64 :=
  let m := value.natAbs
  let kept := (m >>> (Nat.log2 m - 52)) + (if away then 1 else 0)
  F64.ofParts (decide (value < 0)) ((Nat.log2 m + 1022 - seriesBits) * 2 ^ 52 + kept)

/-- `cos` of an angle of the table, which is 0 or at least 2·π/SPC: exact at 0, else with a free last bit. -/
def hetCos (a : F64) : F64 :=
  if a.finite then
    if a.significand = 0 then Config.ONE else enclosing (cosSin a).1 (Config.cosLastBit a)
  else Config.freeReal .cos a a

/-- `sin` of an angle of the table, which is 0 or at least 2·π/SPC: exact at 0, else with a free last bit. -/
def hetSin (a : F64) : F64 :=
  if a.finite then
    if a.significand = 0 then Config.ZERO else enclosing (cosSin a).2 (Config.sinLastBit a)
  else Config.freeReal .sin a a

end Sys2Proof.Machine
end

