-- ==== Sys2Proof/Machine/FilterBank.lean ====
section
/-! DEFINITION. The persistent low-pass filter (R120 to R122) and the heterodyne table (R126) as pure
functions; the operations FCLR, FFEED and HETGEN are in `Sys2Proof/Machine/Filter.lean`. -/

namespace Sys2Proof.Machine

/-- The delay line of one filter instance (R31, R120): `x` is x[1..NB], newest first, `y` is y[1..NA]; with
the ghost bit `cleared` of R33. -/
structure FilterState where
  x       : List F64
  y       : List F64
  cleared : Bool
deriving DecidableEq, Repr, Inhabited

/-- FCLR's effect (R121): every entry, input side and output side alike, gets the level. -/
def FilterState.clear (spec : FilterSpec) (level : F64) : FilterState where
  x := List.replicate spec.b.length level
  y := List.replicate spec.a.length level
  cleared := true

/-- A delay line that nothing has cleared yet (R32, R45: FI and FQ at reset; log entry 7). -/
def FilterState.uncleared (spec : FilterSpec) : FilterState where
  x := List.replicate spec.b.length Config.ZERO
  y := List.replicate spec.a.length Config.ZERO
  cleared := false

/-- acc + c[1]·z[1] + c[2]·z[2] + …, ascending, each operation rounded (R122). -/
def accumulate : F64 → List (F64 × F64) → F64
  | acc, [] => acc
  | acc, (c, z) :: rest => accumulate (F64.add acc (F64.mul c z)) rest

/-- acc - c[1]·z[1] - c[2]·z[2] - …, ascending, each operation rounded (R122). -/
def deaccumulate : F64 → List (F64 × F64) → F64
  | acc, [] => acc
  | acc, (c, z) :: rest => deaccumulate (F64.sub acc (F64.mul c z)) rest

/-- Shift a value into a delay line of `n` entries, newest first (R122). -/
def shiftIn (n : Nat) (v : F64) (line : List F64) : List F64 := (v :: line).take n

/-- The output FFEED computes (R122), in the written summation order. -/
def FilterState.output (spec : FilterSpec) (f : FilterState) (v : F64) : F64 :=
  deaccumulate (accumulate (F64.mul spec.b0 v) (spec.b.zip f.x)) (spec.a.zip f.y)

/-- The delay line after FFEED (R122). -/
def FilterState.advance (spec : FilterSpec) (f : FilterState) (v : F64) : FilterState where
  x := shiftIn spec.b.length v f.x
  y := shiftIn spec.a.length (f.output spec v) f.y
  cleared := f.cleared

/-- HET[k] (R126): the angle is 2·π·k/SPC in the written order; the last bit of either part is free (U12). -/
def hetEntry (k : Nat) : F64 × F64 :=
  let angle := F64.div (F64.mul Config.TWO_PI (F64.ofNat k)) (F64.ofNat Config.SPC)
  (hetCos angle, hetSin angle)

/-- The heterodyne ROM HETGEN writes (R67, R126). -/
def hetTable (p : Params) : List (F64 × F64) := (List.range p.hetLen).map hetEntry

end Sys2Proof.Machine
end

