-- ==== Sys2Proof/Machine/State.lean ====
section
/-! DEFINITION. The state of the block as plain data, the reasons a step can stop, and the state after reset
(R20 to R37, R45). -/

namespace Sys2Proof.Machine

/-- A byte memory: the SAMPLE space as the host's byte stream (R60, R61). -/
abbrev Memory := List Host.Cell

/-- What an unlisted byte of the SAMPLE space reads as (log entry 6). -/
def Memory.fill : Byte := 0#8

/-- The SAMPLE space is in canonical form. -/
def Memory.wf (m : Memory) : Bool := Cells.wf (some Memory.fill) m

/-- An array of reals: NL (R63) or a frame (R64). -/
abbrev RealCells := Cells F64

/-- The fault codes of R260. -/
inductive FaultCode where
  /-- `F_BOUNDS`, code 1: a sample read outside the window (R261). -/
  | fBounds
deriving DecidableEq, Repr, Inhabited

/-- A fault record (R96, R260); for `fBounds`, `info` is the absolute sample index whose read was refused. -/
structure FaultRecord where
  code : FaultCode
  info : Nat
deriving DecidableEq, Repr, Inhabited

/-- What the last operation returned (R98, the column "operands → result"). -/
inductive Result where
  /-- The operation returns nothing, or it stopped with F_BOUNDS and returned nothing (R264). -/
  | none
  /-- `consumed` of PROCESS (R251). -/
  | consumed (n : Nat)
  /-- A sample code (IRE2S). -/
  | code (c : Code)
  /-- A real (FFEED, S2IRE, CUBIC, WRAP, LVLADJ). -/
  | real (a : F64)
  /-- Two reals: (amp, phase) of BURST (R94), (begin', end') of PCL. -/
  | pair (a b : F64)
  /-- A row or `none` (MAPROW). -/
  | row (r : Option Nat)
deriving DecidableEq, Repr, Inhabited

/-- The items that can be without a value (R45, U8). -/
inductive Item where
  /-- `prev_crosspoint` while `prev_valid` = 0 (R22). -/
  | prevCrosspoint
  /-- `xpt` before the first crossing (R25). -/
  | xpt
  /-- NL[k] before a SCALE wrote it (R35). -/
  | nl (k : Nat)
  /-- A filter's delay line before its FCLR (R33). -/
  | filter (f : FilterId)
deriving DecidableEq, Repr, Inhabited

/-- The host's violations of its side of the interface (R66, R98, R251, U3). -/
inductive HostViolation where
  /-- The first call after RESET has lo ≠ 0. -/
  | firstLo
  /-- lo < lo_prev. -/
  | loBackward
  /-- lo > lo_prev + consumed_prev. -/
  | loPastConsumed
  /-- lo + len < lo_prev + len_prev. -/
  | samplesWithdrawn
  /-- len > CHUNK_MAX. -/
  | chunkTooLong
  /-- A sample already presented gets another code. -/
  | sampleChanged
  /-- The host issues an operation that R98 gives to the sequencer or the datapath, not to the host. -/
  | notHostOperation
deriving DecidableEq, Repr, Inhabited

/-- The reasons a step stops with a fault of the model.  The block's own fault F_BOUNDS is not here: raising it
is a next state (R264). -/
inductive Fault where
  /-- An NL index outside [0, SCALE_TGT), an address R63 says does not exist; raised by SCALE and BURST with
  operands the block itself never forms.  Safe: the model stops. -/
  | nlAddress (k : Int)
  /-- A heterodyne ROM index outside the table (R67); raised by BURST on a state whose ROM is shorter than
  R290 asks, or with an operand the block never forms.  Safe: the model stops. -/
  | hetAddress (k : Int)
deriving DecidableEq, Repr, Inhabited

/-- The reasons a step refuses. -/
inductive Refusal where
  /-- No meaning for the operation yet; raised by no arm of this model.  Safe. -/
  | notModelled (mnemonic : String)
  /-- An operation other than RESET before the first RESET (R281, U1).  Safe: the spec asks for the refusal. -/
  | beforeReset
  /-- An operation other than RESET while a fault is recorded (R264, U3, U11).  Safe: the spec asks for it. -/
  | blockFaulted
  /-- A read of an item that has no value: R45 says that it must be refused and supplies no number, R22 and R33
  call it a model error (U8).  Safe: the spec asks for the refusal. -/
  | noValue (item : Item)
  /-- The host broke its side of the interface (R66, R98, R251, U3).  Safe: the spec asks for the refusal. -/
  | hostProtocol (violation : HostViolation)
  /-- The queued bytes are no operation (R100 a, U4).  Safe: the spec asks for the refusal. -/
  | badOperation (error : DecodeError)
deriving DecidableEq, Repr, Inhabited

/-- The state.  Each field cites the rule that names it; the fields under "the model's own" hold what the
host's side and the parameters of the step relation need. -/
structure State where
  /-- `line`, as 2·line (R12, R20). -/
  line2 : Int
  /-- `tgt_phase` (R21). -/
  tgtPhase : F64
  /-- `prev_valid` (R22). -/
  prevValid : Bool
  /-- `prev_crosspoint` (R22). -/
  prevCrosspoint : F64
  /-- `below` (R23). -/
  below : Bool
  /-- `count` (R24). -/
  count : Nat
  /-- `xpt` (R25). -/
  xpt : F64
  /-- `xpt` has a value (R25, R46; ghost, log entry 7). -/
  xptValid : Bool
  /-- `f_prev` (R26). -/
  fPrev : F64
  /-- `scan_pos` (R27). -/
  scanPos : Nat
  /-- `fb_dirty` (R28). -/
  fbDirty : Bool
  /-- `fault` (R29). -/
  fault : Option FaultRecord
  /-- `SF` with `cleared(SF)` (R31, R33). -/
  sf : FilterState
  /-- `FI` with `cleared(FI)` (R31, R33). -/
  fi : FilterState
  /-- `FQ` with `cleared(FQ)` (R31, R33). -/
  fq : FilterState
  /-- `win_lo` (R34). -/
  winLo : Nat
  /-- `win_hi` (R34). -/
  winHi : Nat
  /-- `NL` (R35, R63); an unlisted element has no value. -/
  nl : RealCells
  /-- `FB` (R36, R64), element (row, col) at row·1685 + col; an unlisted element is FB_FILL. -/
  fb : RealCells
  /-- `sink` (R37), oldest frame first. -/
  sink : List RealCells
  /-- `HET` (R45, R67), pairs (re, im). -/
  het : List (F64 × F64)
  /-- The model's own: the SAMPLE space, the host's stream (R42, R60, R72; log entry 6). -/
  samples : Memory
  /-- The model's own: what the last PROCESS since RESET returned (R251's consumed_prev; log entry 8). -/
  lastConsumed : Option Nat
  /-- The model's own: the result of the last operation (R98; log entry 8). -/
  ret : Result
  /-- The model's own: the operations that wait at the port, as bytes (R90; log entries 1 and 14). -/
  hostQueue : List Byte
  /-- The model's own: a RESET has been executed (R281). -/
  constructed : Bool
  /-- The model's own: the configuration record, which nothing writes (R40, R42; log entry 2). -/
  cfg : Params
deriving DecidableEq, Repr, Inhabited

/-- -2, "Unsynced", as 2·line (R93). -/
def lineUnsynced : Int := -4
/-- -1, "AcquiringField", as 2·line (R93). -/
def lineAcquiring : Int := -2

/-- The table of R45 under a configuration, with an empty sample stream and an idle host.  The real registers
with "no value" hold +0.0 behind their validity bits (log entry 7). -/
def State.ofConfig (c : Params) : State where
  line2          := lineUnsynced
  tgtPhase       := Config.ZERO
  prevValid      := false
  prevCrosspoint := Config.ZERO
  below          := false
  count          := 0
  xpt            := Config.ZERO
  xptValid       := false
  fPrev          := c.syncBaseline
  scanPos        := 0
  fbDirty        := false
  fault          := none
  sf             := FilterState.clear c.syncCoef c.syncBaseline
  fi             := FilterState.uncleared c.burstCoef
  fq             := FilterState.uncleared c.burstCoef
  winLo          := 0
  winHi          := 0
  nl             := []
  fb             := []
  sink           := []
  het            := hetTable c
  samples        := []
  lastConsumed   := none
  ret            := .none
  hostQueue      := []
  constructed    := true
  cfg            := c

/-- The machine right after RESET (R45, R280), under the open configuration. -/
def State.reset : State := State.ofConfig Config.params

/-- Before the first RESET every operation but RESET is refused (R281); the other fields are unspecified. -/
def State.unconstructed (s : State) : State := { s with constructed := false }

end Sys2Proof.Machine
end

