-- ==== Sys2Proof/Machine/Ops.lean ====
section
/-! DEFINITION. The shared operations: register and memory updates by name, checked reads, raising F_BOUNDS
and leaving it, and how an operation's meaning becomes the outcome of a step. -/

namespace Sys2Proof.Machine

/-! ### Named updates of the state -/

/-- Record what an operation returned (R98). -/
def State.setRet (s : State) (r : Result) : State := { s with ret := r }
/-- `line <- l`, as 2·line (R12, R20). -/
def State.setLine2 (s : State) (l : Int) : State := { s with line2 := l }
/-- `tgt_phase <- a` (R21). -/
def State.setTgtPhase (s : State) (a : F64) : State := { s with tgtPhase := a }
/-- Replace NL (R63). -/
def State.setNl (s : State) (m : RealCells) : State := { s with nl := m }
/-- Replace FB (R64). -/
def State.setFb (s : State) (m : RealCells) : State := { s with fb := m }
/-- Append a frame to the sink (R37). -/
def State.pushFrame (s : State) (m : RealCells) : State := { s with sink := s.sink ++ [m] }
/-- Replace the heterodyne ROM (R67). -/
def State.setHet (s : State) (h : List (F64 × F64)) : State := { s with het := h }
/-- The window registers (R34). -/
def State.setWindow (s : State) (lo hi : Nat) : State := { s with winLo := lo, winHi := hi }
/-- Remember what PROCESS returned (R251). -/
def State.setConsumed (s : State) (n : Nat) : State := { s with lastConsumed := some n }
/-- Replace the pending operations of the port (log entry 1). -/
def State.setQueue (s : State) (q : List Byte) : State := { s with hostQueue := q }
/-- Replace the SAMPLE space: the host's act only (R66). -/
def State.setSamples (s : State) (m : Memory) : State := { s with samples := m }

/-- Replace one filter instance's delay line (R31). -/
def State.setFilter (s : State) (f : FilterId) (st : FilterState) : State :=
  match f with
  | .sf => { s with sf := st }
  | .fi => { s with fi := st }
  | .fq => { s with fq := st }

/-- One filter instance's delay line (R31: they share no state). -/
def State.filter (s : State) : FilterId → FilterState
  | .sf => s.sf
  | .fi => s.fi
  | .fq => s.fq

/-- The coefficient set of an instance: SF has SYNC_COEF, FI and FQ both BURST_COEF (R31, R124). -/
def coefOf (p : Params) : FilterId → FilterSpec
  | .sf => p.syncCoef
  | .fi => p.burstCoef
  | .fq => p.burstCoef

/-! ### Outcomes of an operation's body -/

/-- Why a body stops without a next state. -/
inductive Stop where
  | fault (f : Fault)
  | refusal (r : Refusal)
deriving DecidableEq, Repr

/-- What the body of an operation does: it returns a value in a state; it raises F_BOUNDS, leaving a state
(R264); or it stops. -/
inductive Res (α : Type) where
  | ok (value : α) (s : State)
  | raised (s : State)
  | stopped (why : Stop)

/-- Run `k` after a body that returns; a raise or a stop ends the callers too (R264 (2)). -/
def Res.andThen {α β : Type} (r : Res α) (k : α → State → Res β) : Res β :=
  match r with
  | .ok v s => k v s
  | .raised s => .raised s
  | .stopped w => .stopped w

/-- A body that only reads. -/
def Res.ofExcept {α : Type} (e : Except Stop α) (s : State) : Res α :=
  match e with
  | .ok v => .ok v s
  | .error w => .stopped w

/-- The step outcome of a body: its result is recorded; one that raised F_BOUNDS returns nothing and is a next
state (R264). -/
def Res.outcome (r : Res Result) : Host.Outcome State Fault Refusal :=
  match r with
  | .ok v s => .next (s.setRet v)
  | .raised s => .next s
  | .stopped (.fault f) => .fault f
  | .stopped (.refusal w) => .refused w

/-! ### Taking the fault, and leaving it -/

/-- The code number of the `fault` register: 0 is `none`, F_BOUNDS is 1 (R260). -/
def FaultRecord.number : Option FaultRecord → Nat
  | none => 0
  | some ⟨.fBounds, _⟩ => 1

/-- `raise F_BOUNDS(n)`: the fault register is written, nothing else; no handler, no vector, no mode (R264). -/
def State.raise (s : State) (n : Nat) : State := { s with fault := some ⟨.fBounds, n⟩ }

/-- Stop the operation and all its callers with F_BOUNDS (R264 (1), (2)). -/
def raiseBounds {α : Type} (n : Nat) (s : State) : Res α := .raised (s.raise n)

/-- There is no return from the fault but RESET (R265): the state of R45 again.  The host's stream, its
queue and the hardwired configuration are not the block's to clear (R40, R42). -/
def State.restart (s : State) : State :=
  { State.ofConfig s.cfg with samples := s.samples, hostQueue := s.hostQueue }

/-- Why the block accepts no operation but RESET, if it does not (R264 (4), R281). -/
def State.blocked (s : State) : Option Refusal :=
  if s.constructed = false then some .beforeReset
  else if s.fault.isSome then some .blockFaulted
  else none

/-- Execute an operation other than RESET: the block must accept operations (R264 (4), R281); no result stands
until the operation returns one. -/
def operate (s : State) (body : State → Res Result) : Host.Outcome State Fault Refusal :=
  match s.blocked with
  | some r => .refused r
  | none => (body (s.setRet .none)).outcome

/-! ### Checked reads -/

/-- One byte of the SAMPLE space. -/
def State.sampleByte (s : State) (a : Nat) : Byte := Cells.readD Memory.fill s.samples a

/-- Two bytes of a Sample as a code, in SAMPLE_BYTE_ORDER (R61). -/
def codeOfBytes (order : ByteOrder) (first second : Byte) : Code :=
  match order with
  | .little => second ++ first
  | .big => first ++ second

/-- A code as its two bytes, in SAMPLE_BYTE_ORDER (R61). -/
def bytesOfCode (order : ByteOrder) (c : Code) : List Byte :=
  match order with
  | .little => [c.extractLsb' 0 8, c.extractLsb' 8 8]
  | .big => [c.extractLsb' 8 8, c.extractLsb' 0 8]

/-- The code at an absolute index of the stream (R60): bytes 2n and 2n + 1 (R61). -/
def State.streamCode (s : State) (n : Nat) : Code :=
  codeOfBytes s.cfg.sampleOrder (s.sampleByte (2 * n)) (s.sampleByte (2 * n + 1))

/-- The index lies in the window (R62). -/
def State.inWindow (s : State) (n : Nat) : Bool := decide (s.winLo ≤ n) && decide (n < s.winHi)

/-- `S[n]`, checked: no value outside the window (R62). -/
def State.readSample (s : State) (n : Nat) : Option Code :=
  if s.inWindow n then some (s.streamCode n) else none

/-- `NL[k]`: an address outside [0, SCALE_TGT) does not exist (R63); an element no SCALE wrote has no value. -/
def State.readNl (s : State) (k : Int) : Except Stop F64 :=
  if k < 0 then .error (.fault (.nlAddress k))
  else
    match Cells.find s.nl k.toNat with
    | some v => .ok v
    | none =>
      if k.toNat < s.cfg.scaleTgt then .error (.refusal (.noValue (.nl k.toNat)))
      else .error (.fault (.nlAddress k))

/-- `HET[k]` (R67). -/
def State.readHet (s : State) (k : Int) : Except Stop (F64 × F64) :=
  if k < 0 then .error (.fault (.hetAddress k))
  else
    match s.het[k.toNat]? with
    | some h => .ok h
    | none => .error (.fault (.hetAddress k))

/-- `prev_crosspoint`, which has a value only while `prev_valid` = 1 (R22). -/
def State.readPrev (s : State) : Except Stop F64 :=
  if s.prevValid then .ok s.prevCrosspoint else .error (.refusal (.noValue .prevCrosspoint))

/-- `xpt`, which has a value once a crossing was recognised (R25). -/
def State.readXpt (s : State) : Except Stop F64 :=
  if s.xptValid then .ok s.xpt else .error (.refusal (.noValue .xpt))

/-! ### Frames -/

/-- FB[row][col]'s element address, row-major (R64). -/
def frameAddress (row col : Nat) : Nat := row * Config.FB_COLS + col

/-- An element of FB or of an emitted frame (R64). -/
def frameElement (m : RealCells) (row col : Nat) : F64 :=
  Cells.readD Config.FB_FILL m (frameAddress row col)

/-- Write one whole row (R64). -/
def writeRow (m : RealCells) (row : Nat) (vals : List F64) : RealCells :=
  Cells.write (some Config.FB_FILL) m (frameAddress row 0) vals

/-- A fresh frame: every element FB_FILL (R36, R64). -/
def freshFrame : RealCells := []

/-- The bytes of one binary64 value in SINK_BYTE_ORDER (R65). -/
def sinkBytes (order : ByteOrder) (a : F64) : List Byte :=
  match order with
  | .little => leBytes 8 a.bits.toNat
  | .big => (leBytes 8 a.bits.toNat).reverse

/-- The byte at an offset of a frame on the wire: element (row, col) is at 8·(row·1685 + col) (R65, R234). -/
def frameByte (order : ByteOrder) (m : RealCells) (offset : Nat) : Byte :=
  ((sinkBytes order (Cells.readD Config.FB_FILL m (offset / 8)))[offset % 8]?).getD 0#8

/-- Bytes of one frame on the wire (R65): 6 807 400. -/
def frameBytes : Nat := 8 * (Config.FB_ROWS * Config.FB_COLS)

/-- Byte `n` of the SINK stream, if as much was emitted: the frames one after the other with nothing between them,
each value in the order the parameter `SINK_BYTE_ORDER` decides (R65). -/
def State.wireByte (s : State) (n : Nat) : Option Byte :=
  match s.sink[n / frameBytes]? with
  | none => none
  | some m => some (frameByte s.cfg.sinkOrder m (n % frameBytes))

/-! ### The port -/

/-- Fetch the operation at the head of the port's queue and take its bytes off (log entry 1). -/
def State.fetch (s : State) : Except DecodeError (Instr × State) :=
  match decode s.hostQueue with
  | .ok (i, rest) => .ok (i, s.setQueue rest)
  | .error e => .error e

/-- The bytes of the one operation that a table word spells: the decoder's own length of it. -/
def operationBytes (nbits w : Nat) : List Byte :=
  match decode (tableBytes nbits w) with
  | .ok (_, rest) => (tableBytes nbits w).take ((tableBytes nbits w).length - rest.length)
  | .error _ => tableBytes nbits w

end Sys2Proof.Machine
end

