-- ==== Sys2Proof/Machine/Operands.lean ====
section
/-! DEFINITION. Operand assembly (R97): how each derived operand is formed from state and input, every formula
in the written order of R10. -/

namespace Sys2Proof.Machine

/-- `crosspoint`: (n - 1) + (f_prev - T)/(f_prev - f) (R97, R171). -/
def crosspoint (n : Nat) (fPrev f threshold : F64) : F64 :=
  F64.add (F64.ofInt ((n : Int) - 1))
    (F64.div (F64.sub fPrev threshold) (F64.sub fPrev f))

/-- `linelen`: xpt - prev_crosspoint (R97, R173). -/
def lineLength (xpt prev : F64) : F64 := F64.sub xpt prev

/-- `end` at PCL entry: prev_crosspoint + linelen·EXT (R97, R190). -/
def lineEnd (p : Params) (prev linelen : F64) : F64 := F64.add prev (F64.mul linelen p.ext)

/-- `perSample`: (end - start)/outLen (R97, R151). -/
def perSample (start stop : F64) (outLen : Nat) : F64 :=
  F64.div (F64.sub stop start) (F64.ofNat outLen)

/-- `p`: start + i·perSample, not accumulated (R97, R151 a). -/
def sourcePosition (start per : F64) (i : Nat) : F64 := F64.add start (F64.mul (F64.ofNat i) per)

/-- `index`: max(2, floor(p)) (R97, R151 b). -/
def sourceIndex (p : F64) : Nat := (max 2 (F64.floor p)).toNat

/-- `t`: p - index (R97, R151). -/
def sourceFraction (p : F64) : F64 := F64.sub p (F64.ofNat (sourceIndex p))

/-- The nudge of a bound: bound + adjust·GAIN (R212). -/
def nudge (bound adjust : F64) : F64 := F64.add bound (F64.mul adjust Config.GAIN)

/-- `r`: (end - begin)/SCALE_TGT (R97, R231). -/
def stretch (p : Params) (start stop : F64) : F64 :=
  F64.div (F64.sub stop start) (F64.ofNat p.scaleTgt)

/-- `floor(line)` from 2·line (R12). -/
def lineFloor (line2 : Int) : Int := line2 / 2

end Sys2Proof.Machine
end

