-- ==== Sys2Proof/Machine/Flags.lean ====
section
/-! DEFINITION. The one-bit state of R30 with the updates that set and clear it, and the guards of the
classification table (R99).  The block has no arithmetic condition codes (R30). -/

namespace Sys2Proof.Machine

/-! ### `below`, `prev_valid`, `fb_dirty` -/

/-- A downward crossing is recognised: xpt is written, `below` <- 1, `count` <- 1 (R171). -/
def State.openRun (s : State) (x : F64) : State :=
  { s with xpt := x, xptValid := true, below := true, count := 1 }

/-- A further sample below the threshold: `count` <- `count` + 1 (R171). -/
def State.extendRun (s : State) : State := { s with count := s.count + 1 }

/-- The run has ended: `below` <- 0 (R171); `count` and `xpt` stay (R24). -/
def State.closeRun (s : State) : State := { s with below := false }

/-- An accepted crossing becomes the reference: `prev_crosspoint` <- xpt, `prev_valid` <- 1 (R172). -/
def State.acceptCrossing (s : State) (x : F64) : State :=
  { s with prevCrosspoint := x, prevValid := true }

/-- The end of a STEP: `f_prev` <- f, `scan_pos` <- n + 1 (R171). -/
def State.advanceScan (s : State) (f : F64) (n : Nat) : State :=
  { s with fPrev := f, scanPos := n + 1 }

/-- `fb_dirty` (R28, R233). -/
def State.setFbDirty (s : State) (b : Bool) : State := { s with fbDirty := b }

/-! ### The classification table -/

/-- The seven classification outcomes (R99, R197). -/
inductive Cls where
  | active
  | field2
  | newframe
  | vsync
  | half
  | skip
  | none
deriving DecidableEq, Repr, Inhabited

/-- Guard 1: line ≥ 0 ∧ linelen ≥ 0.9·N_LINE ∧ count > 90. -/
def guardActive (line2 : Int) (linelen : F64) (count : Nat) : Bool :=
  decide (0 ≤ line2) && F64.le Config.ACTIVE_MIN linelen && decide (90 < count)

/-- Guard 2: line = -1 ∧ linelen < 1000 ∧ 80 < count < 160. -/
def guardField2 (line2 : Int) (linelen : F64) (count : Nat) : Bool :=
  decide (line2 = -2) && F64.lt linelen (F64.ofNat 1000) && (decide (80 < count) && decide (count < 160))

/-- Guard 3: (line = -1 ∨ line > 520) ∧ linelen > 1800 ∧ count < 80. -/
def guardNewframe (line2 : Int) (linelen : F64) (count : Nat) : Bool :=
  (decide (line2 = -2) || decide (1040 < line2)) && F64.lt (F64.ofNat 1800) linelen && decide (count < 80)

/-- Guard 4: line = -2 ∧ linelen > 1800 ∧ count > 80. -/
def guardVsync (line2 : Int) (linelen : F64) (count : Nat) : Bool :=
  decide (line2 = -4) && F64.lt (F64.ofNat 1800) linelen && decide (80 < count)

/-- Guard 5: line ≥ 0 ∧ 800 < linelen < 1000. -/
def guardHalf (line2 : Int) (linelen : F64) : Bool :=
  decide (0 ≤ line2) && (F64.lt (F64.ofNat 800) linelen && F64.lt linelen (F64.ofNat 1000))

/-- Guard 6: line ≥ 0 ∧ linelen > 1700. -/
def guardSkip (line2 : Int) (linelen : F64) : Bool :=
  decide (0 ≤ line2) && F64.lt (F64.ofNat 1700) linelen

/-- The decode table: fixed priority, first match wins (R99). -/
def classify (line2 : Int) (linelen : F64) (count : Nat) : Cls :=
  if guardActive line2 linelen count then .active
  else if guardField2 line2 linelen count then .field2
  else if guardNewframe line2 linelen count then .newframe
  else if guardVsync line2 linelen count then .vsync
  else if guardHalf line2 linelen then .half
  else if guardSkip line2 linelen then .skip
  else .none

end Sys2Proof.Machine
end

