-- ==== Sys2Proof/Machine/Assembler.lean ====
section
/-! DEFINITION. The Frame Assembler: MAPROW (R230), LVLADJ (R231), ASMLINE (R232) and EMIT (R234). -/

namespace Sys2Proof.Machine

/-- A formula result is a row when it is not negative (R230, R47). -/
def validRow (r : Int) : Option Nat := if r < 0 then none else some r.toNat

/-- MAPROW line → row or none (R230), on 2·line. -/
def maprow (line2 : Int) : Option Nat :=
  let l := lineFloor line2
  if 10 ≤ l ∧ l < 262 then validRow ((l - 10) * 2)
  else if 271 ≤ l ∧ l < 525 then validRow ((l - 273) * 2 + 1)
  else none

/-- LVLADJ begin, end (R231): (r - 1)·VEL + 1. -/
def lvladj (p : Params) (start stop : F64) : F64 :=
  F64.add (F64.mul (F64.sub (stretch p start stop) Config.ONE) Config.VEL) Config.ONE

/-- The stored value of one column (R232): to the physical scale, times lvl, and back. -/
def compensate (p : Params) (lvl v : F64) : F64 :=
  F64.div (F64.sub (F64.mul (F64.add p.physOffset (F64.mul p.physGain v)) lvl) p.physOffset) p.physGain

/-- The compensated values of the next `k` columns from NL index `x`, ascending (R232). -/
def rowFrom (s : State) (lvl : F64) : Nat → Nat → Except Stop (List F64)
  | 0, _ => .ok []
  | k + 1, x =>
    match s.readNl (x : Int) with
    | .error w => .error w
    | .ok v =>
      match rowFrom s lvl k (x + 1) with
      | .error w => .error w
      | .ok vs => .ok (compensate s.cfg lvl v :: vs)

/-- The row ASMLINE stores: all FB_COLS columns of the active window (R232). -/
def activeRow (s : State) (lvl : F64) : Except Stop (List F64) :=
  rowFrom s lvl Config.FB_COLS Config.ACTIVE_START

/-- ASMLINE begin, end (R232): a decode-only line writes nothing. -/
def asmline (start stop : F64) (s : State) : Res Unit :=
  match maprow s.line2 with
  | none => .ok () s
  | some row =>
    match activeRow s (lvladj s.cfg start stop) with
    | .error w => .stopped w
    | .ok vals => .ok () ((s.setFb (writeRow s.fb row vals)).setFbDirty true)

/-- EMIT (R234): one copy of FB onto the sink. -/
def emit (s : State) : State := s.pushFrame s.fb

/-- The operation MAPROW. -/
def execMaprow (line2 : Int) (s : State) : Host.Outcome State Fault Refusal :=
  operate s fun s => .ok (.row (maprow line2)) s

/-- The operation LVLADJ. -/
def execLvladj (start stop : F64) (s : State) : Host.Outcome State Fault Refusal :=
  operate s fun s => .ok (.real (lvladj s.cfg start stop)) s

/-- The operation ASMLINE. -/
def execAsmline (start stop : F64) (s : State) : Host.Outcome State Fault Refusal :=
  operate s fun s => (asmline start stop s).andThen fun _ s => .ok .none s

/-- The operation EMIT. -/
def execEmit (s : State) : Host.Outcome State Fault Refusal :=
  operate s fun s => .ok .none (emit s)

end Sys2Proof.Machine
end

