-- ==== Sys2Proof/Machine/Arctangent.lean ====
section
/-! DEFINITION. The angle `atan2(fq, fi)` of the repaired burst detector (R162), which lies in (-π, π].  As for the
heterodyne table, the value is one of the two binary64 values that enclose the exact one, and which of the two is a
free value (log entry 5).  The exact value is computed in fixed point, far past the last bit. -/

namespace Sys2Proof.Machine

/-- 1 + (2j+2)/(2j+3)·z·(1 + (2j+4)/(2j+5)·z·(…)) to `k` terms, in units of 2^-n, from z in those units. -/
def eulerSum (n z : Nat) : Nat → Nat → Nat
  | 0, _ => 2 ^ n
  | k + 1, j => 2 ^ n + ((z * eulerSum n z k (j + 1) * (2 * j + 2)) / (2 * j + 3)) >>> n

/-- The angle whose tangent is a/b, in units of 2^-n, by Euler's series; a/b is at most 5/12. -/
def smallAngle (n a b : Nat) : Nat :=
  let square := a * a + b * b
  a * b * eulerSum n (((a * a) <<< n) / square) 130 0 / square

/-- π in units of 2^-n, for n up to 1536. -/
def piAt (n : Nat) : Nat := piFixed >>> (1536 - n)

/-- The angle from 0 to π/2 whose tangent is a/b, in units of 2^-n; a and b are not both 0. -/
def acuteAngle (n a b : Nat) : Nat :=
  if 12 * a ≤ 5 * b then smallAngle n a b
  else if 12 * b ≤ 5 * a then piAt n / 2 - smallAngle n b a
  else if a ≤ b then piAt n / 4 - smallAngle n (b - a) (b + a)
  else piAt n / 4 + smallAngle n (a - b) (a + b)

/-- The magnitude of the greatest binary64 value that is at most `v` in units of 2^-n. -/
def magnitudeBelow (n v : Nat) : Nat :=
  let e : Int := max ((Nat.log2 v : Int) - n - 52) (-1074)
  (e + 1074).toNat * 2 ^ 52 + v >>> (e + n).toNat

/-- The magnitude of the greatest binary64 value below the angle of (x, y), y not zero.  An angle next to 0 is about
y/x and falls short of it by a third of its cube, so it takes three more bits for each bit that y/x is small. -/
def angleBelow (y x : F64) : Nat :=
  let e := min y.scale x.scale
  let a := y.significand <<< (y.scale - e).toNat
  let b := x.significand <<< (x.scale - e).toNat
  if x.sign then magnitudeBelow seriesBits (piAt seriesBits - acuteAngle seriesBits a b)
  else
    let n := seriesBits + 3 * (Nat.log2 b - Nat.log2 a)
    magnitudeBelow n (acuteAngle n a b)

/-- `atan2(y, x)` (R162) for y not zero, by the choice of its last bit: the enclosing value nearer to zero or the
one further from it.  Beyond the binary64 number nearest π there is none in (-π, π]. -/
def enclosingAngle (y x : F64) (away : Bool) : F64 :=
  F64.ofParts y.sign (min Config.PI.magnitude (angleBelow y x + if away then 1 else 0))

/-- `atan2(y, x)` in (-π, π] (R162): exact where y is 0 (of either sign: R13 has one zero), else with a free last
bit.  (0, 0) has no angle: a free value, which BURST never asks for. -/
def arctan2 (y x : F64) : F64 :=
  if y.finite && x.finite then
    if y.significand = 0 then
      if x.significand = 0 then Config.freeReal .atan2 y x
      else if x.sign then Config.PI else Config.ZERO
    else enclosingAngle y x (Config.atan2LastBit y x)
  else Config.freeReal .atan2 y x

end Sys2Proof.Machine
end

