-- ==== Sys2Proof/Machine/Filter.lean ====
section
/-! DEFINITION. FCLR (R121), FFEED (R122) and HETGEN (R126). -/

namespace Sys2Proof.Machine

/-- FCLR F, level (R121). -/
def fclr (f : FilterId) (level : F64) (s : State) : State :=
  s.setFilter f (FilterState.clear (coefOf s.cfg f) level)

/-- FFEED F, v (R122); a filter with cleared = 0 is refused (R33). -/
def ffeed (f : FilterId) (v : F64) (s : State) : Res F64 :=
  if (s.filter f).cleared then
    .ok ((s.filter f).output (coefOf s.cfg f) v)
      (s.setFilter f ((s.filter f).advance (coefOf s.cfg f) v))
  else .stopped (.refusal (.noValue (.filter f)))

/-- HETGEN (R126). -/
def hetgen (s : State) : State := s.setHet (hetTable s.cfg)

/-- The operation FCLR. -/
def execFclr (f : FilterId) (level : F64) (s : State) : Host.Outcome State Fault Refusal :=
  operate s fun s => .ok .none (fclr f level s)

/-- The operation FFEED. -/
def execFfeed (f : FilterId) (v : F64) (s : State) : Host.Outcome State Fault Refusal :=
  operate s fun s => (ffeed f v s).andThen fun out s => .ok (.real out) s

/-- The operation HETGEN. -/
def execHetgen (s : State) : Host.Outcome State Fault Refusal :=
  operate s fun s => .ok .none (hetgen s)

end Sys2Proof.Machine
end

