-- ==== Sys2Proof/Machine/Burst.lean ====
section
/-! DEFINITION. The Burst/Phase Detector: BURST (R160), with the non-normative repaired variant of R162 as a
configuration switch. -/

namespace Sys2Proof.Machine

/-- What BURST's loop carries: the two delay lines and the running maximum. -/
structure BurstAcc where
  fi    : FilterState
  fq    : FilterState
  amp   : F64
  phase : F64
deriving DecidableEq, Repr

/-- The heterodyne index a window sample meets (R127). -/
def hetIndex (p : Params) (off : Int) (i : Nat) : Int :=
  match p.hetIndex with
  | .windowRelative => (i : Int)
  | .lineRelative => off + (Config.BW_START : Int) + (i : Int)

/-- The channel fed to FQ: as built the same real part as FI's (R160), repaired the imaginary part (R162). -/
def quadratureInput (p : Params) (v : F64) (h : F64 × F64) : F64 :=
  match p.burstVariant with
  | .asBuilt => F64.mul v h.1
  | .repaired => F64.mul v h.2

/-- The phase recorded at a new maximum: as built the magnitude again (R160), repaired the angle of (fi, fq) (R162). -/
def recordedPhase (p : Params) (m fi fq : F64) : F64 :=
  match p.burstVariant with
  | .asBuilt => m
  | .repaired => arctan2 fq fi

/-- The magnitude of the pair (fi, fq) (R160). -/
def magnitudeOf (fi fq : F64) : F64 := F64.sqrt (F64.add (F64.mul fi fi) (F64.mul fq fq))

/-- One window sample of BURST (R160), from the NL value and the HET entry read for it. -/
def burstSample (p : Params) (i : Nat) (v : F64) (h : F64 × F64) (acc : BurstAcc) : BurstAcc :=
  let re := F64.mul v h.1
  let q := quadratureInput p v h
  let fi := acc.fi.output p.burstCoef re
  let fq := acc.fq.output p.burstCoef q
  let m := magnitudeOf fi fq
  let replace := decide (Config.BW_SKIP ≤ i) && F64.lt acc.amp m
  { fi := acc.fi.advance p.burstCoef re
    fq := acc.fq.advance p.burstCoef q
    amp := if replace then m else acc.amp
    phase := if replace then recordedPhase p m fi fq else acc.phase }

/-- BURST's loop over the next `k` window samples from `i`, ascending (R160). -/
def burstFrom (s : State) (off : Int) : Nat → Nat → BurstAcc → Except Stop BurstAcc
  | 0, _, acc => .ok acc
  | k + 1, i, acc =>
    match s.readNl (off + (Config.BW_START : Int) + (i : Int)) with
    | .error w => .error w
    | .ok v =>
      match s.readHet (hetIndex s.cfg off i) with
      | .error w => .error w
      | .ok h => burstFrom s off k (i + 1) (burstSample s.cfg i v h acc)

/-- Where BURST's loop starts: both filters cleared to BURST_BASELINE, the maximum at 0 (R160). -/
def burstStart (p : Params) : BurstAcc where
  fi := FilterState.clear p.burstCoef p.burstBaseline
  fq := FilterState.clear p.burstCoef p.burstBaseline
  amp := Config.ZERO
  phase := Config.ZERO

/-- What BURST off computes: the two delay lines and (amp, phase) (R160). -/
def burstRun (s : State) (off : Int) : Except Stop BurstAcc :=
  burstFrom s off Config.BW_LEN 0 (burstStart s.cfg)

/-- BURST off → (amp, phase) (R160). -/
def burst (off : Int) (s : State) : Res (F64 × F64) :=
  match burstRun s off with
  | .error w => .stopped w
  | .ok acc => .ok (acc.amp, acc.phase) ((s.setFilter .fi acc.fi).setFilter .fq acc.fq)

/-- The operation BURST. -/
def execBurst (off : Int) (s : State) : Host.Outcome State Fault Refusal :=
  operate s fun s => (burst off s).andThen fun r s => .ok (.pair r.1 r.2) s

end Sys2Proof.Machine
end

