-- ==== Sys2Proof/Machine/Resampler.lean ====
section
/-! DEFINITION. The Resampler: CUBIC (R150) and SCALE (R151). -/

namespace Sys2Proof.Machine

/-- CUBIC y0, y1, y2, y3, t (R150), nested and associated as written. -/
def cubic (y0 y1 y2 y3 t : F64) : F64 :=
  let c3 := F64.sub (F64.add (F64.mul (F64.ofNat 3) (F64.sub y1 y2)) y3) y0
  let c2 :=
    F64.sub
      (F64.add (F64.sub (F64.mul (F64.ofNat 2) y0) (F64.mul (F64.ofNat 5) y1))
        (F64.mul (F64.ofNat 4) y2)) y3
  let c1 := F64.sub y2 y0
  F64.add y1
    (F64.mul (F64.mul Config.HALF t)
      (F64.add c1 (F64.mul t (F64.add c2 (F64.mul t c3)))))

/-- The output sample at a source position (R151): the four checked reads in the order index - 1, index,
index + 1, index + 2; the error is the index refused. -/
def sampleAt (s : State) (p : F64) : Except Nat F64 :=
  let index := sourceIndex p
  match s.readSample (index - 1) with
  | none => .error (index - 1)
  | some c0 =>
    match s.readSample index with
    | none => .error index
    | some c1 =>
      match s.readSample (index + 1) with
      | none => .error (index + 1)
      | some c2 =>
        match s.readSample (index + 2) with
        | none => .error (index + 2)
        | some c3 =>
          .ok (cubic (F64.ofCode c0) (F64.ofCode c1) (F64.ofCode c2) (F64.ofCode c3)
            (sourceFraction p))

/-- Where SCALE's loop ended early. -/
inductive ScaleStop where
  /-- The read of a sample index was refused (R62). -/
  | refused (n : Nat)
  /-- The output index is no NL address (R63). -/
  | noAddress (i : Nat)
deriving DecidableEq, Repr

/-- SCALE's loop (R151) over the next `k` output indices from `i`, ascending: the values written, and why it
ended early if it did. -/
def scaleFrom (s : State) (start per : F64) : Nat → Nat → List F64 × Option ScaleStop
  | 0, _ => ([], none)
  | k + 1, i =>
    match sampleAt s (sourcePosition start per i) with
    | .error n => ([], some (.refused n))
    | .ok v =>
      if i < s.cfg.scaleTgt then
        let rest := scaleFrom s start per k (i + 1)
        (v :: rest.1, rest.2)
      else ([], some (.noAddress i))

/-- SCALE start, end, outLen → NL (R151).  On a refused read the values written before it stand (R264). -/
def scale (start stop : F64) (outLen : Nat) (s : State) : Res Unit :=
  let run := scaleFrom s start (perSample start stop outLen) outLen 0
  let written := s.setNl (Cells.write none s.nl 0 run.1)
  match run.2 with
  | none => .ok () written
  | some (.refused n) => raiseBounds n written
  | some (.noAddress i) => .stopped (.fault (.nlAddress (i : Int)))

/-- The operation CUBIC. -/
def execCubic (y0 y1 y2 y3 t : F64) (s : State) : Host.Outcome State Fault Refusal :=
  operate s fun s => .ok (.real (cubic y0 y1 y2 y3 t)) s

/-- The operation SCALE. -/
def execScale (start stop : F64) (outLen : Nat) (s : State) : Host.Outcome State Fault Refusal :=
  operate s fun s => (scale start stop outLen s).andThen fun _ s => .ok .none s

end Sys2Proof.Machine
end

