-- ==== Sys2Proof/Machine/PhaseLoop.lean ====
section
/-! DEFINITION. The Phase-Correction Loop: WRAP (R210), TGTUPD (R211) and PCL (R212). -/

namespace Sys2Proof.Machine

/-- WRAP d (R210): d - (2·pi)·ceil((d - pi)/(2·pi)), in the written order. -/
def wrap (d : F64) : F64 :=
  F64.sub d
    (F64.mul Config.TWO_PI
      (F64.ofInt (F64.ceil (F64.div (F64.sub d Config.PI) Config.TWO_PI))))

/-- The target TGTUPD selects (R211): "unset" is exact equality with 0. -/
def nextTarget (tgt phase1 : F64) : F64 :=
  if F64.eqv tgt Config.ZERO then
    if F64.lt Config.NEG_THREE_QUARTER_PI phase1 && F64.lt phase1 Config.ZERO then
      F64.neg Config.HALF_PI
    else Config.HALF_PI
  else F64.neg tgt

/-- TGTUPD phase1 (R211). -/
def tgtupd (phase1 : F64) (s : State) : State := s.setTgtPhase (nextTarget s.tgtPhase phase1)

/-- `adjust`: WRAP(phase - tgt_phase) (R97, R212). -/
def phaseError (phase tgt : F64) : F64 := wrap (F64.sub phase tgt)

/-- PCL, steps 1 to 4: resample, measure, update the target, nudge `begin` (R212). -/
def pclFirstPass (start stop : F64) (s : State) : Res F64 :=
  (scale start stop s.cfg.scaleTgt s).andThen fun _ s =>
    (burst 0 s).andThen fun m s =>
      let s := tgtupd m.2 s
      .ok (nudge start (phaseError m.2 s.tgtPhase)) s

/-- PCL, steps 5 and 6: resample with the corrected `begin`, measure at both windows, the first result
discarded, and nudge `end` (R212). -/
def pclSecondPass (start stop : F64) (s : State) : Res F64 :=
  (scale start stop s.cfg.scaleTgt s).andThen fun _ s =>
    (burst 0 s).andThen fun _ s =>
      (burst (Config.WIN2_OFFSET : Int) s).andThen fun m s =>
        .ok (nudge stop (phaseError m.2 s.tgtPhase)) s

/-- PCL begin, end → (begin', end'), the final line in NL (R212). -/
def pcl (start stop : F64) (s : State) : Res (F64 × F64) :=
  (pclFirstPass start stop s).andThen fun start' s =>
    (pclSecondPass start' stop s).andThen fun stop' s =>
      (scale start' stop' s.cfg.scaleTgt s).andThen fun _ s => .ok (start', stop') s

/-- The operation WRAP. -/
def execWrap (d : F64) (s : State) : Host.Outcome State Fault Refusal :=
  operate s fun s => .ok (.real (wrap d)) s

/-- The operation TGTUPD. -/
def execTgtupd (phase1 : F64) (s : State) : Host.Outcome State Fault Refusal :=
  operate s fun s => .ok .none (tgtupd phase1 s)

/-- The operation PCL. -/
def execPcl (start stop : F64) (s : State) : Host.Outcome State Fault Refusal :=
  operate s fun s => (pcl start stop s).andThen fun r s => .ok (.pair r.1 r.2) s

end Sys2Proof.Machine
end

