-- ==== Sys2Proof/Machine/Tracker.lean ====
section
/-! DEFINITION. The Line Tracker's outcomes CLS.* (R190 to R196) and PHRESYNC (R198).  An outcome's guard is
DISPATCH's to test (R99, R173); the operation is the outcome's effect (log entry 9). -/

namespace Sys2Proof.Machine

/-- CLS.ACTIVE (R190): PCL, ASMLINE on the line's number before the increment, then line + 1. -/
def clsActive (linelen : F64) (s : State) : Res Unit :=
  match s.readPrev with
  | .error w => .stopped w
  | .ok prev =>
    (pcl prev (lineEnd s.cfg prev linelen) s).andThen fun bounds s =>
      (asmline bounds.1 bounds.2 s).andThen fun _ s => .ok () (s.setLine2 (s.line2 + 2))

/-- CLS.FIELD2 (R191): line <- 262.5. -/
def clsField2 (s : State) : State := s.setLine2 525

/-- CLS.NEWFRAME (R192): emit a frame in progress, then a fresh buffer, target unset, line <- 1. -/
def clsNewframe (s : State) : State :=
  let s := if s.fbDirty then emit s else s
  (((s.setFb freshFrame).setFbDirty false).setTgtPhase Config.ZERO).setLine2 2

/-- CLS.VSYNC (R193): line <- -1. -/
def clsVsync (s : State) : State := s.setLine2 lineAcquiring

/-- CLS.HALF (R194): line + 0.5. -/
def clsHalf (s : State) : State := s.setLine2 (s.line2 + 1)

/-- CLS.SKIP (R195): line + 1. -/
def clsSkip (s : State) : State := s.setLine2 (s.line2 + 2)

/-- CLS.NONE (R196): nothing. -/
def clsNone (s : State) : State := s

/-- PHRESYNC (R198): the target is unset when floor(line) = 272. -/
def phresync (s : State) : State :=
  if lineFloor s.line2 = 272 then s.setTgtPhase Config.ZERO else s

/-- The operation CLS.ACTIVE; `count` is its guard's operand only (R98, R190). -/
def execClsActive (linelen : F64) (_count : Nat) (s : State) : Host.Outcome State Fault Refusal :=
  operate s fun s => (clsActive linelen s).andThen fun _ s => .ok .none s

/-- The operation CLS.FIELD2. -/
def execClsField2 (s : State) : Host.Outcome State Fault Refusal :=
  operate s fun s => .ok .none (clsField2 s)

/-- The operation CLS.NEWFRAME. -/
def execClsNewframe (s : State) : Host.Outcome State Fault Refusal :=
  operate s fun s => .ok .none (clsNewframe s)

/-- The operation CLS.VSYNC. -/
def execClsVsync (s : State) : Host.Outcome State Fault Refusal :=
  operate s fun s => .ok .none (clsVsync s)

/-- The operation CLS.HALF. -/
def execClsHalf (s : State) : Host.Outcome State Fault Refusal :=
  operate s fun s => .ok .none (clsHalf s)

/-- The operation CLS.SKIP. -/
def execClsSkip (s : State) : Host.Outcome State Fault Refusal :=
  operate s fun s => .ok .none (clsSkip s)

/-- The operation CLS.NONE. -/
def execClsNone (s : State) : Host.Outcome State Fault Refusal :=
  operate s fun s => .ok .none (clsNone s)

/-- The operation PHRESYNC. -/
def execPhresync (s : State) : Host.Outcome State Fault Refusal :=
  operate s fun s => .ok .none (phresync s)

end Sys2Proof.Machine
end

