-- ==== Sys2Proof/Machine/SyncDetector.lean ====
section
/-! DEFINITION. The sequencer: DISPATCH (R173) and STEP (R171, R172). -/

namespace Sys2Proof.Machine

/-- Execute a classification outcome (R173, R190 to R196). -/
def runOutcome (outcome : Cls) (linelen : F64) (s : State) : Res Unit :=
  match outcome with
  | .active => clsActive linelen s
  | .field2 => .ok () (clsField2 s)
  | .newframe => .ok () (clsNewframe s)
  | .vsync => .ok () (clsVsync s)
  | .half => .ok () (clsHalf s)
  | .skip => .ok () (clsSkip s)
  | .none => .ok () (clsNone s)

/-- DISPATCH xpt, count (R173): classify on the value `line` holds on entry, execute, then PHRESYNC. -/
def dispatch (xpt : F64) (count : Nat) (s : State) : Res Unit :=
  match s.readPrev with
  | .error w => .stopped w
  | .ok prev =>
    let linelen := lineLength xpt prev
    (runOutcome (classify s.line2 linelen count) linelen s).andThen fun _ s => .ok () (phresync s)

/-- An accepted Crossing (R172): dispatched if there is a reference, and then the new reference. -/
def acceptCrossing (xpt : F64) (s : State) : Res Unit :=
  (if s.prevValid then dispatch xpt s.count s else .ok () s).andThen fun _ s =>
    .ok () (s.acceptCrossing xpt)

/-- The run below the threshold has ended (R171); a Crossing of `count` ≤ 16 is discarded whole (R172). -/
def completeRun (s : State) : Res Unit :=
  if Config.W_GATE < s.count then
    match s.readXpt with
    | .error w => .stopped w
    | .ok xpt => acceptCrossing xpt s
  else .ok () s

/-- What STEP does with the filtered value `f` of sample `n` (R171). -/
def trackCrossing (n : Nat) (f : F64) (s : State) : Res Unit :=
  if F64.lt f s.cfg.syncThreshold then
    if s.below then .ok () s.extendRun
    else .ok () (s.openRun (crosspoint n s.fPrev f s.cfg.syncThreshold))
  else if s.below then completeRun s.closeRun
  else .ok () s

/-- STEP (R171): consume the sample at scan_pos. -/
def stepOp (s : State) : Res Unit :=
  let n := s.scanPos
  match s.readSample n with
  | none => raiseBounds n s
  | some c =>
    (ffeed .sf (F64.ofCode c) s).andThen fun f s =>
      (trackCrossing n f s).andThen fun _ s => .ok () (s.advanceScan f n)

/-- The operation DISPATCH. -/
def execDispatch (xpt : F64) (count : Nat) (s : State) : Host.Outcome State Fault Refusal :=
  operate s fun s => (dispatch xpt count s).andThen fun _ s => .ok .none s

/-- The operation STEP. -/
def execStep (s : State) : Host.Outcome State Fault Refusal :=
  operate s fun s => (stepOp s).andThen fun _ s => .ok .none s

end Sys2Proof.Machine
end

