-- ==== Sys2Proof/Machine/HostOps.lean ====
section
/-! DEFINITION. The host operations RESET (R250) and PROCESS (R251), and the host's own acts between operations
(R66). -/

namespace Sys2Proof.Machine

/-- The operation RESET (R250): accepted in every state, a faulted one too, and before any other RESET. -/
def execReset (s : State) : Host.Outcome State Fault Refusal := .next s.restart

/-- The precondition of PROCESS that a call breaks, if any (R251, U3). -/
def protocolBreach (lo len : Nat) (s : State) : Option HostViolation :=
  match s.lastConsumed with
  | none =>
    if 0 < lo then some .firstLo
    else if s.cfg.chunkMax < len then some .chunkTooLong
    else none
  | some consumed =>
    if lo < s.winLo then some .loBackward
    else if s.winLo + consumed < lo then some .loPastConsumed
    else if lo + len < s.winHi then some .samplesWithdrawn
    else if s.cfg.chunkMax < len then some .chunkTooLong
    else none

/-- PROCESS's loop (R251): STEP while scan_pos < win_hi - LOOKAHEAD.  Each STEP moves scan_pos up by one, so
win_hi - scan_pos turns are enough. -/
def processLoop : Nat → State → Res Unit
  | 0, s => .ok () s
  | k + 1, s =>
    if s.scanPos + s.cfg.lookahead < s.winHi then (stepOp s).andThen fun _ s => processLoop k s
    else .ok () s

/-- The first sample index PROCESS keeps (R251): what the next line may need, inside the window. -/
def retainFrom (s : State) : Int :=
  let scanned : Int := s.scanPos
  let needed := if s.prevValid then min scanned (F64.floor s.prevCrosspoint - (Config.H_PRE : Int)) else scanned
  max needed s.winLo

/-- `consumed` (R251): retain - win_lo. -/
def consumedCount (s : State) : Nat := (retainFrom s - (s.winLo : Int)).toNat

/-- PROCESS lo, len → consumed (R251). -/
def process (lo len : Nat) (s : State) : Res Nat :=
  match protocolBreach lo len s with
  | some v => .stopped (.refusal (.hostProtocol v))
  | none =>
    let s := s.setWindow lo (lo + len)
    (processLoop (s.winHi - s.scanPos) s).andThen fun _ s =>
      .ok (consumedCount s) (s.setConsumed (consumedCount s))

/-- The operation PROCESS. -/
def execProcess (lo len : Nat) (s : State) : Host.Outcome State Fault Refusal :=
  operate s fun s => (process lo len s).andThen fun n s => .ok (.consumed n) s

/-! ### The host's own acts (R66) -/

/-- The host puts a code at an absolute index of its stream.  A sample it has already presented does not change
(R66, U3). -/
def State.hostDeliver (s : State) (n : Nat) (c : Code) : Host.Outcome State Fault Refusal :=
  if n < s.winHi ∧ s.streamCode n ≠ c then .refused (.hostProtocol .sampleChanged)
  else
    .next (s.setSamples
      (Cells.write (some Memory.fill) s.samples (2 * n) (bytesOfCode s.cfg.sampleOrder c)))

/-- The operations the host invokes: RESET and PROCESS (R66, R98). -/
def hostInvokes (i : Instr) : Bool :=
  match i with
  | .reset => true
  | .process _ _ => true
  | _ => false

/-- The host queues an operation (log entries 1 and 14).  It has the two operations of R98 only, so it reaches
no register, NL or HET (R66).  PROCESS's operands are integers of any size (R11). -/
def State.hostIssue (s : State) (i : Instr) : Host.Outcome State Fault Refusal :=
  if hostInvokes i = false then .refused (.hostProtocol .notHostOperation)
  else .next (s.setQueue (s.hostQueue ++ encode i))

end Sys2Proof.Machine
end

