-- ==== Sys2Proof/Machine/LevelCodec.lean ====
section
/-! DEFINITION. The Level Codec: S2IRE (R140) and IRE2S (R141). -/

namespace Sys2Proof.Machine

/-- S2IRE code (R140): -100 for code 0, else -40 + (160/65533)·code. -/
def s2ire (code : Code) : F64 :=
  if code = 0#16 then F64.ofInt (-100)
  else
    F64.add (F64.ofInt (-40))
      (F64.mul (F64.div (F64.ofNat 160) (F64.ofNat 65533)) (F64.ofCode code))

/-- IRE2S's unclamped branch: trunc(((ire + 40)/160)·65534 + 1) (R141). -/
def ire2sLinear (ire : F64) : Int :=
  F64.trunc
    (F64.add
      (F64.mul (F64.div (F64.add ire (F64.ofNat 40)) (F64.ofNat 160)) (F64.ofNat 65534))
      Config.ONE)

/-- IRE2S ire (R141), the tests in the written order. -/
def ire2s (ire : F64) : Code :=
  if F64.le ire (F64.ofInt (-60)) then 0#16
  else if F64.le ire (F64.ofInt (-40)) then 1#16
  else if F64.le (F64.ofNat 120) ire then 65535#16
  else BitVec.ofInt 16 (ire2sLinear ire)

/-- The operation S2IRE. -/
def execS2ire (code : Code) (s : State) : Host.Outcome State Fault Refusal :=
  operate s fun s => .ok (.real (s2ire code)) s

/-- The operation IRE2S. -/
def execIre2s (ire : F64) (s : State) : Host.Outcome State Fault Refusal :=
  operate s fun s => .ok (.code (ire2s ire)) s

end Sys2Proof.Machine
end

