-- ==== Sys2Proof/Machine/Dispatch.lean ====
section
/-! DEFINITION. The meaning of every operation, one arm each. -/

namespace Sys2Proof.Machine

def exec (i : Instr) (s : State) : Host.Outcome State Fault Refusal :=
  match i with
  | .reset => Sys2Proof.Machine.execReset s
  | .process lo len => Sys2Proof.Machine.execProcess lo len s
  | .step => Sys2Proof.Machine.execStep s
  | .dispatch xpt count => Sys2Proof.Machine.execDispatch xpt count s
  | .clsActive linelen count => Sys2Proof.Machine.execClsActive linelen count s
  | .clsField2 => Sys2Proof.Machine.execClsField2 s
  | .clsNewframe => Sys2Proof.Machine.execClsNewframe s
  | .clsVsync => Sys2Proof.Machine.execClsVsync s
  | .clsHalf => Sys2Proof.Machine.execClsHalf s
  | .clsSkip => Sys2Proof.Machine.execClsSkip s
  | .clsNone => Sys2Proof.Machine.execClsNone s
  | .phresync => Sys2Proof.Machine.execPhresync s
  | .fclr f level => Sys2Proof.Machine.execFclr f level s
  | .ffeed f v => Sys2Proof.Machine.execFfeed f v s
  | .hetgen => Sys2Proof.Machine.execHetgen s
  | .s2ire code => Sys2Proof.Machine.execS2ire code s
  | .ire2s ire => Sys2Proof.Machine.execIre2s ire s
  | .cubic y0 y1 y2 y3 t => Sys2Proof.Machine.execCubic y0 y1 y2 y3 t s
  | .scale start stop outLen => Sys2Proof.Machine.execScale start stop outLen s
  | .burst off => Sys2Proof.Machine.execBurst off s
  | .wrap d => Sys2Proof.Machine.execWrap d s
  | .tgtupd phase1 => Sys2Proof.Machine.execTgtupd phase1 s
  | .pcl start stop => Sys2Proof.Machine.execPcl start stop s
  | .maprow line2 => Sys2Proof.Machine.execMaprow line2 s
  | .lvladj start stop => Sys2Proof.Machine.execLvladj start stop s
  | .asmline start stop => Sys2Proof.Machine.execAsmline start stop s
  | .emit => Sys2Proof.Machine.execEmit s

end Sys2Proof.Machine
end

