-- ==== Sys2Proof/Machine/Step.lean ====
section
/-! DEFINITION. One step: the next queued operation, or nothing while the host has queued none. -/

namespace Sys2Proof.Machine

/-- One step of the machine.  With no operation queued the block is idle (R266, R276); otherwise the operation
at the head of the queue is fetched and executed to completion (R14, R253). -/
def step (s : State) : Host.Outcome State Fault Refusal :=
  if s.hostQueue = [] then .next s
  else
    match s.fetch with
    | .error e => .refused (.badOperation e)
    | .ok (i, s') => exec i s'

/-- The operation of a table word put where the next step fetches: at the head of the host's queue. -/
def State.withFetchWord (s : State) (nbits w : Nat) : State :=
  s.setQueue (operationBytes nbits w ++ s.hostQueue)

end Sys2Proof.Machine
end

