-- ==== Sys2Proof/Safety.lean ====
section
/-! DEFINITION. What counts as a good state and a safe run, in the terms the statements use (R46, R47, R63). -/

namespace Sys2Proof.Machine

/-- The block accepts operations: a RESET has been executed and no fault is recorded (R264, R281). -/
def State.Accepts (s : State) : Prop := s.constructed = true ∧ s.fault = none

/-- The values `tgt_phase` takes (R21, R46): 0, +π/2 and -π/2. -/
def LegalTarget (a : F64) : Prop :=
  a = Config.ZERO ∨ a = Config.HALF_PI ∨ a = F64.neg Config.HALF_PI

/-- The values `line` takes, as 2·line (R46): -2, -1, and every multiple of 1/2 from 1 on. -/
def LegalLine (line2 : Int) : Prop := line2 = lineUnsynced ∨ line2 = lineAcquiring ∨ 2 ≤ line2

/-- A delay line has the lengths of its coefficient set (R31, R120). -/
def FilterState.fits (f : FilterState) (spec : FilterSpec) : Prop :=
  f.x.length = spec.b.length ∧ f.y.length = spec.a.length

/-- A frame is in canonical form and lists nothing at or above row 504 (R47, R64). -/
def FrameOk (m : RealCells) : Prop :=
  Cells.wf (some Config.FB_FILL) m = true ∧ ∀ c ∈ m, c.1 < frameAddress 504 0

/-- The invariant of the machine: it holds at reset and every step keeps it, whatever operation is queued.
What R46 says of `line` is not here, for a CLS operation queued by itself moves `line` with no guard tested;
`LegalLine` is stated of the operations that test the guards. -/
structure State.Inv (s : State) : Prop where
  /-- The configuration satisfies R290. -/
  cfgValid : s.cfg.valid = true
  /-- The SAMPLE space is in canonical form. -/
  samplesWf : Memory.wf s.samples = true
  /-- NL is in canonical form and lists only indices of the NL space (R63). -/
  nlWf : Cells.wf none s.nl = true
  nlRange : ∀ c ∈ s.nl, c.1 < s.cfg.scaleTgt
  /-- FB and every emitted frame (R47, R64). -/
  fbOk : FrameOk s.fb
  sinkOk : ∀ f ∈ s.sink, FrameOk f
  /-- `fb_dirty` = 0 implies that FB is fresh (R46). -/
  cleanIsFresh : s.fbDirty = false → s.fb = freshFrame
  /-- `tgt_phase` (R46). -/
  target : LegalTarget s.tgtPhase
  /-- `below` = 1 implies `count` ≥ 1 and that `xpt` has a value (R46). -/
  openRun : s.below = true → s.xptValid = true ∧ 1 ≤ s.count
  /-- The delay lines have their lengths, and SF is cleared (R31, R33). -/
  sfFits : s.sf.fits s.cfg.syncCoef
  fiFits : s.fi.fits s.cfg.burstCoef
  fqFits : s.fq.fits s.cfg.burstCoef
  sfCleared : s.sf.cleared = true
  /-- The heterodyne ROM has HET_LEN entries (R67). -/
  hetLength : s.het.length = s.cfg.hetLen

/-! ### What the Resampler reads and writes, as functions of the state (R151, R152) -/

/-- All four reads of the output sample at a source position lie in the window (R151, R153). -/
abbrev TapsReadable (s : State) (p : F64) : Prop :=
  ∀ d < 4, s.inWindow (sourceIndex p - 1 + d) = true

/-- The output sample at a source position: the cubic through the four codes around it (R150, R151). -/
def resampledValue (s : State) (p : F64) : F64 :=
  cubic (F64.ofCode (s.streamCode (sourceIndex p - 1))) (F64.ofCode (s.streamCode (sourceIndex p)))
    (F64.ofCode (s.streamCode (sourceIndex p + 1))) (F64.ofCode (s.streamCode (sourceIndex p + 2)))
    (sourceFraction p)

/-- Every read of SCALE start, end, outLen lies in the window. -/
abbrev SpanReadable (s : State) (start stop : F64) (outLen : Nat) : Prop :=
  ∀ i < outLen, TapsReadable s (sourcePosition start (perSample start stop outLen) i)

/-- The values SCALE start, end, outLen writes to NL[0], NL[1], … (R151). -/
def resampledLine (s : State) (start stop : F64) (outLen : Nat) : List F64 :=
  (List.range outLen).map fun i => resampledValue s (sourcePosition start (perSample start stop outLen) i)

/-- A step that goes on, or refuses a call the host must not make; it stops with no fault of the model, and
with no read of an item without value (R45: the rules never perform such a read). -/
def SafeOutcome (o : Host.Outcome State Fault Refusal) : Prop :=
  match o with
  | .next _ => True
  | .fault _ => False
  | .refused r => r = .beforeReset ∨ r = .blockFaulted ∨ ∃ v, r = .hostProtocol v

end Sys2Proof.Machine
end

