-- ==== Sys2Proof/Certificates/Slice0/Obligations.lean ====
section
/-! DEFINITION. The statements for the provers.  The functions under `Sys2Proof.Claims` say in the spec's words
what the statements compare the machine with.  A real that is not finite is log entry 3 throughout. -/

namespace Sys2Proof.Claims

open Sys2Proof Sys2Proof.Machine

/-! ### What the statements are about -/

/-- The selectors of the 27 rows of R98. -/
def assignedSelectors : List Byte :=
  [0x00#8, 0x01#8, 0x10#8, 0x11#8] ++
    [0x20#8, 0x21#8, 0x22#8, 0x23#8, 0x24#8, 0x25#8, 0x26#8, 0x27#8] ++
    [0x30#8, 0x31#8, 0x32#8, 0x33#8, 0x34#8, 0x35#8, 0x36#8, 0x37#8] ++
    [0x38#8, 0x39#8, 0x3A#8, 0x3B#8, 0x3C#8, 0x3D#8, 0x3E#8]

/-- π/2, 1.5707963267948966 (R211). -/
def halfPi : F64 := ⟨0x3FF921FB54442D18#64⟩
/-- -π/2. -/
def minusHalfPi : F64 := ⟨0xBFF921FB54442D18#64⟩
/-- -3π/4, -2.356194490192345 (R211). -/
def minusThreeQuarterPi : F64 := ⟨0xC002D97C7F3321D2#64⟩
/-- 2π, 6.283185307179586 (R210). -/
def twoPi : F64 := ⟨0x401921FB54442D18#64⟩

/-- The text of R122: the output of a filter in direct form, ascending sums. -/
def directForm (spec : FilterSpec) (f : FilterState) (v : F64) : F64 :=
  let fed := (spec.b.zip f.x).foldl (fun acc c => F64.add acc (F64.mul c.1 c.2)) (F64.mul spec.b0 v)
  (spec.a.zip f.y).foldl (fun acc c => F64.sub acc (F64.mul c.1 c.2)) fed

/-- The text of R122: the delay line after a feed, newest first. -/
def fed (spec : FilterSpec) (f : FilterState) (v : F64) : FilterState where
  x := (v :: f.x).take spec.b.length
  y := (directForm spec f v :: f.y).take spec.a.length
  cleared := f.cleared

/-- The one arm of the as-built detector (R160, R161 b): filter state after the first `n` inputs. -/
def burstArm (p : Params) (input : Nat → F64) : Nat → FilterState
  | 0 => ⟨List.replicate p.burstCoef.b.length p.burstBaseline,
          List.replicate p.burstCoef.a.length p.burstBaseline, true⟩
  | n + 1 => fed p.burstCoef (burstArm p input n) (input n)

/-- The magnitude at window sample `i`, both arms being equal (R160, R161 b). -/
def burstMagnitude (p : Params) (input : Nat → F64) (i : Nat) : F64 :=
  let out := directForm p.burstCoef (burstArm p input i) (input i)
  F64.sqrt (F64.add (F64.mul out out) (F64.mul out out))

/-- The maximum magnitude over window samples 16 to `n` - 1, replaced on strict `>` from 0 (R160). -/
def burstMaximum (p : Params) (input : Nat → F64) (n : Nat) : F64 :=
  (List.range n).foldl
    (fun best i => if 16 ≤ i ∧ F64.lt best (burstMagnitude p input i) = true then burstMagnitude p input i
      else best) Config.ZERO

/-- The product fed to the arms at window sample `i` of `line` (R160): NL value times HET[i].re. -/
def burstInput (het : List (F64 × F64)) (line : List F64) (off i : Nat) : F64 :=
  F64.mul (line.getD (off + 140 + i) Config.ZERO) (het.getD i (Config.ZERO, Config.ZERO)).1

/-- What BURST off measures on `line`. -/
def measured (s : State) (line : List F64) (off : Nat) : F64 :=
  burstMaximum s.cfg (burstInput s.het line off) 100

/-- The text of R211: the target after TGTUPD. -/
def targetAfter (target phase1 : F64) : F64 :=
  if F64.eqv target Config.ZERO = true then
    if F64.lt minusThreeQuarterPi phase1 = true ∧ F64.lt phase1 Config.ZERO = true then minusHalfPi else halfPi
  else F64.neg target

/-- The text of R210. -/
def wrapped (d : F64) : F64 :=
  F64.sub d (F64.mul twoPi (F64.ofInt (F64.ceil (F64.div (F64.sub d Config.PI) twoPi))))

/-- The line of one resampling of PCL, SCALE_TGT elements. -/
def lineOf (s : State) (start stop : F64) : List F64 := resampledLine s start stop s.cfg.scaleTgt

/-- `tgt_phase` after PCL (R212 step 3). -/
def pclTarget (s : State) (start stop : F64) : F64 :=
  targetAfter s.tgtPhase (measured s (lineOf s start stop) 0)

/-- `begin'` (R212 step 4). -/
def pclBegin (s : State) (start stop : F64) : F64 :=
  F64.add start (F64.mul
    (wrapped (F64.sub (measured s (lineOf s start stop) 0) (pclTarget s start stop))) Config.GAIN)

/-- `end'` (R212 step 6), measured in the second window of the second pass. -/
def pclEnd (s : State) (start stop : F64) : F64 :=
  F64.add stop (F64.mul
    (wrapped (F64.sub (measured s (lineOf s (pclBegin s start stop) stop) 1820) (pclTarget s start stop)))
    Config.GAIN)

/-- The position of R151 (a): start + i·((end - start)/outLen). -/
def positionOf (start stop : F64) (outLen i : Nat) : F64 :=
  F64.add start (F64.mul (F64.ofNat i) (F64.div (F64.sub stop start) (F64.ofNat outLen)))

/-- The index of R151 (b): max(2, floor(p)). -/
def indexOf (p : F64) : Nat := (max 2 (F64.floor p)).toNat

/-- The output sample of R151 at a position: CUBIC on the codes at index - 1 to index + 2 and p - index. -/
def interpolated (s : State) (p : F64) : F64 :=
  cubic (F64.ofCode (s.streamCode (indexOf p - 1))) (F64.ofCode (s.streamCode (indexOf p)))
    (F64.ofCode (s.streamCode (indexOf p + 1))) (F64.ofCode (s.streamCode (indexOf p + 2)))
    (F64.sub p (F64.ofNat (indexOf p)))

/-- The four reads at a position lie in the window. -/
abbrev ReadsLieInWindow (s : State) (p : F64) : Prop :=
  ∀ d < 4, s.inWindow (indexOf p - 1 + d) = true

/-- The angle of HET[k] (R126): 2·π·k/SPC in the written order. -/
def tableAngle (k : Nat) : F64 := F64.div (F64.mul twoPi (F64.ofNat k)) (F64.ofNat 8)

/-- HET[k] (R126): cosine and sine of that angle, each with its last bit free (U12). -/
def tableEntry (k : Nat) : F64 × F64 := (hetCos (tableAngle k), hetSin (tableAngle k))

/-- Two reals of one sign that are equal or next to each other. -/
def LastBitApart (a b : F64) : Prop :=
  a.sign = b.sign ∧ a.magnitude ≤ b.magnitude + 1 ∧ b.magnitude ≤ a.magnitude + 1

/-- The vectors V-HET of spec/95_test_vectors.md for k = 0 to 8. -/
def printedTable : List (F64 × F64) :=
  [(⟨0x3FF0000000000000#64⟩, ⟨0x0000000000000000#64⟩), (⟨0x3FE6A09E667F3BCD#64⟩, ⟨0x3FE6A09E667F3BCC#64⟩),
   (⟨0x3C91A62633145C07#64⟩, ⟨0x3FF0000000000000#64⟩), (⟨0xBFE6A09E667F3BCC#64⟩, ⟨0x3FE6A09E667F3BCD#64⟩),
   (⟨0xBFF0000000000000#64⟩, ⟨0x3CA1A62633145C07#64⟩), (⟨0xBFE6A09E667F3BCE#64⟩, ⟨0xBFE6A09E667F3BCC#64⟩),
   (⟨0xBCAA79394C9E8A0A#64⟩, ⟨0xBFF0000000000000#64⟩), (⟨0x3FE6A09E667F3BCB#64⟩, ⟨0xBFE6A09E667F3BCE#64⟩),
   (⟨0x3FF0000000000000#64⟩, ⟨0xBCB1A62633145C07#64⟩)]

/-- `r` is the value of an exact result, given by how far a value lies from it, rounded to nearest with ties to
even (R10): no finite real is nearer, and of two equally near the one with an even last bit is taken. -/
def RoundedToNearest (r : F64) (distance : F64 → ℝ) : Prop :=
  ∀ c : F64, c.finite = true →
    distance r ≤ distance c ∧ (distance r = distance c → c.toFixed = r.toFixed ∨ r.fraction % 2 = 0)

/-- All reads of the three resamplings of PCL lie in the window. -/
def PassesReadable (s : State) (start stop : F64) : Prop :=
  SpanReadable s start stop s.cfg.scaleTgt ∧
    SpanReadable s (pclBegin s start stop) stop s.cfg.scaleTgt ∧
    SpanReadable s (pclBegin s start stop) (pclEnd s start stop) s.cfg.scaleTgt

/-- The normative detector and index map, and a table and a line long enough for them (R7, R127, R162, R290). -/
def DetectorReady (s : State) : Prop :=
  s.cfg.burstVariant = .asBuilt ∧ s.cfg.hetIndex = .windowRelative ∧ 100 ≤ s.het.length ∧ 2060 ≤ s.cfg.scaleTgt

/-- The text of R231. -/
def levelAdjust (p : Params) (start stop : F64) : F64 :=
  F64.add (F64.mul (F64.sub (F64.div (F64.sub stop start) (F64.ofNat p.scaleTgt)) Config.ONE) Config.VEL)
    Config.ONE

/-- The text of R232: the value stored for an NL value. -/
def storedValue (p : Params) (lvl v : F64) : F64 :=
  F64.div (F64.sub (F64.mul (F64.add p.physOffset (F64.mul p.physGain v)) lvl) p.physOffset) p.physGain

/-- The text of R230, on 2·line. -/
def rowOf (line2 : Int) : Option Nat :=
  if 10 ≤ line2 / 2 ∧ line2 / 2 < 262 then some ((line2 / 2 - 10) * 2).toNat
  else if 273 ≤ line2 / 2 ∧ line2 / 2 < 525 then some ((line2 / 2 - 273) * 2 + 1).toNat
  else none

/-- The frame after a row was written: its 1685 columns hold `value`, every other element is as before. -/
def RowWritten (before after : RealCells) (row : Nat) (value : Nat → F64) : Prop :=
  ∀ r col, col < 1685 →
    frameElement after r col = if r = row then value col else frameElement before r col

/-- The decode table of R99: the outcome DISPATCH selects. -/
def selectedOutcome (line2 : Int) (linelen : F64) (count : Nat) : Instr :=
  if 0 ≤ line2 ∧ F64.le (F64.ofNat 1638) linelen = true ∧ 90 < count then .clsActive linelen count
  else if line2 = -2 ∧ F64.lt linelen (F64.ofNat 1000) = true ∧ 80 < count ∧ count < 160 then .clsField2
  else if (line2 = -2 ∨ 1040 < line2) ∧ F64.lt (F64.ofNat 1800) linelen = true ∧ count < 80 then .clsNewframe
  else if line2 = -4 ∧ F64.lt (F64.ofNat 1800) linelen = true ∧ 80 < count then .clsVsync
  else if 0 ≤ line2 ∧ F64.lt (F64.ofNat 800) linelen = true ∧ F64.lt linelen (F64.ofNat 1000) = true then .clsHalf
  else if 0 ≤ line2 ∧ F64.lt (F64.ofNat 1700) linelen = true then .clsSkip
  else .clsNone

/-- The model's guards by the priority R99 gives them, 1 to 6. -/
def guardHolds (line2 : Int) (linelen : F64) (count : Nat) : Nat → Prop
  | 1 => guardActive line2 linelen count = true
  | 2 => guardField2 line2 linelen count = true
  | 3 => guardNewframe line2 linelen count = true
  | 4 => guardVsync line2 linelen count = true
  | 5 => guardHalf line2 linelen = true
  | 6 => guardSkip line2 linelen = true
  | _ => False

/-- The guards as the table of R99 prints them. -/
def printedGuard (line2 : Int) (linelen : F64) (count : Nat) : Nat → Prop
  | 1 => 0 ≤ line2 ∧ F64.le (F64.ofNat 1638) linelen = true ∧ 90 < count
  | 2 => line2 = -2 ∧ F64.lt linelen (F64.ofNat 1000) = true ∧ 80 < count ∧ count < 160
  | 3 => (line2 = -2 ∨ 1040 < line2) ∧ F64.lt (F64.ofNat 1800) linelen = true ∧ count < 80
  | 4 => line2 = -4 ∧ F64.lt (F64.ofNat 1800) linelen = true ∧ 80 < count
  | 5 => 0 ≤ line2 ∧ F64.lt (F64.ofNat 800) linelen = true ∧ F64.lt linelen (F64.ofNat 1000) = true
  | 6 => 0 ≤ line2 ∧ F64.lt (F64.ofNat 1700) linelen = true
  | _ => False

/-- The outcome of each row of R99; row 7 is the last. -/
def outcomeOf : Nat → Cls
  | 1 => .active
  | 2 => .field2
  | 3 => .newframe
  | 4 => .vsync
  | 5 => .half
  | 6 => .skip
  | _ => .none

/-- PHRESYNC's test and its effect on the target (R198). -/
def resynced (line2 : Int) (target : F64) : F64 :=
  if line2 = 544 ∨ line2 = 545 then Config.ZERO else target

/-- The filtered value STEP computes for the sample at `scan_pos` (R97, R171). -/
def filtered (s : State) : F64 := directForm s.cfg.syncCoef s.sf (F64.ofCode (s.streamCode s.scanPos))

/-- SF after STEP fed it. -/
def fedSync (s : State) : FilterState := fed s.cfg.syncCoef s.sf (F64.ofCode (s.streamCode s.scanPos))

/-- STEP's preconditions: the sample is in the window and SF has been cleared (R62, R33). -/
def SampleReady (s : State) : Prop := s.inWindow s.scanPos = true ∧ s.sf.cleared = true

/-- The host's obligations of R251 for PROCESS lo, len. -/
def LawfulCall (s : State) (lo len : Nat) : Prop :=
  len ≤ s.cfg.chunkMax ∧
    match s.lastConsumed with
    | none => lo = 0
    | some consumed => s.winLo ≤ lo ∧ lo ≤ s.winLo + consumed ∧ s.winHi ≤ lo + len

/-- The value PROCESS returns from a state after its loop (R251). -/
def consumedOf (s : State) : Nat :=
  let scanned : Int := s.scanPos
  let needed : Int := if s.prevValid = true then min scanned (F64.floor s.prevCrosspoint - 8) else scanned
  (max needed s.winLo - s.winLo).toNat

/-- Up to `k` executions of STEP, while no fault is recorded and scan_pos < win_hi - LOOKAHEAD (R251); none when
a STEP answers no next state. -/
def scanned : Nat → State → Option State
  | 0, s => some s
  | k + 1, s =>
    if s.fault = none ∧ s.scanPos + s.cfg.lookahead < s.winHi then
      match exec .step s with
      | .next t => scanned k t
      | _ => none
    else some s

/-- Two states that differ at most in what names a PROCESS call: the window, the value it returned. -/
def SameButCall (s t : State) : Prop :=
  t = { s with winLo := t.winLo, winHi := t.winHi, lastConsumed := t.lastConsumed, ret := t.ret }

end Sys2Proof.Claims

section

open Sys2Proof Sys2Proof.Machine Sys2Proof.Claims

/-! ### The port, decoding and encoding -/

/-- A step runs the operation at the head of the queue, on the state without its bytes; idle with an empty queue;
a refusal by name for bytes that are no operation (R14, R266; the byte port is log entry 1's, idling log entry 16's). -/
def Obligations.StepRunsTheQueuedOperation : Prop :=
  ∀ s : State,
    (s.hostQueue = [] → step s = .next s) ∧
    (∀ i rest, decode s.hostQueue = .ok (i, rest) → step s = exec i { s with hostQueue := rest }) ∧
    (∀ e, s.hostQueue ≠ [] → decode s.hostQueue = .error e → step s = .refused (.badOperation e))

/-- A selector that R98 does not list names no operation (R100 a). -/
def Obligations.ReservedSelectorsNameNoOperation : Prop :=
  ∀ (selector : Byte) (rest : List Byte), selector ∉ assignedSelectors →
    decode (selector :: rest) = .error (.reservedSelector selector)

/-- Decoding the encoding of a well-formed operation gives it back, whatever bytes follow. -/
def Obligations.DecodeEncodeRoundTrip : Prop :=
  ∀ (i : Instr) (rest : List Byte), i.wellFormed = true → decode (encode i ++ rest) = .ok (i, rest)

/-- What the decoder accepts is well formed and is exactly the encoding of what it answers: each operation has
one byte string. -/
def Obligations.DecodedOperationsAreCanonical : Prop :=
  ∀ (bs rest : List Byte) (i : Instr), decode bs = .ok (i, rest) →
    i.wellFormed = true ∧ bs = encode i ++ rest

/-- Words of the operations decode to the operations they stand for, at least one of each family and one of each
kind of operand.  The selectors are R98's; the layout of the operands is the model's choice, for R98 gives none and
R90 says they are not packed (log entry 1). -/
def Obligations.TableWordsDecode : Prop :=
  decodeTableWord 8 0x00 = some .reset ∧
  decodeTableWord 8 0x10 = some .step ∧
  decodeTableWord 8 0x26 = some .clsNone ∧
  decodeTableWord 8 0x27 = some .phresync ∧
  decodeTableWord 8 0x32 = some .hetgen ∧
  decodeTableWord 8 0x3E = some .emit ∧
  decodeTableWord 24 0xFFFF33 = some (.s2ire 65535#16) ∧
  decodeTableWord 24 0x1BB837 = some (.burst 1820) ∧
  decodeTableWord 16 0x073B = some (.maprow (-4)) ∧
  decodeTableWord 72 0x3FF000000000000038 = some (.wrap Config.ONE) ∧
  decodeTableWord 80 0x3FF00000000000000130 = some (.fclr .fi Config.ONE) ∧
  decodeTableWord 80 0x3FE00000000000000231 = some (.ffeed .fq Config.HALF) ∧
  decodeTableWord 32 0x0500A001 = some (.process 160 5) ∧
  decodeTableWord 136 0x3FF00000000000003FE000000000000035 =
    some (.cubic Config.HALF Config.ONE Config.ZERO Config.ZERO Config.ZERO) ∧
  decodeTableWord 144 0x033FF00000000000003FE000000000000036 =
    some (.scale Config.HALF Config.ONE 4) ∧
  decodeTableWord 8 0x3F = none

/-! ### Reset, the gate, the fault -/

/-- RESET completes in every state and leaves the table of R45: every item at its value, every item without a
value refused on a read.  That the stream, the queue and the configuration stay is log entry 13's, and the fields
constructed, lastConsumed and ret are the model's own (log entries 8 and 19).  That each entry of HET is one of the two
values that enclose the exact one is the model's reading of U12 (log entry 4), and how an index k above 2^53 becomes a
real is its choice (log entry 22). -/
def Obligations.ResetLeavesTheResetTable : Prop :=
  ∀ s : State, ∃ t, exec .reset s = .next t ∧
    (t.line2 = -4 ∧ t.tgtPhase = Config.ZERO ∧ t.prevValid = false ∧ t.below = false ∧ t.count = 0 ∧
      t.fPrev = s.cfg.syncBaseline ∧ t.scanPos = 0 ∧ t.fbDirty = false ∧ t.fault = none ∧
      t.winLo = 0 ∧ t.winHi = 0 ∧ t.sink = []) ∧
    (t.readPrev = .error (.refusal (.noValue .prevCrosspoint)) ∧ t.readXpt = .error (.refusal (.noValue .xpt)) ∧
      ∀ k : Nat, k < s.cfg.scaleTgt → t.readNl k = .error (.refusal (.noValue (.nl k)))) ∧
    (t.sf.x = List.replicate s.cfg.syncCoef.b.length s.cfg.syncBaseline ∧
      t.sf.y = List.replicate s.cfg.syncCoef.a.length s.cfg.syncBaseline ∧
      t.sf.cleared = true ∧ t.fi.cleared = false ∧ t.fq.cleared = false) ∧
    (∀ row col, frameElement t.fb row col = Config.ZERO) ∧
    (t.het.length = s.cfg.hetLen ∧ ∀ k, k < s.cfg.hetLen → t.het[k]? = some (tableEntry k)) ∧
    (t.samples = s.samples ∧ t.hostQueue = s.hostQueue ∧ t.cfg = s.cfg ∧ t.constructed = true ∧
      t.lastConsumed = none ∧ t.ret = .none)

/-- While a fault is recorded every operation but RESET is refused; RESET clears it (R264 (4), R265). -/
def Obligations.FaultedBlockAcceptsOnlyReset : Prop :=
  ∀ (s : State) (i : Instr) (f : FaultRecord), s.constructed = true → s.fault = some f →
    (i ≠ .reset → exec i s = .refused .blockFaulted) ∧
    (i = .reset → ∃ t, exec i s = .next t ∧ t.fault = none)

/-- Before the first RESET every operation but RESET is refused: R281 and U1 say it of PROCESS, and that the others
are refused too is the model's reading (log entry 19). -/
def Obligations.UnconstructedBlockAcceptsOnlyReset : Prop :=
  ∀ (s : State) (i : Instr), s.constructed = false →
    (i ≠ .reset → exec i s = .refused .beforeReset) ∧
    (i = .reset → ∃ t, exec i s = .next t ∧ t.Accepts)

/-- A read of an item that has no value is refused by name: `prev_crosspoint` in DISPATCH and CLS.ACTIVE, a filter
not cleared in FFEED and in STEP, an unset `xpt` in the STEP that ends an accepted run, the least unwritten NL
element of the window of BURST and of ASMLINE (R22, R25, R33, R45); an NL index outside [0, SCALE_TGT) does not
exist (R63; the fault is the model's, log entry 15). -/
def Obligations.ReadsWithoutAValueAreRefused : Prop :=
  ∀ s : State, s.Accepts →
    (∀ xpt linelen count, s.prevValid = false →
      exec (.dispatch xpt count) s = .refused (.noValue .prevCrosspoint) ∧
        exec (.clsActive linelen count) s = .refused (.noValue .prevCrosspoint)) ∧
    (∀ f v, (s.filter f).cleared = false → exec (.ffeed f v) s = .refused (.noValue (.filter f))) ∧
    (∀ k : Nat, 140 ≤ k → k < s.cfg.scaleTgt → Cells.find s.nl k = none →
      exec (.burst ((k : Int) - 140)) s = .refused (.noValue (.nl k))) ∧
    (∀ k : Nat, s.cfg.scaleTgt ≤ k → Cells.find s.nl k = none →
      exec (.burst ((k : Int) - 140)) s = .fault (.nlAddress k)) ∧
    (∀ off : Int, off + 140 < 0 → exec (.burst off) s = .fault (.nlAddress (off + 140))) ∧
    (∀ (off : Int) (i k : Nat), off + 140 + i = k → i < 100 → s.cfg.hetIndex = .windowRelative →
      100 ≤ s.het.length → (∀ j : Nat, j < i → ∃ v, s.readNl (off + 140 + j) = .ok v) →
      Cells.find s.nl k = none →
      exec (.burst off) s =
        if k < s.cfg.scaleTgt then .refused (.noValue (.nl k)) else .fault (.nlAddress k)) ∧
    (∀ start stop row, ∀ k : Nat, rowOf s.line2 = some row → 130 ≤ k → k < 1815 →
      (∀ j : Nat, 130 ≤ j → j < k → ∃ v, s.readNl j = .ok v) → Cells.find s.nl k = none →
      exec (.asmline start stop) s =
        if k < s.cfg.scaleTgt then .refused (.noValue (.nl k)) else .fault (.nlAddress k)) ∧
    (s.inWindow s.scanPos = true → s.sf.cleared = false →
      exec .step s = .refused (.noValue (.filter .sf))) ∧
    (SampleReady s → F64.lt (filtered s) s.cfg.syncThreshold = false → s.below = true → 16 < s.count →
      s.xptValid = false → exec .step s = .refused (.noValue .xpt))

/-! ### Filters, the heterodyne table, the level codec -/

/-- FCLR sets every entry of the one delay line to the level, and its ghost bit (R121). -/
def Obligations.FclrSetsTheDelayLine : Prop :=
  ∀ (s : State) (f : FilterId) (level : F64), s.Accepts →
    exec (.fclr f level) s = .next (State.setRet (s.setFilter f
      { x := List.replicate (coefOf s.cfg f).b.length level
        y := List.replicate (coefOf s.cfg f).a.length level
        cleared := true }) .none)

/-- FFEED returns the direct-form output and shifts the one delay line (R122). -/
def Obligations.FfeedComputesTheDirectForm : Prop :=
  ∀ (s : State) (f : FilterId) (v : F64), s.Accepts → (s.filter f).cleared = true →
    exec (.ffeed f v) s = .next (State.setRet
      (s.setFilter f
        { x := (v :: (s.filter f).x).take (coefOf s.cfg f).b.length
          y := (directForm (coefOf s.cfg f) (s.filter f) v :: (s.filter f).y).take (coefOf s.cfg f).a.length
          cleared := true })
      (.real (directForm (coefOf s.cfg f) (s.filter f) v)))

/-- HETGEN writes the HET_LEN entries and nothing else: entry k is the cosine and the sine of 2·π·k/8 but for the
last bit, (1, 0) for k = 0, and within the last bit of the vectors V-HET for k up to 8 (R126, U12; that each entry
encloses the exact value is the model's reading of U12, log entry 4; an index k above 2^53 becomes a real as log
entry 22 chooses). -/
def Obligations.HetgenWritesTheTable : Prop :=
  (∀ s : State, s.Accepts → ∃ t, exec .hetgen s = .next t ∧
    t = { s with het := t.het, ret := .none } ∧ t.het.length = s.cfg.hetLen ∧
    ∀ k, k < s.cfg.hetLen → t.het[k]? = some (tableEntry k)) ∧
  tableEntry 0 = (Config.ONE, Config.ZERO) ∧
  (∀ k entry, printedTable[k]? = some entry →
    LastBitApart (tableEntry k).1 entry.1 ∧ LastBitApart (tableEntry k).2 entry.2)

/-- S2IRE returns -100 for code 0 and the affine map for the others, and changes nothing (R140). -/
def Obligations.S2ireConverts : Prop :=
  ∀ (s : State) (code : Code), s.Accepts →
    exec (.s2ire code) s = .next (s.setRet (.real
      (if code = 0#16 then F64.ofInt (-100)
       else F64.add (F64.ofInt (-40))
        (F64.mul (F64.div (F64.ofNat 160) (F64.ofNat 65533)) (F64.ofNat code.toNat)))))

/-- IRE2S returns 0, 1, 65535 or the truncated affine map, tested in the written order, and changes nothing
(R141). -/
def Obligations.Ire2sClampsAndTruncates : Prop :=
  ∀ (s : State) (ire : F64), s.Accepts →
    exec (.ire2s ire) s = .next (s.setRet (.code
      (if F64.le ire (F64.ofInt (-60)) = true then 0#16
       else if F64.le ire (F64.ofInt (-40)) = true then 1#16
       else if F64.le (F64.ofNat 120) ire = true then 65535#16
       else BitVec.ofInt 16 (F64.trunc (F64.add (F64.mul (F64.div (F64.add ire (F64.ofNat 40)) (F64.ofNat 160))
         (F64.ofNat 65534)) (F64.ofNat 1))))))

/-! ### The numerics -/

/-- The sum and the difference of two finite reals are their exact sum and difference rounded to nearest, ties to
even, when the result is finite (R10; values as counts of 2^-1074). -/
def Obligations.AdditionRoundsToNearest : Prop :=
  ∀ a b : F64, a.finite = true → b.finite = true →
    ((F64.add a b).finite = true →
      RoundedToNearest (F64.add a b) fun c => |(c.toFixed : ℝ) - (a.toFixed + b.toFixed)|) ∧
    ((F64.sub a b).finite = true →
      RoundedToNearest (F64.sub a b) fun c => |(c.toFixed : ℝ) - (a.toFixed - b.toFixed)|)

/-- `real(c)` of a sample code has exactly the code's value (R9, R91; values as counts of 2^-1074). -/
def Obligations.CodesConvertExactly : Prop :=
  ∀ code : Code, (F64.ofCode code).finite = true ∧ (F64.ofCode code).toFixed = (code.toNat : Int) * 2 ^ 1074

/-! ### The Resampler -/

/-- CUBIC returns the nested polynomial and changes nothing (R150). -/
def Obligations.CubicEvaluatesTheNestedPolynomial : Prop :=
  ∀ (s : State) (y0 y1 y2 y3 t : F64), s.Accepts →
    exec (.cubic y0 y1 y2 y3 t) s = .next (s.setRet (.real
      (let inner := F64.sub (F64.add (F64.mul (F64.ofNat 3) (F64.sub y1 y2)) y3) y0
       let middle := F64.sub (F64.add (F64.sub (F64.mul (F64.ofNat 2) y0) (F64.mul (F64.ofNat 5) y1))
         (F64.mul (F64.ofNat 4) y2)) y3
       F64.add y1 (F64.mul (F64.mul (F64.div (F64.ofNat 1) (F64.ofNat 2)) t)
         (F64.add (F64.sub y2 y0) (F64.mul t (F64.add middle (F64.mul t inner))))))))

/-- SCALE with every read in the window writes NL[0..outLen-1], each with the cubic at its position p, index
max(2, floor(p)) and fraction p - index, and nothing else (R151).  How i and outLen become reals above 2^53 is the
model's choice (log entry 22). -/
def Obligations.ScaleWritesTheResampledLine : Prop :=
  ∀ (s : State) (start stop : F64) (outLen : Nat), s.Accepts → outLen ≤ s.cfg.scaleTgt →
    (∀ i < outLen, ReadsLieInWindow s (positionOf start stop outLen i)) →
    ∃ t, exec (.scale start stop outLen) s = .next t ∧ t = { s with nl := t.nl, ret := .none } ∧
      (∀ i : Nat, i < outLen → t.readNl i = .ok (interpolated s (positionOf start stop outLen i))) ∧
      (∀ k : Int, k < 0 ∨ (outLen : Int) ≤ k → t.readNl k = s.readNl k)

/-- SCALE takes F_BOUNDS at the first read outside the window, in the order of R151 and R263: the elements before
it are written, nothing else changes but the fault register (R261, R264).  How i and outLen become reals above 2^53
is the model's choice (log entry 22). -/
def Obligations.ScaleFaultsAtTheFirstRefusedRead : Prop :=
  ∀ (s : State) (start stop : F64) (outLen i d : Nat), s.Accepts → i < outLen → i ≤ s.cfg.scaleTgt → d < 4 →
    (∀ j, j < i → ReadsLieInWindow s (positionOf start stop outLen j)) →
    (∀ e, e < d → s.inWindow (indexOf (positionOf start stop outLen i) - 1 + e) = true) →
    s.inWindow (indexOf (positionOf start stop outLen i) - 1 + d) = false →
    ∃ t, exec (.scale start stop outLen) s = .next t ∧
      t.fault = some ⟨.fBounds, indexOf (positionOf start stop outLen i) - 1 + d⟩ ∧
      t = { s with nl := t.nl, fault := t.fault, ret := .none } ∧
      (∀ j : Nat, j < i → t.readNl j = .ok (interpolated s (positionOf start stop outLen j))) ∧
      (∀ k : Int, k < 0 ∨ (i : Int) ≤ k → t.readNl k = s.readNl k)

/-- SCALE with more output elements than NL has stops by name at the first index that does not exist (R63); the
fault is the model's choice (log entry 15), and so is how j and outLen become reals above 2^53 (log entry 22). -/
def Obligations.ScaleBeyondNlStops : Prop :=
  ∀ (s : State) (start stop : F64) (outLen : Nat), s.Accepts → s.cfg.scaleTgt < outLen →
    (∀ j, j ≤ s.cfg.scaleTgt → ReadsLieInWindow s (positionOf start stop outLen j)) →
    exec (.scale start stop outLen) s = .fault (.nlAddress s.cfg.scaleTgt)

/-! ### The Burst/Phase Detector and the Phase-Correction Loop -/

/-- BURST with its window written returns the greatest magnitude twice, leaves both filters in the same state and
changes nothing else (R160, R161 a and b). -/
def Obligations.BurstMeasuresOneArmTwice : Prop :=
  ∀ (s : State) (off : Nat) (line : List F64), s.Accepts → DetectorReady s →
    (∀ i : Nat, i < 100 → s.readNl ((off + 140 + i : Nat) : Int) = .ok (line.getD (off + 140 + i) Config.ZERO)) →
    exec (.burst off) s = .next
      { s with
        fi := burstArm s.cfg (burstInput s.het line off) 100
        fq := burstArm s.cfg (burstInput s.het line off) 100
        ret := .pair (measured s line off) (measured s line off) }

/-- WRAP subtracts 2π times the rounded-up quotient, in the written order, and changes nothing (R210). -/
def Obligations.WrapSubtractsWholeTurns : Prop :=
  ∀ (s : State) (d : F64), s.Accepts →
    exec (.wrap d) s = .next (s.setRet (.real
      (F64.sub d (F64.mul twoPi (F64.ofInt (F64.ceil (F64.div (F64.sub d Config.PI) twoPi)))))))

/-- WRAP(a - a) = 0 for every finite a (R210). -/
def Obligations.WrapOfEqualAnglesIsZero : Prop :=
  ∀ (s : State) (a : F64), s.Accepts → a.finite = true →
    exec (.wrap (F64.sub a a)) s = .next (s.setRet (.real Config.ZERO))

/-- TGTUPD selects a target when it is unset and negates it otherwise, and changes nothing else (R211). -/
def Obligations.TgtupdSelectsOrNegatesTheTarget : Prop :=
  ∀ (s : State) (phase1 : F64), s.Accepts →
    exec (.tgtupd phase1) s = .next
      { s with
        tgtPhase :=
          if F64.eqv s.tgtPhase Config.ZERO = true then
            (if F64.lt minusThreeQuarterPi phase1 = true ∧ F64.lt phase1 Config.ZERO = true then minusHalfPi
             else halfPi)
          else F64.neg s.tgtPhase
        ret := .none }

/-- PCL with its three resamplings readable updates the target, nudges both bounds, leaves the final line in NL
and changes nothing else but FI and FQ (R212).  How SCALE_TGT and the output index become reals above 2^53 is the
model's choice (log entry 22). -/
def Obligations.PclCorrectsBothBounds : Prop :=
  ∀ (s : State) (start stop : F64), s.Accepts → DetectorReady s → PassesReadable s start stop →
    ∃ t, exec (.pcl start stop) s = .next t ∧
      t = { s with tgtPhase := t.tgtPhase, nl := t.nl, fi := t.fi, fq := t.fq, ret := t.ret } ∧
      t.tgtPhase = pclTarget s start stop ∧
      t.ret = .pair (pclBegin s start stop) (pclEnd s start stop) ∧
      (∀ k : Nat, k < s.cfg.scaleTgt → t.readNl k =
        .ok ((lineOf s (pclBegin s start stop) (pclEnd s start stop)).getD k Config.ZERO)) ∧
      t.fi = burstArm s.cfg (burstInput s.het (lineOf s (pclBegin s start stop) stop) 1820) 100 ∧ t.fq = t.fi

/-! ### The Line Tracker -/

/-- CLS.ACTIVE with a reference crossing and its line readable corrects the line, stores its row if it has one,
and moves to the next line (R190, R232; integers above 2^53 as reals: log entry 22). -/
def Obligations.ClsActiveDecodesOneLine : Prop :=
  ∀ (s : State) (linelen stop : F64) (count : Nat), s.Accepts → s.prevValid = true → DetectorReady s →
    stop = F64.add s.prevCrosspoint (F64.mul linelen s.cfg.ext) → PassesReadable s s.prevCrosspoint stop →
    ∃ t, exec (.clsActive linelen count) s = .next t ∧
      t = { s with line2 := t.line2, tgtPhase := t.tgtPhase, nl := t.nl, fi := t.fi, fq := t.fq, fb := t.fb,
                   fbDirty := t.fbDirty, ret := .none } ∧
      t.line2 = s.line2 + 2 ∧ t.tgtPhase = pclTarget s s.prevCrosspoint stop ∧
      (∀ k : Nat, k < s.cfg.scaleTgt → t.readNl k =
        .ok ((lineOf s (pclBegin s s.prevCrosspoint stop) (pclEnd s s.prevCrosspoint stop)).getD k Config.ZERO)) ∧
      (rowOf s.line2 = none → t.fb = s.fb ∧ t.fbDirty = s.fbDirty) ∧
      (∀ row, rowOf s.line2 = some row → t.fbDirty = true ∧
        RowWritten s.fb t.fb row fun col => storedValue s.cfg
          (levelAdjust s.cfg (pclBegin s s.prevCrosspoint stop) (pclEnd s s.prevCrosspoint stop))
          ((lineOf s (pclBegin s s.prevCrosspoint stop) (pclEnd s s.prevCrosspoint stop)).getD (130 + col)
            Config.ZERO))

/-- CLS.FIELD2, CLS.VSYNC, CLS.HALF, CLS.SKIP write `line` only; CLS.NONE writes nothing (R191, R193 to R196). -/
def Obligations.LineOutcomesWriteLineOnly : Prop :=
  ∀ s : State, s.Accepts →
    exec .clsField2 s = .next { s with line2 := 525, ret := .none } ∧
    exec .clsVsync s = .next { s with line2 := -2, ret := .none } ∧
    exec .clsHalf s = .next { s with line2 := s.line2 + 1, ret := .none } ∧
    exec .clsSkip s = .next { s with line2 := s.line2 + 2, ret := .none } ∧
    exec .clsNone s = .next { s with ret := .none }

/-- CLS.NEWFRAME emits a frame in progress, then starts a fresh one on line 1 with the target unset (R192). -/
def Obligations.NewframeEmitsAndStartsAFreshFrame : Prop :=
  ∀ s : State, s.Accepts → ∃ t, exec .clsNewframe s = .next t ∧
    t = { s with line2 := 2, tgtPhase := Config.ZERO, fbDirty := false, fb := t.fb, sink := t.sink, ret := .none } ∧
    (∀ row col, frameElement t.fb row col = Config.ZERO) ∧
    (s.fbDirty = true → t.sink = s.sink ++ [s.fb]) ∧ (s.fbDirty = false → t.sink = s.sink)

/-- PHRESYNC unsets the target when floor(line) is 272, on line 272 and 272.5, and only then (R198). -/
def Obligations.PhresyncUnsetsTheTargetOnLine272 : Prop :=
  ∀ s : State, s.Accepts →
    exec .phresync s = .next
      { s with tgtPhase := if s.line2 = 544 ∨ s.line2 = 545 then Config.ZERO else s.tgtPhase, ret := .none }

/-- The model's six guards are the printed ones, for a finite interval two of them hold together only as 1 with 6 or
3 with 6, and classify is the outcome of the least guard that holds, `none` if none does (R99). -/
def Obligations.GuardsOverlapOnlyWithSkip : Prop :=
  ∀ (line2 : Int) (linelen : F64) (count : Nat),
    (∀ g, guardHolds line2 linelen count g ↔ printedGuard line2 linelen count g) ∧
    (∀ g h, linelen.finite = true → g < h → guardHolds line2 linelen count g →
      guardHolds line2 linelen count h → (g = 1 ∨ g = 3) ∧ h = 6) ∧
    (∀ g, guardHolds line2 linelen count g → (∀ h, h < g → ¬ guardHolds line2 linelen count h) →
      classify line2 linelen count = outcomeOf g) ∧
    ((∀ g, ¬ guardHolds line2 linelen count g) → classify line2 linelen count = outcomeOf 7)

/-- DISPATCH is the outcome the table of R99 selects and then PHRESYNC, and a fault or a stop of the outcome ends
it (R99, R173, R198). -/
def Obligations.DispatchIsTheSelectedOutcomeThenResync : Prop :=
  ∀ (s : State) (xpt : F64) (count : Nat) (o : Host.Outcome State Fault Refusal), s.Accepts → s.prevValid = true →
    exec (selectedOutcome s.line2 (F64.sub xpt s.prevCrosspoint) count) s = o →
    exec (.dispatch xpt count) s =
      match o with
      | .next u => if u.fault = none then exec .phresync u else .next u
      | .fault f => .fault f
      | .refused r => .refused r

/-- DISPATCH of an interval that selects no active line completes, with the effect of each outcome and of
PHRESYNC written out (R191 to R196, R198, R173). -/
def Obligations.DispatchWithoutDecodeCompletes : Prop :=
  ∀ (s : State) (xpt : F64) (count : Nat) (o : Instr), s.Accepts → s.prevValid = true →
    o = selectedOutcome s.line2 (F64.sub xpt s.prevCrosspoint) count →
    (o = .clsField2 → exec (.dispatch xpt count) s = .next { s with line2 := 525, ret := .none }) ∧
    (o = .clsNewframe → exec (.dispatch xpt count) s = .next
      { s with line2 := 2, tgtPhase := Config.ZERO, fb := freshFrame, fbDirty := false,
               sink := if s.fbDirty = true then s.sink ++ [s.fb] else s.sink, ret := .none }) ∧
    (o = .clsVsync → exec (.dispatch xpt count) s = .next { s with line2 := -2, ret := .none }) ∧
    (o = .clsHalf → exec (.dispatch xpt count) s = .next
      { s with line2 := s.line2 + 1, tgtPhase := resynced (s.line2 + 1) s.tgtPhase, ret := .none }) ∧
    (o = .clsSkip → exec (.dispatch xpt count) s = .next
      { s with line2 := s.line2 + 2, tgtPhase := resynced (s.line2 + 2) s.tgtPhase, ret := .none }) ∧
    (o = .clsNone → exec (.dispatch xpt count) s = .next
      { s with tgtPhase := resynced s.line2 s.tgtPhase, ret := .none })

/-- DISPATCH of an active line whose samples are readable completes with no fault: the line's row is stored, `line`
moves by one, the target is the loop's unless line 272 unsets it (R173, R190, R198; integers above 2^53 as reals: log
entry 22). -/
def Obligations.DispatchOfAnActiveLineCompletes : Prop :=
  ∀ (s : State) (xpt linelen stop : F64) (count : Nat), s.Accepts → s.prevValid = true → DetectorReady s →
    linelen = F64.sub xpt s.prevCrosspoint → selectedOutcome s.line2 linelen count = .clsActive linelen count →
    stop = F64.add s.prevCrosspoint (F64.mul linelen s.cfg.ext) → PassesReadable s s.prevCrosspoint stop →
    ∃ t, exec (.dispatch xpt count) s = .next t ∧
      t = { s with line2 := t.line2, tgtPhase := t.tgtPhase, nl := t.nl, fi := t.fi, fq := t.fq, fb := t.fb,
                   fbDirty := t.fbDirty, ret := .none } ∧
      t.line2 = s.line2 + 2 ∧
      t.tgtPhase = resynced (s.line2 + 2) (pclTarget s s.prevCrosspoint stop) ∧
      (rowOf s.line2 = none → t.fb = s.fb ∧ t.fbDirty = s.fbDirty) ∧
      (∀ row, rowOf s.line2 = some row → t.fbDirty = true ∧
        RowWritten s.fb t.fb row fun col => storedValue s.cfg
          (levelAdjust s.cfg (pclBegin s s.prevCrosspoint stop) (pclEnd s s.prevCrosspoint stop))
          ((lineOf s (pclBegin s s.prevCrosspoint stop) (pclEnd s s.prevCrosspoint stop)).getD (130 + col)
            Config.ZERO))

/-! ### The Frame Assembler -/

/-- MAPROW returns the row of R230, which depends on floor(line), is below 504, and differs for different whole
lines that have one; it changes nothing. -/
def Obligations.MaprowMapsTheActiveLines : Prop :=
  (∀ (s : State) (line2 : Int), s.Accepts → exec (.maprow line2) s = .next (s.setRet (.row (rowOf line2)))) ∧
  (∀ l : Int, rowOf (2 * l + 1) = rowOf (2 * l)) ∧
  (∀ (l : Int) (row : Nat), rowOf (2 * l) = some row → row < 504) ∧
  (∀ (l m : Int) (row : Nat), rowOf (2 * l) = some row → rowOf (2 * m) = some row → l = m)

/-- LVLADJ returns (r - 1)·0.84 + 1 for r = (end - begin)/SCALE_TGT and changes nothing (R231).  How a
SCALE_TGT above 2^53 becomes a real is the model's choice (log entry 22). -/
def Obligations.LvladjComputesTheStretch : Prop :=
  ∀ (s : State) (start stop : F64), s.Accepts →
    exec (.lvladj start stop) s = .next (s.setRet (.real
      (F64.add (F64.mul (F64.sub (F64.div (F64.sub stop start) (F64.ofNat s.cfg.scaleTgt)) (F64.ofNat 1))
        Config.VEL) (F64.ofNat 1))))

/-- ASMLINE on a line with a row writes that row's 1685 columns and `fb_dirty`, every other element and everything
else as before; on a decode-only line it writes nothing (R232, R47; a SCALE_TGT above 2^53 as a real: log entry 22). -/
def Obligations.AsmlineWritesItsRow : Prop :=
  ∀ (s : State) (start stop : F64), s.Accepts →
    (rowOf s.line2 = none → exec (.asmline start stop) s = .next { s with ret := .none }) ∧
    (∀ (row : Nat) (value : Nat → F64), rowOf s.line2 = some row →
      (∀ x : Nat, 130 ≤ x → x < 1815 → s.readNl x = .ok (value x)) →
      ∃ t, exec (.asmline start stop) s = .next t ∧
        t = { s with fb := t.fb, fbDirty := true, ret := .none } ∧
        RowWritten s.fb t.fb row fun col =>
          storedValue s.cfg (levelAdjust s.cfg start stop) (value (130 + col)))

/-- EMIT appends one copy of FB to the sink and changes nothing else; byte j of element (row, col) of a frame is at
offset 8·(row·1685 + col) + j, in the byte order given; and on the wire the frame's 6 807 400 bytes, in the order the
parameter SINK_BYTE_ORDER decides, follow those already there and nothing follows them (R234, R65). -/
def Obligations.EmitAppendsTheFrame : Prop :=
  (∀ s : State, s.Accepts → exec .emit s = .next { s with sink := s.sink ++ [s.fb], ret := .none }) ∧
  (∀ (m : RealCells) (row col j : Nat), j < 8 →
    frameByte .little m (8 * (row * 1685 + col) + j) = (frameElement m row col).bits.extractLsb' (8 * j) 8 ∧
    frameByte .big m (8 * (row * 1685 + col) + j) = (frameElement m row col).bits.extractLsb' (8 * (7 - j)) 8) ∧
  (∀ s t : State, exec .emit s = .next t →
    (∀ n, n < s.sink.length * 6807400 → t.wireByte n = s.wireByte n) ∧
    (∀ row col j, row < 505 → col < 1685 → j < 8 →
      t.wireByte (s.sink.length * 6807400 + (8 * (row * 1685 + col) + j)) =
        some ((frameElement s.fb row col).bits.extractLsb' (8 * if s.cfg.sinkOrder = .little then j else 7 - j) 8)) ∧
    (∀ n, (s.sink.length + 1) * 6807400 ≤ n → t.wireByte n = none))

/-! ### The sync detector -/

/-- STEP on a readable sample completes in each case of R171 and R172 that dispatches nothing: a crossing opens a
run, a run goes on, nothing happens, a short run is discarded, the first accepted crossing becomes the reference.
How scan_pos - 1 becomes a real above 2^53 is the model's choice (log entry 22). -/
def Obligations.StepTracksOneSample : Prop :=
  ∀ s : State, s.Accepts → SampleReady s →
    (F64.lt (filtered s) s.cfg.syncThreshold = true → s.below = false →
      exec .step s = .next
        { s with
          sf := fedSync s, below := true, count := 1, xptValid := true
          xpt := F64.add (F64.ofInt ((s.scanPos : Int) - 1))
            (F64.div (F64.sub s.fPrev s.cfg.syncThreshold) (F64.sub s.fPrev (filtered s)))
          fPrev := filtered s, scanPos := s.scanPos + 1, ret := .none }) ∧
    (F64.lt (filtered s) s.cfg.syncThreshold = true → s.below = true →
      exec .step s = .next
        { s with sf := fedSync s, count := s.count + 1, fPrev := filtered s, scanPos := s.scanPos + 1,
                 ret := .none }) ∧
    (F64.lt (filtered s) s.cfg.syncThreshold = false → s.below = false →
      exec .step s = .next
        { s with sf := fedSync s, fPrev := filtered s, scanPos := s.scanPos + 1, ret := .none }) ∧
    (F64.lt (filtered s) s.cfg.syncThreshold = false → s.below = true → s.count ≤ 16 →
      exec .step s = .next
        { s with sf := fedSync s, below := false, fPrev := filtered s, scanPos := s.scanPos + 1, ret := .none }) ∧
    (F64.lt (filtered s) s.cfg.syncThreshold = false → s.below = true → 16 < s.count → s.prevValid = false →
      s.xptValid = true →
      exec .step s = .next
        { s with sf := fedSync s, below := false, prevCrosspoint := s.xpt, prevValid := true,
                 fPrev := filtered s, scanPos := s.scanPos + 1, ret := .none })

/-- STEP that completes an accepted crossing with a reference is DISPATCH of it and then the new reference; a fault
of the DISPATCH ends it there (R171, R172, R264).  That f_prev is then still the value before the STEP is the model's
reading of R264 against the order of R171 (log entry 12). -/
def Obligations.StepDispatchesAnAcceptedCrossing : Prop :=
  ∀ s u : State, s.Accepts → SampleReady s → F64.lt (filtered s) s.cfg.syncThreshold = false → s.below = true →
    16 < s.count → s.xptValid = true → s.prevValid = true →
    exec (.dispatch s.xpt s.count) { s with sf := fedSync s, below := false } = .next u →
    (u.fault = none → exec .step s = .next
      { u with prevCrosspoint := s.xpt, prevValid := true, fPrev := filtered s, scanPos := s.scanPos + 1,
               ret := .none }) ∧
    (u.fault ≠ none → exec .step s = .next u)

/-- STEP outside the window takes F_BOUNDS with the index of the sample, before any other change (R171, R264). -/
def Obligations.StepOutsideTheWindowFaults : Prop :=
  ∀ s : State, s.Accepts → s.inWindow s.scanPos = false →
    exec .step s = .next { s with fault := some ⟨.fBounds, s.scanPos⟩, ret := .none }

/-! ### PROCESS -/

/-- A PROCESS call that breaks the host's obligations of R251 is refused. -/
def Obligations.ProcessRefusesABrokenProtocol : Prop :=
  ∀ (s : State) (lo len : Nat), s.Accepts → ¬ LawfulCall s lo len →
    ∃ v, exec (.process lo len) s = .refused (.hostProtocol v)

/-- A lawful PROCESS with nothing to scan moves the window, returns retain - win_lo and changes nothing else
(R251, corner case a). -/
def Obligations.ProcessThatScansNothingCompletes : Prop :=
  ∀ (s : State) (lo len : Nat), s.Accepts → LawfulCall s lo len → lo + len ≤ s.scanPos + s.cfg.lookahead →
    exec (.process lo len) s = .next
      { s with
        winLo := lo, winHi := lo + len
        lastConsumed := some (consumedOf { s with winLo := lo, winHi := lo + len })
        ret := .consumed (consumedOf { s with winLo := lo, winHi := lo + len }) }

/-- A lawful PROCESS is the window's move and then STEP after STEP while scan_pos < win_hi - LOOKAHEAD; it returns
retain - win_lo, or ends with the fault of a STEP and returns nothing (R251, R253, R264). -/
def Obligations.ProcessIsStepsUntilTheLookahead : Prop :=
  ∀ (s u : State) (lo len k : Nat), s.Accepts → LawfulCall s lo len → lo + len ≤ s.scanPos + k →
    scanned k { s with winLo := lo, winHi := lo + len, ret := .none } = some u →
    exec (.process lo len) s =
      if u.fault = none then .next { u with lastConsumed := some (consumedOf u), ret := .consumed (consumedOf u) }
      else .next u

/-- What a PROCESS that took no fault returns is at most `len` (R251). -/
def Obligations.ConsumedIsAtMostLen : Prop :=
  ∀ (s t : State) (lo len : Nat), exec (.process lo len) s = .next t → t.fault = none → s.scanPos ≤ lo + len →
    ∃ c, t.ret = .consumed c ∧ t.lastConsumed = some c ∧ c ≤ len

/-- A STEP that takes no fault does the same in every window in which it takes none (R251 b). -/
def Obligations.StepDoesNotDependOnTheWindow : Prop :=
  ∀ (s t u : State) (lo hi : Nat), exec .step s = .next t → t.fault = none →
    exec .step { s with winLo := lo, winHi := hi } = .next u → u.fault = none →
    u = { t with winLo := lo, winHi := hi }

/-- Two lawful PROCESS calls one after the other and one call over both windows leave the same block, but for the
window and the value returned, when none takes a fault (R251 b). -/
def Obligations.ProcessIsChunkInvariant : Prop :=
  ∀ (s t u v : State) (lo len lo' len' len'' : Nat),
    exec (.process lo len) s = .next t → t.fault = none →
    exec (.process lo' len') t = .next u → u.fault = none →
    lo + len'' = lo' + len' →
    exec (.process lo len'') s = .next v → v.fault = none →
    SameButCall u v

/-! ### Invariants, frames and safety -/

/-- The invariant holds after reset. -/
def Obligations.InvHoldsAtReset : Prop := State.reset.Inv

/-- Every step keeps the invariant, whatever operation is queued: the configuration valid, the sparse memories
canonical and inside their spaces, rows 504 and above never listed, a clean FB fresh, the target legal, an open run
with its crossing, the delay lines and the table of their lengths (R21, R31, R46, R47, R63, R67, R290). -/
def Obligations.StepKeepsInv : Prop :=
  ∀ s t : State, s.Inv → step s = .next t → t.Inv

/-- From a state of the invariant that accepts operations, what the block runs by itself completes: STEP, a lawful
PROCESS, PCL on any bounds, and with a reference crossing DISPATCH and CLS.ACTIVE answer a next state, so no rule
reads an item without a value (R45). -/
def Obligations.TheBlockNeverReadsAnItemWithoutAValue : Prop :=
  ∀ s : State, s.Inv → s.Accepts →
    (∃ t, exec .step s = .next t) ∧
    (∀ lo len, LawfulCall s lo len → ∃ t, exec (.process lo len) s = .next t) ∧
    (∀ start stop, ∃ t, exec (.pcl start stop) s = .next t) ∧
    (s.prevValid = true → ∀ xpt linelen count,
      (∃ t, exec (.dispatch xpt count) s = .next t) ∧ ∃ t, exec (.clsActive linelen count) s = .next t)

/-- RESET, PROCESS, STEP and DISPATCH keep `line` in {-2, -1} or a multiple of 1/2 that is at least 1 (R46). -/
def Obligations.LineStaysLegal : Prop :=
  ∀ (s t : State) (i : Instr),
    (i = .reset ∨ i = .step ∨ (∃ lo len, i = .process lo len) ∨ ∃ xpt count, i = .dispatch xpt count) →
    LegalLine s.line2 → exec i s = .next t → LegalLine t.line2

/-- The transitions of `line` under DISPATCH from a legal line (R199): from -2 to -1 or stay; from -1 to 262.5 or 1
or stay; from a line number up by 1 or by 1/2, to 1 from above 520 only, or stay. -/
def Obligations.DispatchMovesLineAsR199Says : Prop :=
  ∀ (s t : State) (xpt : F64) (count : Nat), exec (.dispatch xpt count) s = .next t →
    (s.line2 = -4 → t.line2 = -4 ∨ t.line2 = -2) ∧
    (s.line2 = -2 → t.line2 = -2 ∨ t.line2 = 525 ∨ t.line2 = 2) ∧
    (0 ≤ s.line2 → t.line2 = s.line2 ∨ t.line2 = s.line2 + 1 ∨ t.line2 = s.line2 + 2 ∨
      (t.line2 = 2 ∧ 1040 < s.line2))

/-- No operation writes row 504 of FB (R47). -/
def Obligations.Row504IsNeverWritten : Prop :=
  ∀ (i : Instr) (s t : State) (col : Nat), exec i s = .next t → col < 1685 →
    frameElement s.fb 504 col = Config.FB_FILL → frameElement t.fb 504 col = Config.FB_FILL

/-- No operation writes the sample stream, the configuration or the host's queue (R40, R42, R60; the queue is log
entry 1's, and that RESET leaves all three is log entry 13's). -/
def Obligations.NoOperationWritesTheStream : Prop :=
  ∀ (i : Instr) (s t : State), exec i s = .next t →
    t.samples = s.samples ∧ t.cfg = s.cfg ∧ t.hostQueue = s.hostQueue ∧ ∀ n, t.streamCode n = s.streamCode n

/-- The sync detector's registers and `prev_crosspoint` move in STEP, PROCESS and RESET only, the window in PROCESS
and RESET only; a STEP moves `scan_pos` by one when it takes no fault and not at all when it takes one (R22 to R27,
R34, R264). -/
def Obligations.DetectorRegistersBelongToStep : Prop :=
  ∀ (i : Instr) (s t : State), exec i s = .next t → i ≠ .reset → (∀ lo len, i ≠ .process lo len) →
    (t.winLo = s.winLo ∧ t.winHi = s.winHi) ∧
    (i ≠ .step → t.scanPos = s.scanPos ∧ t.below = s.below ∧ t.count = s.count ∧ t.xpt = s.xpt ∧
      t.xptValid = s.xptValid ∧ t.fPrev = s.fPrev ∧ t.prevValid = s.prevValid ∧
      t.prevCrosspoint = s.prevCrosspoint) ∧
    (i = .step → (t.fault = none → t.scanPos = s.scanPos + 1) ∧ (t.fault ≠ none → t.scanPos = s.scanPos))

/-- Frames already in the sink stay: every operation but RESET only appends to it (R37). -/
def Obligations.SinkOnlyGrows : Prop :=
  ∀ (i : Instr) (s t : State), exec i s = .next t → i ≠ .reset → ∃ frames, t.sink = s.sink ++ frames

/-- A fault is taken only by SCALE, PCL, CLS.ACTIVE, DISPATCH, STEP and PROCESS, and it records an index outside
the window in force (R261). -/
def Obligations.OnlyRefusedReadsFault : Prop :=
  ∀ (i : Instr) (s t : State) (f : FaultRecord), exec i s = .next t → t.fault = some f →
    ((∃ start stop n, i = .scale start stop n) ∨ (∃ start stop, i = .pcl start stop) ∨
      (∃ linelen count, i = .clsActive linelen count) ∨ (∃ xpt count, i = .dispatch xpt count) ∨
      i = .step ∨ ∃ lo len, i = .process lo len) ∧
    f.code = .fBounds ∧ t.inWindow f.info = false ∧ t.ret = .none

/-- A fault inside STEP, DISPATCH or CLS.ACTIVE leaves the line undone: `line`, the reference crossing,
`scan_pos`, FB, `fb_dirty` and the sink as before (R264). -/
def Obligations.FaultLeavesTheLineUndone : Prop :=
  ∀ (i : Instr) (s t : State),
    (i = .step ∨ (∃ xpt count, i = .dispatch xpt count) ∨ ∃ linelen count, i = .clsActive linelen count) →
    exec i s = .next t → t.fault ≠ none →
    t.line2 = s.line2 ∧ t.prevValid = s.prevValid ∧ t.prevCrosspoint = s.prevCrosspoint ∧
      t.scanPos = s.scanPos ∧ t.fb = s.fb ∧ t.fbDirty = s.fbDirty ∧ t.sink = s.sink

/-- A sample the host delivers reads back as its code in either byte order, every other sample reads as before,
the form of the stream is kept, and the delivery does not touch the block; a sample already presented with another
code is refused (R60, R61, R66; that the host's delivery is an act of its own beside the step is log entry 20's). -/
def Obligations.DeliveredSamplesReadBack : Prop :=
  ∀ (s : State) (n : Nat) (c : Code),
    (s.winHi ≤ n ∨ s.streamCode n = c →
      ∃ t, s.hostDeliver n c = .next t ∧ t = { s with samples := t.samples } ∧ t.streamCode n = c ∧
        (∀ m, m ≠ n → t.streamCode m = s.streamCode m) ∧
        (Memory.wf s.samples = true → Memory.wf t.samples = true)) ∧
    (n < s.winHi → s.streamCode n ≠ c → s.hostDeliver n c = .refused (.hostProtocol .sampleChanged))

/-- The host issues RESET and PROCESS only, so it reaches no register, NL or HET (R66, R98).  The form of it is the
model's: issuing appends the operation's bytes to a queue, with operands of any size, and changes nothing else, and the
next step of an idle port runs it (log entries 1, 17 and 20); every other operation is refused (log entry 14). -/
def Obligations.HostIssuesOnlyResetAndProcess : Prop :=
  ∀ (s : State) (i : Instr),
    (i = .reset ∨ (∃ lo len, i = .process lo len) →
      ∃ t, s.hostIssue i = .next t ∧ t = { s with hostQueue := s.hostQueue ++ encode i } ∧
        (s.hostQueue = [] → step t = exec i s)) ∧
    (i ≠ .reset → (∀ lo len, i ≠ .process lo len) →
      s.hostIssue i = .refused (.hostProtocol .notHostOperation))

/-- The product and the quotient of two finite reals and the square root of a finite real that is not negative are
the exact ones rounded to nearest, ties to even, when the result is finite (R10; values as counts of 2^-1074). -/
def Obligations.ProductQuotientAndRootRoundToNearest : Prop :=
  ∀ a b : F64, a.finite = true → b.finite = true →
    ((F64.mul a b).finite = true →
      RoundedToNearest (F64.mul a b) fun c => |(c.toFixed : ℝ) - (a.toFixed : ℝ) * b.toFixed / 2 ^ 1074|) ∧
    (b.toFixed ≠ 0 → (F64.div a b).finite = true →
      RoundedToNearest (F64.div a b) fun c => |(c.toFixed : ℝ) - (a.toFixed : ℝ) * 2 ^ 1074 / b.toFixed|) ∧
    (0 ≤ a.toFixed → (F64.sqrt a).finite = true ∧
      RoundedToNearest (F64.sqrt a) fun c => |(c.toFixed : ℝ) - Real.sqrt ((a.toFixed : ℝ) * 2 ^ 1074)|)

end
end

