-- ==== Sys2Proof/Laws/Cells.lean ====
section
/-! SUPPORT. The sparse arrays: a read after a write, the canonical form kept by the one write there is, and
the same for frames and the SAMPLE space. -/

namespace Sys2Proof.Machine

section
variable {α : Type}

@[simp] theorem Cells.find_nil (a : Nat) : Cells.find ([] : Cells α) a = none := rfl

theorem Cells.find_cons (c : Nat × α) (m : Cells α) (a : Nat) :
    Cells.find (c :: m) a = if a = c.1 then some c.2 else Cells.find m a := rfl

theorem Cells.find_append (m m' : Cells α) (a : Nat) :
    Cells.find (m ++ m') a = (Cells.find m a).or (Cells.find m' a) := by
  induction m with
  | nil => simp
  | cons c m ih =>
    rw [List.cons_append, Cells.find_cons, Cells.find_cons, ih]
    split <;> simp

/-- A found value is listed at its index. -/
theorem Cells.mem_of_find {m : Cells α} {a : Nat} {v : α} (h : Cells.find m a = some v) : (a, v) ∈ m := by
  induction m with
  | nil => simp at h
  | cons c m ih =>
    rw [Cells.find_cons] at h
    split at h
    · rename_i e
      cases h
      simp [e]
    · exact List.mem_cons_of_mem _ (ih h)

/-- An index no entry has is not found. -/
theorem Cells.find_eq_none {m : Cells α} {a : Nat} (h : ∀ c ∈ m, c.1 ≠ a) : Cells.find m a = none := by
  cases e : Cells.find m a with
  | none => rfl
  | some v => exact absurd rfl (h _ (Cells.mem_of_find e))

/-- Filtering by index does not touch what it keeps and hides the rest. -/
theorem Cells.find_filter_index (p : Nat → Bool) (m : Cells α) (a : Nat) :
    Cells.find (m.filter fun c => p c.1) a = if p a then Cells.find m a else none := by
  induction m with
  | nil => simp
  | cons c m ih =>
    simp only [List.filter_cons, Cells.find_cons]
    by_cases e : a = c.1
    · subst e
      by_cases h : p c.1 <;> simp [h, Cells.find_cons, ih]
    · by_cases h : p c.1 <;> simp [h, Cells.find_cons, ih, e]

theorem Cells.run_index {base : Nat} {vals : List α} {c : Nat × α} (h : c ∈ Cells.run base vals) :
    base ≤ c.1 ∧ c.1 < base + vals.length := by
  induction vals generalizing base with
  | nil => simp [Cells.run] at h
  | cons v vs ih =>
    simp only [Cells.run, List.mem_cons] at h
    rcases h with rfl | h
    · simp
    · have := ih h
      simp only [List.length_cons]
      omega

theorem Cells.run_sorted (base : Nat) (vals : List α) :
    (Cells.run base vals).Pairwise fun c d => c.1 < d.1 := by
  induction vals generalizing base with
  | nil => simp [Cells.run]
  | cons v vs ih =>
    refine List.Pairwise.cons ?_ (ih _)
    intro c hc
    have := Cells.run_index hc
    simp only
    omega

/-- The value listed at an index of consecutive entries. -/
theorem Cells.find_run (base : Nat) (vals : List α) (a : Nat) :
    Cells.find (Cells.run base vals) a = if base ≤ a then vals[a - base]? else none := by
  induction vals generalizing base with
  | nil => simp [Cells.run]
  | cons v vs ih =>
    rw [Cells.run, Cells.find_cons, ih]
    by_cases e : a = base
    · subst e
      simp
    · by_cases h : base ≤ a
      · have h' : base + 1 ≤ a := by omega
        have : a - base = (a - (base + 1)) + 1 := by omega
        simp [e, h, h', this]
      · have h' : ¬ base + 1 ≤ a := by omega
        simp [e, h, h']

/-- `Cells.read` is the listed value or the fill. -/
theorem Cells.read_eq (fill : Option α) (m : Cells α) (a : Nat) :
    Cells.read fill m a = (Cells.find m a).or fill := by
  unfold Cells.read
  cases Cells.find m a <;> simp

variable [DecidableEq α]

/-- In a list with no index twice, dropping the entries equal to the fill changes no read. -/
theorem Cells.find_filter_keep (fill : Option α) {m : Cells α} (h : m.Pairwise fun c d => c.1 < d.1)
    (a : Nat) :
    ((Cells.find (m.filter (Cells.keep fill)) a).or fill) = (Cells.find m a).or fill := by
  induction m with
  | nil => simp
  | cons c m ih =>
    have hm := List.Pairwise.of_cons h
    rw [List.filter_cons, Cells.find_cons]
    by_cases e : a = c.1
    · subst e
      by_cases k : Cells.keep fill c
      · simp [k, Cells.find_cons]
      · have hnone : Cells.find (m.filter (Cells.keep fill)) c.1 = none := by
          apply Cells.find_eq_none
          intro d hd
          have := List.rel_of_pairwise_cons h (List.mem_filter.mp hd).1
          omega
        have hf : fill = some c.2 := by
          by_contra hne
          exact k (by simpa [Cells.keep] using fun hh => hne hh.symm)
        rw [if_neg k, hnone, if_pos rfl, hf]
        rfl
    · by_cases k : Cells.keep fill c
      · simp [k, Cells.find_cons, e, ih hm]
      · simp [k, e, ih hm]

/-- A read after a write: the values written, and every other index as before. -/
theorem Cells.read_write (fill : Option α) (m : Cells α) (base : Nat) (vals : List α) (a : Nat) :
    Cells.read fill (Cells.write fill m base vals) a =
      if base ≤ a ∧ a < base + vals.length then vals[a - base]? else Cells.read fill m a := by
  rw [Cells.read_eq, Cells.read_eq]
  have hrun := Cells.find_filter_keep fill (Cells.run_sorted base vals) a
  rw [Cells.find_run] at hrun
  have hlo := Cells.find_filter_index (fun i => decide (i < base)) m a
  have hhi := Cells.find_filter_index (fun i => decide (base + vals.length ≤ i)) m a
  simp only [decide_eq_true_eq] at hlo hhi
  have hidx : ∀ c ∈ (Cells.run base vals).filter (Cells.keep fill),
      base ≤ c.1 ∧ c.1 < base + vals.length :=
    fun c hc => Cells.run_index (List.mem_filter.mp hc).1
  rw [Cells.write, Cells.find_append, Cells.find_append, hlo, hhi]
  by_cases h1 : base ≤ a
  · by_cases h2 : a < base + vals.length
    · have h3 : ¬ a < base := by omega
      have h4 : ¬ base + vals.length ≤ a := by omega
      have h5 : vals[a - base]? = some (vals[a - base]'(by omega)) := List.getElem?_eq_getElem (by omega)
      simp only [h1, h2, h3, h4, if_true, if_false, and_self, Option.none_or, Option.or_none] at hrun ⊢
      rw [hrun, h5]
      simp
    · have h3 : ¬ a < base := by omega
      have h4 : base + vals.length ≤ a := by omega
      have h5 : Cells.find ((Cells.run base vals).filter (Cells.keep fill)) a = none :=
        Cells.find_eq_none fun c hc => by have := hidx c hc; omega
      simp [h2, h3, h4, h5]
  · have h3 : a < base := by omega
    have h4 : ¬ base + vals.length ≤ a := by omega
    have h5 : Cells.find ((Cells.run base vals).filter (Cells.keep fill)) a = none :=
      Cells.find_eq_none fun c hc => by have := hidx c hc; omega
    simp [h1, h3, h4, h5]

omit [DecidableEq α] in
/-- A read of an array with a fill value. -/
theorem Cells.readD_eq_read (fill : α) (m : Cells α) (a : Nat) :
    some (Cells.readD fill m a) = Cells.read (some fill) m a := by
  rw [Cells.read_eq, Cells.readD]
  cases Cells.find m a <;> simp

/-- A read after a write, in an array with a fill value. -/
theorem Cells.readD_write (fill : α) (m : Cells α) (base : Nat) (vals : List α) (a : Nat) :
    Cells.readD fill (Cells.write (some fill) m base vals) a =
      if h : base ≤ a ∧ a < base + vals.length then vals[a - base]'(by omega) else Cells.readD fill m a := by
  apply Option.some.inj
  rw [Cells.readD_eq_read, Cells.read_write]
  split
  · rename_i h
    simp [List.getElem?_eq_getElem (show a - base < vals.length by omega)]
  · rw [Cells.readD_eq_read]

/-- A read after a write, in an array without a fill value. -/
theorem Cells.find_write (m : Cells α) (base : Nat) (vals : List α) (a : Nat) :
    Cells.find (Cells.write none m base vals) a =
      if base ≤ a ∧ a < base + vals.length then vals[a - base]? else Cells.find m a := by
  have h := Cells.read_write none m base vals a
  simpa [Cells.read_eq] using h

/-- Every entry after a write is one written or one that stood outside the range. -/
theorem Cells.mem_write {fill : Option α} {m : Cells α} {base : Nat} {vals : List α} {c : Nat × α}
    (h : c ∈ Cells.write fill m base vals) :
    c ∈ m ∨ (base ≤ c.1 ∧ c.1 < base + vals.length) := by
  simp only [Cells.write, List.mem_append, List.mem_filter] at h
  rcases h with h | h | h
  · exact .inl h.1
  · exact .inr (Cells.run_index h.1)
  · exact .inl h.1

theorem Cells.wf_iff (fill : Option α) (m : Cells α) :
    Cells.wf fill m = true ↔ (m.Pairwise fun c d => c.1 < d.1) ∧ ∀ c ∈ m, Cells.keep fill c = true := by
  simp [Cells.wf]

/-- The write keeps the canonical form. -/
theorem Cells.write_wf {fill : Option α} {m : Cells α} (h : Cells.wf fill m = true) (base : Nat)
    (vals : List α) : Cells.wf fill (Cells.write fill m base vals) = true := by
  rw [Cells.wf_iff] at h ⊢
  obtain ⟨hs, hk'⟩ := h
  refine ⟨?_, ?_⟩
  · rw [Cells.write, List.pairwise_append, List.pairwise_append]
    refine ⟨hs.filter _, ⟨(Cells.run_sorted base vals).filter _, hs.filter _, ?_⟩, ?_⟩
    · intro c hc d hd
      have h1 := Cells.run_index (List.mem_filter.mp hc).1
      have h2 := (List.mem_filter.mp hd).2
      simp only [decide_eq_true_eq] at h2
      omega
    · intro c hc d hd
      have h1 := (List.mem_filter.mp hc).2
      simp only [decide_eq_true_eq] at h1
      rcases List.mem_append.mp hd with hd | hd
      · have h2 := Cells.run_index (List.mem_filter.mp hd).1
        omega
      · have h2 := (List.mem_filter.mp hd).2
        simp only [decide_eq_true_eq] at h2
        omega
  · intro c hc
    simp only [Cells.write, List.mem_append, List.mem_filter] at hc
    rcases hc with hc | hc | hc
    · exact hk' c hc.1
    · exact hc.2
    · exact hk' c hc.1

/-- Writing the same span again leaves only the last values. -/
theorem Cells.write_write (fill : Option α) (m : Cells α) (base : Nat) (vals vals' : List α)
    (h : vals.length = vals'.length) :
    Cells.write fill (Cells.write fill m base vals) base vals' = Cells.write fill m base vals' := by
  have hr : ∀ c ∈ (Cells.run base vals).filter (Cells.keep fill),
      base ≤ c.1 ∧ c.1 < base + vals.length :=
    fun c hc => Cells.run_index (List.mem_filter.mp hc).1
  have e1 : ((Cells.run base vals).filter (Cells.keep fill)).filter
      (fun c => decide (c.1 < base)) = [] := by
    rw [List.filter_eq_nil_iff]
    intro c hc
    have := hr c hc
    simp
    omega
  have e2 : ((Cells.run base vals).filter (Cells.keep fill)).filter
      (fun c => decide (base + vals'.length ≤ c.1)) = [] := by
    rw [List.filter_eq_nil_iff]
    intro c hc
    have := hr c hc
    simp
    omega
  have e3 : (m.filter fun c => decide (c.1 < base)).filter
      (fun c => decide (base + vals'.length ≤ c.1)) = [] := by
    rw [List.filter_eq_nil_iff]
    intro c hc
    have := (List.mem_filter.mp hc).2
    simp only [decide_eq_true_eq] at this
    simp
    omega
  have e4 : (m.filter fun c => decide (base + vals.length ≤ c.1)).filter
      (fun c => decide (c.1 < base)) = [] := by
    rw [List.filter_eq_nil_iff]
    intro c hc
    have := (List.mem_filter.mp hc).2
    simp only [decide_eq_true_eq] at this
    simp
    omega
  have e5 : (m.filter fun c => decide (c.1 < base)).filter (fun c => decide (c.1 < base)) =
      m.filter fun c => decide (c.1 < base) := by
    rw [List.filter_filter]
    simp
  have e6 : (m.filter fun c => decide (base + vals.length ≤ c.1)).filter
      (fun c => decide (base + vals'.length ≤ c.1)) =
      m.filter fun c => decide (base + vals'.length ≤ c.1) := by
    rw [List.filter_filter, h]
    simp
  simp only [Cells.write, List.filter_append, e1, e2, e3, e4, e5, e6, List.append_nil, List.nil_append]

end

/-! ### Frames -/

/-- A fresh frame holds FB_FILL everywhere. -/
@[simp] theorem frameElement_fresh (row col : Nat) : frameElement freshFrame row col = Config.FB_FILL := rfl

/-- Writing a row writes that row's columns and no other element (R232). -/
theorem frameElement_writeRow (m : RealCells) (row : Nat) (vals : List F64)
    (hv : vals.length = Config.FB_COLS) (row' col : Nat) (hc : col < Config.FB_COLS) :
    frameElement (writeRow m row vals) row' col =
      if row' = row then vals[col]'(by omega) else frameElement m row' col := by
  unfold frameElement writeRow
  rw [Cells.readD_write]
  have hd : Config.FB_COLS = 1685 := rfl
  unfold frameAddress
  rw [hd] at hv hc ⊢
  by_cases h : row' = row
  · subst h
    have hin : row' * 1685 + 0 ≤ row' * 1685 + col ∧ row' * 1685 + col < row' * 1685 + 0 + vals.length := by
      omega
    rw [dif_pos hin, if_pos rfl]
    congr 1
    omega
  · have hout : ¬ (row * 1685 + 0 ≤ row' * 1685 + col ∧ row' * 1685 + col < row * 1685 + 0 + vals.length) := by
      omega
    rw [dif_neg hout, if_neg h]

/-- Writing a row keeps the canonical form. -/
theorem writeRow_wf {m : RealCells} (h : Cells.wf (some Config.FB_FILL) m = true) (row : Nat)
    (vals : List F64) : Cells.wf (some Config.FB_FILL) (writeRow m row vals) = true :=
  Cells.write_wf h _ _

/-! ### The SAMPLE space -/

/-- The empty sample space, reset's, is in canonical form. -/
theorem Memory.wf_nil : Memory.wf [] = true := rfl

/-- Every write of the SAMPLE space keeps its canonical form. -/
theorem Memory.write_wf {m : Memory} (h : Memory.wf m = true) (a : Nat) (bytes : List Byte) :
    Memory.wf (Cells.write (some Memory.fill) m a bytes) = true :=
  Cells.write_wf h _ _

/-- Reset's memory is in canonical form. -/
theorem reset_samples_wf : Memory.wf State.reset.samples = true := rfl

end Sys2Proof.Machine
end

