-- ==== Sys2Proof/Laws/Codec.lean ====
section
/-! SUPPORT. The operand bytes: what the decoder reads from the bytes the encoder writes. -/

namespace Sys2Proof

@[simp] theorem leBytes_length (n v : Nat) : (leBytes n v).length = n := by
  induction n generalizing v with
  | zero => rfl
  | succ n ih => simp [leBytes, ih]

@[simp] theorem realBytes_length (a : F64) : (realBytes a).length = 8 := leBytes_length 8 a.bits.toNat

/-- The bytes spell the number's low `n` bytes. -/
theorem leNat_leBytes (n v : Nat) : leNat (leBytes n v) = v % 256 ^ n := by
  induction n generalizing v with
  | zero => simp [leBytes, leNat, Nat.mod_one]
  | succ n ih =>
    simp only [leBytes, leNat, ih, BitVec.toNat_ofNat]
    rw [show 256 ^ (n + 1) = 256 * 256 ^ n from Nat.pow_succ', Nat.mod_mul]

theorem takeBytes_append (front rest : List Byte) :
    takeBytes front.length (front ++ rest) = some (front, rest) := by
  induction front with
  | nil => rfl
  | cons b bs ih => simp [takeBytes, ih]

/-- What `takeBytes` answers is a split of its bytes at `n`. -/
theorem takeBytes_eq_some {n : Nat} {bs front rest : List Byte} (h : takeBytes n bs = some (front, rest)) :
    bs = front ++ rest ∧ front.length = n := by
  induction n generalizing bs front with
  | zero => simp [takeBytes] at h; simp [h]
  | succ n ih =>
    cases bs with
    | nil => simp [takeBytes] at h
    | cons b bs =>
      simp only [takeBytes] at h
      split at h
      · cases h
      · rename_i f r e
        cases h
        obtain ⟨h1, h2⟩ := ih e
        simp [h1, h2]

/-- Bytes are the bytes of the number they spell. -/
theorem leBytes_leNat (bs : List Byte) : leBytes bs.length (leNat bs) = bs := by
  induction bs with
  | nil => rfl
  | cons b bs ih =>
    simp only [List.length_cons, leBytes, leNat]
    have hb := b.isLt
    congr 1
    · apply BitVec.eq_of_toNat_eq
      rw [BitVec.toNat_ofNat]
      omega
    · rw [show (b.toNat + 256 * leNat bs) / 256 = leNat bs by omega, ih]

theorem leNat_lt (bs : List Byte) : leNat bs < 256 ^ bs.length := by
  induction bs with
  | nil => simp [leNat]
  | cons b bs ih =>
    have hb := b.isLt
    simp only [leNat, List.length_cons, Nat.pow_succ]
    omega

/-- Reading an integer operand gives what was written, whatever bytes follow. -/
theorem takeNat_natBytesFrom {more n : Nat} (h : n < 2 ^ (more + 1)) (rest : List Byte) :
    takeNat (natBytesFrom more n ++ rest) = some (n, rest) := by
  induction more generalizing n with
  | zero =>
    have h8 : n % 256 = n := Nat.mod_eq_of_lt (by omega)
    simp [natBytesFrom, takeNat, h8]
    omega
  | succ more ih =>
    unfold natBytesFrom
    split
    · have h8 : n % 256 = n := Nat.mod_eq_of_lt (by omega)
      simp [takeNat, h8]
      omega
    · have h8 : (128 + n % 128) % 256 = 128 + n % 128 := Nat.mod_eq_of_lt (by omega)
      have hn : n / 128 - 1 < 2 ^ (more + 1) := by rw [Nat.pow_succ] at h; omega
      simp [takeNat, h8, ih hn]
      omega

@[simp] theorem takeNat_natBytes (n : Nat) (rest : List Byte) : takeNat (natBytes n ++ rest) = some (n, rest) :=
  takeNat_natBytesFrom Nat.lt_log2_self rest

/-- Each integer has one spelling, for every bound on its length that suffices. -/
theorem eq_natBytesFrom {more n : Nat} {bs rest : List Byte} (h : takeNat bs = some (n, rest))
    (hn : n < 2 ^ (more + 1)) : bs = natBytesFrom more n ++ rest := by
  induction bs generalizing more n with
  | nil => cases h
  | cons b bs ih =>
    have hb := b.isLt
    simp only [takeNat] at h
    split at h
    · cases h
      cases more <;> simp [natBytesFrom, *]
    · split at h
      · cases h
      · rename_i high r e
        cases h
        cases more with
        | zero => omega
        | succ more =>
          have hhigh : high < 2 ^ (more + 1) := by rw [Nat.pow_succ] at hn; omega
          have hlow : 128 + (b.toNat - 128 + 128 * (high + 1)) % 128 = b.toNat := by omega
          have hrest : (b.toNat - 128 + 128 * (high + 1)) / 128 - 1 = high := by omega
          rw [natBytesFrom, if_neg (by omega), hlow, hrest, List.cons_append, ← ih e hhigh]
          simp

/-- What reading an integer operand can do: the bytes are its one spelling and the rest. -/
theorem takeNat_eq_some {n : Nat} {bs rest : List Byte} (h : takeNat bs = some (n, rest)) :
    bs = natBytes n ++ rest := eq_natBytesFrom h Nat.lt_log2_self

/-- A signed operand reads back as itself. -/
@[simp] theorem unzigzag_zigzag (i : Int) : unzigzag (zigzag i) = i := by
  unfold unzigzag zigzag
  split <;> split <;> omega

@[simp] theorem zigzag_unzigzag (n : Nat) : zigzag (unzigzag n) = n := by
  unfold unzigzag zigzag
  split <;> split <;> omega

section
variable {α : Type}

/-- Reading `n` bytes that the encoder wrote gives the number. -/
theorem withWord_leBytes (n v : Nat) (rest : List Byte) (hv : v < 256 ^ n)
    (k : Nat → List Byte → Except DecodeError α) : withWord n (leBytes n v ++ rest) k = k v rest := by
  have h := takeBytes_append (leBytes n v) rest
  rw [leBytes_length] at h
  simp only [withWord, h, leNat_leBytes, Nat.mod_eq_of_lt hv]

@[simp] theorem withReal_realBytes (a : F64) (rest : List Byte) (k : F64 → List Byte → Except DecodeError α) :
    withReal (realBytes a ++ rest) k = k a rest := by
  unfold withReal realBytes
  rw [withWord_leBytes 8 _ _ (by have := a.bits.isLt; omega)]
  simp

@[simp] theorem withNat_natBytes (n : Nat) (rest : List Byte) (k : Nat → List Byte → Except DecodeError α) :
    withNat (natBytes n ++ rest) k = k n rest := by
  simp [withNat]

@[simp] theorem withInt_intBytes (i : Int) (rest : List Byte) (k : Int → List Byte → Except DecodeError α) :
    withInt (intBytes i ++ rest) k = k i rest := by
  simp [withInt, intBytes]

@[simp] theorem withCode_leBytes (c : Code) (rest : List Byte) (k : Code → List Byte → Except DecodeError α) :
    withCode (leBytes 2 c.toNat ++ rest) k = k c rest := by
  unfold withCode
  rw [withWord_leBytes 2 _ _ (by have := c.isLt; omega)]
  simp

@[simp] theorem withFilter_filterByte (f : FilterId) (rest : List Byte)
    (k : FilterId → List Byte → Except DecodeError α) : withFilter (filterByte f :: rest) k = k f rest := by
  cases f <;> rfl

/-- What reading `n` bytes can do: hand on their number and the rest, or find too few. -/
theorem withWord_eq_ok {n : Nat} {bs : List Byte} {k : Nat → List Byte → Except DecodeError α} {v : α}
    (h : withWord n bs k = .ok v) :
    ∃ w rest, w < 256 ^ n ∧ bs = leBytes n w ++ rest ∧ k w rest = .ok v := by
  unfold withWord at h
  split at h
  · cases h
  · rename_i front rest e
    obtain ⟨h1, h2⟩ := takeBytes_eq_some e
    refine ⟨leNat front, rest, ?_, ?_, h⟩
    · rw [← h2]
      exact leNat_lt front
    · rw [← h2, leBytes_leNat, h1]

/-- What reading an integer operand can do: hand on the integer whose spelling stood there, or find too few bytes. -/
theorem withNat_eq_ok {bs : List Byte} {k : Nat → List Byte → Except DecodeError α} {v : α}
    (h : withNat bs k = .ok v) : ∃ n rest, bs = natBytes n ++ rest ∧ k n rest = .ok v := by
  unfold withNat at h
  split at h
  · cases h
  · rename_i n rest e
    exact ⟨n, rest, takeNat_eq_some e, h⟩

theorem withInt_eq_ok {bs : List Byte} {k : Int → List Byte → Except DecodeError α} {v : α}
    (h : withInt bs k = .ok v) : ∃ i rest, bs = intBytes i ++ rest ∧ k i rest = .ok v := by
  obtain ⟨n, rest, h1, h2⟩ := withNat_eq_ok h
  exact ⟨unzigzag n, rest, by simpa [intBytes] using h1, h2⟩

end

end Sys2Proof
end

