-- ==== Sys2Proof/Laws/State.lean ====
section
/-! SUPPORT. One lemma per field per named update of the state: each is true by rfl. -/

namespace Sys2Proof.Machine

/-! ### `State.setRet` -/

@[simp] theorem State.setRet_line2 (s : State) (r : Result) : (s.setRet r).line2 = s.line2 := rfl
@[simp] theorem State.setRet_tgtPhase (s : State) (r : Result) : (s.setRet r).tgtPhase = s.tgtPhase := rfl
@[simp] theorem State.setRet_prevValid (s : State) (r : Result) : (s.setRet r).prevValid = s.prevValid := rfl
@[simp] theorem State.setRet_prevCrosspoint (s : State) (r : Result) : (s.setRet r).prevCrosspoint = s.prevCrosspoint := rfl
@[simp] theorem State.setRet_below (s : State) (r : Result) : (s.setRet r).below = s.below := rfl
@[simp] theorem State.setRet_count (s : State) (r : Result) : (s.setRet r).count = s.count := rfl
@[simp] theorem State.setRet_xpt (s : State) (r : Result) : (s.setRet r).xpt = s.xpt := rfl
@[simp] theorem State.setRet_xptValid (s : State) (r : Result) : (s.setRet r).xptValid = s.xptValid := rfl
@[simp] theorem State.setRet_fPrev (s : State) (r : Result) : (s.setRet r).fPrev = s.fPrev := rfl
@[simp] theorem State.setRet_scanPos (s : State) (r : Result) : (s.setRet r).scanPos = s.scanPos := rfl
@[simp] theorem State.setRet_fbDirty (s : State) (r : Result) : (s.setRet r).fbDirty = s.fbDirty := rfl
@[simp] theorem State.setRet_fault (s : State) (r : Result) : (s.setRet r).fault = s.fault := rfl
@[simp] theorem State.setRet_sf (s : State) (r : Result) : (s.setRet r).sf = s.sf := rfl
@[simp] theorem State.setRet_fi (s : State) (r : Result) : (s.setRet r).fi = s.fi := rfl
@[simp] theorem State.setRet_fq (s : State) (r : Result) : (s.setRet r).fq = s.fq := rfl
@[simp] theorem State.setRet_winLo (s : State) (r : Result) : (s.setRet r).winLo = s.winLo := rfl
@[simp] theorem State.setRet_winHi (s : State) (r : Result) : (s.setRet r).winHi = s.winHi := rfl
@[simp] theorem State.setRet_nl (s : State) (r : Result) : (s.setRet r).nl = s.nl := rfl
@[simp] theorem State.setRet_fb (s : State) (r : Result) : (s.setRet r).fb = s.fb := rfl
@[simp] theorem State.setRet_sink (s : State) (r : Result) : (s.setRet r).sink = s.sink := rfl
@[simp] theorem State.setRet_het (s : State) (r : Result) : (s.setRet r).het = s.het := rfl
@[simp] theorem State.setRet_samples (s : State) (r : Result) : (s.setRet r).samples = s.samples := rfl
@[simp] theorem State.setRet_lastConsumed (s : State) (r : Result) : (s.setRet r).lastConsumed = s.lastConsumed := rfl
@[simp] theorem State.setRet_ret (s : State) (r : Result) : (s.setRet r).ret = r := rfl
@[simp] theorem State.setRet_hostQueue (s : State) (r : Result) : (s.setRet r).hostQueue = s.hostQueue := rfl
@[simp] theorem State.setRet_constructed (s : State) (r : Result) : (s.setRet r).constructed = s.constructed := rfl
@[simp] theorem State.setRet_cfg (s : State) (r : Result) : (s.setRet r).cfg = s.cfg := rfl

/-! ### `State.setLine2` -/

@[simp] theorem State.setLine2_line2 (s : State) (l : Int) : (s.setLine2 l).line2 = l := rfl
@[simp] theorem State.setLine2_tgtPhase (s : State) (l : Int) : (s.setLine2 l).tgtPhase = s.tgtPhase := rfl
@[simp] theorem State.setLine2_prevValid (s : State) (l : Int) : (s.setLine2 l).prevValid = s.prevValid := rfl
@[simp] theorem State.setLine2_prevCrosspoint (s : State) (l : Int) : (s.setLine2 l).prevCrosspoint = s.prevCrosspoint := rfl
@[simp] theorem State.setLine2_below (s : State) (l : Int) : (s.setLine2 l).below = s.below := rfl
@[simp] theorem State.setLine2_count (s : State) (l : Int) : (s.setLine2 l).count = s.count := rfl
@[simp] theorem State.setLine2_xpt (s : State) (l : Int) : (s.setLine2 l).xpt = s.xpt := rfl
@[simp] theorem State.setLine2_xptValid (s : State) (l : Int) : (s.setLine2 l).xptValid = s.xptValid := rfl
@[simp] theorem State.setLine2_fPrev (s : State) (l : Int) : (s.setLine2 l).fPrev = s.fPrev := rfl
@[simp] theorem State.setLine2_scanPos (s : State) (l : Int) : (s.setLine2 l).scanPos = s.scanPos := rfl
@[simp] theorem State.setLine2_fbDirty (s : State) (l : Int) : (s.setLine2 l).fbDirty = s.fbDirty := rfl
@[simp] theorem State.setLine2_fault (s : State) (l : Int) : (s.setLine2 l).fault = s.fault := rfl
@[simp] theorem State.setLine2_sf (s : State) (l : Int) : (s.setLine2 l).sf = s.sf := rfl
@[simp] theorem State.setLine2_fi (s : State) (l : Int) : (s.setLine2 l).fi = s.fi := rfl
@[simp] theorem State.setLine2_fq (s : State) (l : Int) : (s.setLine2 l).fq = s.fq := rfl
@[simp] theorem State.setLine2_winLo (s : State) (l : Int) : (s.setLine2 l).winLo = s.winLo := rfl
@[simp] theorem State.setLine2_winHi (s : State) (l : Int) : (s.setLine2 l).winHi = s.winHi := rfl
@[simp] theorem State.setLine2_nl (s : State) (l : Int) : (s.setLine2 l).nl = s.nl := rfl
@[simp] theorem State.setLine2_fb (s : State) (l : Int) : (s.setLine2 l).fb = s.fb := rfl
@[simp] theorem State.setLine2_sink (s : State) (l : Int) : (s.setLine2 l).sink = s.sink := rfl
@[simp] theorem State.setLine2_het (s : State) (l : Int) : (s.setLine2 l).het = s.het := rfl
@[simp] theorem State.setLine2_samples (s : State) (l : Int) : (s.setLine2 l).samples = s.samples := rfl
@[simp] theorem State.setLine2_lastConsumed (s : State) (l : Int) : (s.setLine2 l).lastConsumed = s.lastConsumed := rfl
@[simp] theorem State.setLine2_ret (s : State) (l : Int) : (s.setLine2 l).ret = s.ret := rfl
@[simp] theorem State.setLine2_hostQueue (s : State) (l : Int) : (s.setLine2 l).hostQueue = s.hostQueue := rfl
@[simp] theorem State.setLine2_constructed (s : State) (l : Int) : (s.setLine2 l).constructed = s.constructed := rfl
@[simp] theorem State.setLine2_cfg (s : State) (l : Int) : (s.setLine2 l).cfg = s.cfg := rfl

/-! ### `State.setTgtPhase` -/

@[simp] theorem State.setTgtPhase_line2 (s : State) (a : F64) : (s.setTgtPhase a).line2 = s.line2 := rfl
@[simp] theorem State.setTgtPhase_tgtPhase (s : State) (a : F64) : (s.setTgtPhase a).tgtPhase = a := rfl
@[simp] theorem State.setTgtPhase_prevValid (s : State) (a : F64) : (s.setTgtPhase a).prevValid = s.prevValid := rfl
@[simp] theorem State.setTgtPhase_prevCrosspoint (s : State) (a : F64) : (s.setTgtPhase a).prevCrosspoint = s.prevCrosspoint := rfl
@[simp] theorem State.setTgtPhase_below (s : State) (a : F64) : (s.setTgtPhase a).below = s.below := rfl
@[simp] theorem State.setTgtPhase_count (s : State) (a : F64) : (s.setTgtPhase a).count = s.count := rfl
@[simp] theorem State.setTgtPhase_xpt (s : State) (a : F64) : (s.setTgtPhase a).xpt = s.xpt := rfl
@[simp] theorem State.setTgtPhase_xptValid (s : State) (a : F64) : (s.setTgtPhase a).xptValid = s.xptValid := rfl
@[simp] theorem State.setTgtPhase_fPrev (s : State) (a : F64) : (s.setTgtPhase a).fPrev = s.fPrev := rfl
@[simp] theorem State.setTgtPhase_scanPos (s : State) (a : F64) : (s.setTgtPhase a).scanPos = s.scanPos := rfl
@[simp] theorem State.setTgtPhase_fbDirty (s : State) (a : F64) : (s.setTgtPhase a).fbDirty = s.fbDirty := rfl
@[simp] theorem State.setTgtPhase_fault (s : State) (a : F64) : (s.setTgtPhase a).fault = s.fault := rfl
@[simp] theorem State.setTgtPhase_sf (s : State) (a : F64) : (s.setTgtPhase a).sf = s.sf := rfl
@[simp] theorem State.setTgtPhase_fi (s : State) (a : F64) : (s.setTgtPhase a).fi = s.fi := rfl
@[simp] theorem State.setTgtPhase_fq (s : State) (a : F64) : (s.setTgtPhase a).fq = s.fq := rfl
@[simp] theorem State.setTgtPhase_winLo (s : State) (a : F64) : (s.setTgtPhase a).winLo = s.winLo := rfl
@[simp] theorem State.setTgtPhase_winHi (s : State) (a : F64) : (s.setTgtPhase a).winHi = s.winHi := rfl
@[simp] theorem State.setTgtPhase_nl (s : State) (a : F64) : (s.setTgtPhase a).nl = s.nl := rfl
@[simp] theorem State.setTgtPhase_fb (s : State) (a : F64) : (s.setTgtPhase a).fb = s.fb := rfl
@[simp] theorem State.setTgtPhase_sink (s : State) (a : F64) : (s.setTgtPhase a).sink = s.sink := rfl
@[simp] theorem State.setTgtPhase_het (s : State) (a : F64) : (s.setTgtPhase a).het = s.het := rfl
@[simp] theorem State.setTgtPhase_samples (s : State) (a : F64) : (s.setTgtPhase a).samples = s.samples := rfl
@[simp] theorem State.setTgtPhase_lastConsumed (s : State) (a : F64) : (s.setTgtPhase a).lastConsumed = s.lastConsumed := rfl
@[simp] theorem State.setTgtPhase_ret (s : State) (a : F64) : (s.setTgtPhase a).ret = s.ret := rfl
@[simp] theorem State.setTgtPhase_hostQueue (s : State) (a : F64) : (s.setTgtPhase a).hostQueue = s.hostQueue := rfl
@[simp] theorem State.setTgtPhase_constructed (s : State) (a : F64) : (s.setTgtPhase a).constructed = s.constructed := rfl
@[simp] theorem State.setTgtPhase_cfg (s : State) (a : F64) : (s.setTgtPhase a).cfg = s.cfg := rfl

/-! ### `State.setNl` -/

@[simp] theorem State.setNl_line2 (s : State) (m : RealCells) : (s.setNl m).line2 = s.line2 := rfl
@[simp] theorem State.setNl_tgtPhase (s : State) (m : RealCells) : (s.setNl m).tgtPhase = s.tgtPhase := rfl
@[simp] theorem State.setNl_prevValid (s : State) (m : RealCells) : (s.setNl m).prevValid = s.prevValid := rfl
@[simp] theorem State.setNl_prevCrosspoint (s : State) (m : RealCells) : (s.setNl m).prevCrosspoint = s.prevCrosspoint := rfl
@[simp] theorem State.setNl_below (s : State) (m : RealCells) : (s.setNl m).below = s.below := rfl
@[simp] theorem State.setNl_count (s : State) (m : RealCells) : (s.setNl m).count = s.count := rfl
@[simp] theorem State.setNl_xpt (s : State) (m : RealCells) : (s.setNl m).xpt = s.xpt := rfl
@[simp] theorem State.setNl_xptValid (s : State) (m : RealCells) : (s.setNl m).xptValid = s.xptValid := rfl
@[simp] theorem State.setNl_fPrev (s : State) (m : RealCells) : (s.setNl m).fPrev = s.fPrev := rfl
@[simp] theorem State.setNl_scanPos (s : State) (m : RealCells) : (s.setNl m).scanPos = s.scanPos := rfl
@[simp] theorem State.setNl_fbDirty (s : State) (m : RealCells) : (s.setNl m).fbDirty = s.fbDirty := rfl
@[simp] theorem State.setNl_fault (s : State) (m : RealCells) : (s.setNl m).fault = s.fault := rfl
@[simp] theorem State.setNl_sf (s : State) (m : RealCells) : (s.setNl m).sf = s.sf := rfl
@[simp] theorem State.setNl_fi (s : State) (m : RealCells) : (s.setNl m).fi = s.fi := rfl
@[simp] theorem State.setNl_fq (s : State) (m : RealCells) : (s.setNl m).fq = s.fq := rfl
@[simp] theorem State.setNl_winLo (s : State) (m : RealCells) : (s.setNl m).winLo = s.winLo := rfl
@[simp] theorem State.setNl_winHi (s : State) (m : RealCells) : (s.setNl m).winHi = s.winHi := rfl
@[simp] theorem State.setNl_nl (s : State) (m : RealCells) : (s.setNl m).nl = m := rfl
@[simp] theorem State.setNl_fb (s : State) (m : RealCells) : (s.setNl m).fb = s.fb := rfl
@[simp] theorem State.setNl_sink (s : State) (m : RealCells) : (s.setNl m).sink = s.sink := rfl
@[simp] theorem State.setNl_het (s : State) (m : RealCells) : (s.setNl m).het = s.het := rfl
@[simp] theorem State.setNl_samples (s : State) (m : RealCells) : (s.setNl m).samples = s.samples := rfl
@[simp] theorem State.setNl_lastConsumed (s : State) (m : RealCells) : (s.setNl m).lastConsumed = s.lastConsumed := rfl
@[simp] theorem State.setNl_ret (s : State) (m : RealCells) : (s.setNl m).ret = s.ret := rfl
@[simp] theorem State.setNl_hostQueue (s : State) (m : RealCells) : (s.setNl m).hostQueue = s.hostQueue := rfl
@[simp] theorem State.setNl_constructed (s : State) (m : RealCells) : (s.setNl m).constructed = s.constructed := rfl
@[simp] theorem State.setNl_cfg (s : State) (m : RealCells) : (s.setNl m).cfg = s.cfg := rfl

/-! ### `State.setFb` -/

@[simp] theorem State.setFb_line2 (s : State) (m : RealCells) : (s.setFb m).line2 = s.line2 := rfl
@[simp] theorem State.setFb_tgtPhase (s : State) (m : RealCells) : (s.setFb m).tgtPhase = s.tgtPhase := rfl
@[simp] theorem State.setFb_prevValid (s : State) (m : RealCells) : (s.setFb m).prevValid = s.prevValid := rfl
@[simp] theorem State.setFb_prevCrosspoint (s : State) (m : RealCells) : (s.setFb m).prevCrosspoint = s.prevCrosspoint := rfl
@[simp] theorem State.setFb_below (s : State) (m : RealCells) : (s.setFb m).below = s.below := rfl
@[simp] theorem State.setFb_count (s : State) (m : RealCells) : (s.setFb m).count = s.count := rfl
@[simp] theorem State.setFb_xpt (s : State) (m : RealCells) : (s.setFb m).xpt = s.xpt := rfl
@[simp] theorem State.setFb_xptValid (s : State) (m : RealCells) : (s.setFb m).xptValid = s.xptValid := rfl
@[simp] theorem State.setFb_fPrev (s : State) (m : RealCells) : (s.setFb m).fPrev = s.fPrev := rfl
@[simp] theorem State.setFb_scanPos (s : State) (m : RealCells) : (s.setFb m).scanPos = s.scanPos := rfl
@[simp] theorem State.setFb_fbDirty (s : State) (m : RealCells) : (s.setFb m).fbDirty = s.fbDirty := rfl
@[simp] theorem State.setFb_fault (s : State) (m : RealCells) : (s.setFb m).fault = s.fault := rfl
@[simp] theorem State.setFb_sf (s : State) (m : RealCells) : (s.setFb m).sf = s.sf := rfl
@[simp] theorem State.setFb_fi (s : State) (m : RealCells) : (s.setFb m).fi = s.fi := rfl
@[simp] theorem State.setFb_fq (s : State) (m : RealCells) : (s.setFb m).fq = s.fq := rfl
@[simp] theorem State.setFb_winLo (s : State) (m : RealCells) : (s.setFb m).winLo = s.winLo := rfl
@[simp] theorem State.setFb_winHi (s : State) (m : RealCells) : (s.setFb m).winHi = s.winHi := rfl
@[simp] theorem State.setFb_nl (s : State) (m : RealCells) : (s.setFb m).nl = s.nl := rfl
@[simp] theorem State.setFb_fb (s : State) (m : RealCells) : (s.setFb m).fb = m := rfl
@[simp] theorem State.setFb_sink (s : State) (m : RealCells) : (s.setFb m).sink = s.sink := rfl
@[simp] theorem State.setFb_het (s : State) (m : RealCells) : (s.setFb m).het = s.het := rfl
@[simp] theorem State.setFb_samples (s : State) (m : RealCells) : (s.setFb m).samples = s.samples := rfl
@[simp] theorem State.setFb_lastConsumed (s : State) (m : RealCells) : (s.setFb m).lastConsumed = s.lastConsumed := rfl
@[simp] theorem State.setFb_ret (s : State) (m : RealCells) : (s.setFb m).ret = s.ret := rfl
@[simp] theorem State.setFb_hostQueue (s : State) (m : RealCells) : (s.setFb m).hostQueue = s.hostQueue := rfl
@[simp] theorem State.setFb_constructed (s : State) (m : RealCells) : (s.setFb m).constructed = s.constructed := rfl
@[simp] theorem State.setFb_cfg (s : State) (m : RealCells) : (s.setFb m).cfg = s.cfg := rfl

/-! ### `State.pushFrame` -/

@[simp] theorem State.pushFrame_line2 (s : State) (m : RealCells) : (s.pushFrame m).line2 = s.line2 := rfl
@[simp] theorem State.pushFrame_tgtPhase (s : State) (m : RealCells) : (s.pushFrame m).tgtPhase = s.tgtPhase := rfl
@[simp] theorem State.pushFrame_prevValid (s : State) (m : RealCells) : (s.pushFrame m).prevValid = s.prevValid := rfl
@[simp] theorem State.pushFrame_prevCrosspoint (s : State) (m : RealCells) : (s.pushFrame m).prevCrosspoint = s.prevCrosspoint := rfl
@[simp] theorem State.pushFrame_below (s : State) (m : RealCells) : (s.pushFrame m).below = s.below := rfl
@[simp] theorem State.pushFrame_count (s : State) (m : RealCells) : (s.pushFrame m).count = s.count := rfl
@[simp] theorem State.pushFrame_xpt (s : State) (m : RealCells) : (s.pushFrame m).xpt = s.xpt := rfl
@[simp] theorem State.pushFrame_xptValid (s : State) (m : RealCells) : (s.pushFrame m).xptValid = s.xptValid := rfl
@[simp] theorem State.pushFrame_fPrev (s : State) (m : RealCells) : (s.pushFrame m).fPrev = s.fPrev := rfl
@[simp] theorem State.pushFrame_scanPos (s : State) (m : RealCells) : (s.pushFrame m).scanPos = s.scanPos := rfl
@[simp] theorem State.pushFrame_fbDirty (s : State) (m : RealCells) : (s.pushFrame m).fbDirty = s.fbDirty := rfl
@[simp] theorem State.pushFrame_fault (s : State) (m : RealCells) : (s.pushFrame m).fault = s.fault := rfl
@[simp] theorem State.pushFrame_sf (s : State) (m : RealCells) : (s.pushFrame m).sf = s.sf := rfl
@[simp] theorem State.pushFrame_fi (s : State) (m : RealCells) : (s.pushFrame m).fi = s.fi := rfl
@[simp] theorem State.pushFrame_fq (s : State) (m : RealCells) : (s.pushFrame m).fq = s.fq := rfl
@[simp] theorem State.pushFrame_winLo (s : State) (m : RealCells) : (s.pushFrame m).winLo = s.winLo := rfl
@[simp] theorem State.pushFrame_winHi (s : State) (m : RealCells) : (s.pushFrame m).winHi = s.winHi := rfl
@[simp] theorem State.pushFrame_nl (s : State) (m : RealCells) : (s.pushFrame m).nl = s.nl := rfl
@[simp] theorem State.pushFrame_fb (s : State) (m : RealCells) : (s.pushFrame m).fb = s.fb := rfl
@[simp] theorem State.pushFrame_sink (s : State) (m : RealCells) : (s.pushFrame m).sink = s.sink ++ [m] := rfl
@[simp] theorem State.pushFrame_het (s : State) (m : RealCells) : (s.pushFrame m).het = s.het := rfl
@[simp] theorem State.pushFrame_samples (s : State) (m : RealCells) : (s.pushFrame m).samples = s.samples := rfl
@[simp] theorem State.pushFrame_lastConsumed (s : State) (m : RealCells) : (s.pushFrame m).lastConsumed = s.lastConsumed := rfl
@[simp] theorem State.pushFrame_ret (s : State) (m : RealCells) : (s.pushFrame m).ret = s.ret := rfl
@[simp] theorem State.pushFrame_hostQueue (s : State) (m : RealCells) : (s.pushFrame m).hostQueue = s.hostQueue := rfl
@[simp] theorem State.pushFrame_constructed (s : State) (m : RealCells) : (s.pushFrame m).constructed = s.constructed := rfl
@[simp] theorem State.pushFrame_cfg (s : State) (m : RealCells) : (s.pushFrame m).cfg = s.cfg := rfl

/-! ### `State.setHet` -/

@[simp] theorem State.setHet_line2 (s : State) (h : List (F64 × F64)) : (s.setHet h).line2 = s.line2 := rfl
@[simp] theorem State.setHet_tgtPhase (s : State) (h : List (F64 × F64)) : (s.setHet h).tgtPhase = s.tgtPhase := rfl
@[simp] theorem State.setHet_prevValid (s : State) (h : List (F64 × F64)) : (s.setHet h).prevValid = s.prevValid := rfl
@[simp] theorem State.setHet_prevCrosspoint (s : State) (h : List (F64 × F64)) : (s.setHet h).prevCrosspoint = s.prevCrosspoint := rfl
@[simp] theorem State.setHet_below (s : State) (h : List (F64 × F64)) : (s.setHet h).below = s.below := rfl
@[simp] theorem State.setHet_count (s : State) (h : List (F64 × F64)) : (s.setHet h).count = s.count := rfl
@[simp] theorem State.setHet_xpt (s : State) (h : List (F64 × F64)) : (s.setHet h).xpt = s.xpt := rfl
@[simp] theorem State.setHet_xptValid (s : State) (h : List (F64 × F64)) : (s.setHet h).xptValid = s.xptValid := rfl
@[simp] theorem State.setHet_fPrev (s : State) (h : List (F64 × F64)) : (s.setHet h).fPrev = s.fPrev := rfl
@[simp] theorem State.setHet_scanPos (s : State) (h : List (F64 × F64)) : (s.setHet h).scanPos = s.scanPos := rfl
@[simp] theorem State.setHet_fbDirty (s : State) (h : List (F64 × F64)) : (s.setHet h).fbDirty = s.fbDirty := rfl
@[simp] theorem State.setHet_fault (s : State) (h : List (F64 × F64)) : (s.setHet h).fault = s.fault := rfl
@[simp] theorem State.setHet_sf (s : State) (h : List (F64 × F64)) : (s.setHet h).sf = s.sf := rfl
@[simp] theorem State.setHet_fi (s : State) (h : List (F64 × F64)) : (s.setHet h).fi = s.fi := rfl
@[simp] theorem State.setHet_fq (s : State) (h : List (F64 × F64)) : (s.setHet h).fq = s.fq := rfl
@[simp] theorem State.setHet_winLo (s : State) (h : List (F64 × F64)) : (s.setHet h).winLo = s.winLo := rfl
@[simp] theorem State.setHet_winHi (s : State) (h : List (F64 × F64)) : (s.setHet h).winHi = s.winHi := rfl
@[simp] theorem State.setHet_nl (s : State) (h : List (F64 × F64)) : (s.setHet h).nl = s.nl := rfl
@[simp] theorem State.setHet_fb (s : State) (h : List (F64 × F64)) : (s.setHet h).fb = s.fb := rfl
@[simp] theorem State.setHet_sink (s : State) (h : List (F64 × F64)) : (s.setHet h).sink = s.sink := rfl
@[simp] theorem State.setHet_het (s : State) (h : List (F64 × F64)) : (s.setHet h).het = h := rfl
@[simp] theorem State.setHet_samples (s : State) (h : List (F64 × F64)) : (s.setHet h).samples = s.samples := rfl
@[simp] theorem State.setHet_lastConsumed (s : State) (h : List (F64 × F64)) : (s.setHet h).lastConsumed = s.lastConsumed := rfl
@[simp] theorem State.setHet_ret (s : State) (h : List (F64 × F64)) : (s.setHet h).ret = s.ret := rfl
@[simp] theorem State.setHet_hostQueue (s : State) (h : List (F64 × F64)) : (s.setHet h).hostQueue = s.hostQueue := rfl
@[simp] theorem State.setHet_constructed (s : State) (h : List (F64 × F64)) : (s.setHet h).constructed = s.constructed := rfl
@[simp] theorem State.setHet_cfg (s : State) (h : List (F64 × F64)) : (s.setHet h).cfg = s.cfg := rfl

/-! ### `State.setWindow` -/

@[simp] theorem State.setWindow_line2 (s : State) (lo hi : Nat) : (s.setWindow lo hi).line2 = s.line2 := rfl
@[simp] theorem State.setWindow_tgtPhase (s : State) (lo hi : Nat) : (s.setWindow lo hi).tgtPhase = s.tgtPhase := rfl
@[simp] theorem State.setWindow_prevValid (s : State) (lo hi : Nat) : (s.setWindow lo hi).prevValid = s.prevValid := rfl
@[simp] theorem State.setWindow_prevCrosspoint (s : State) (lo hi : Nat) : (s.setWindow lo hi).prevCrosspoint = s.prevCrosspoint := rfl
@[simp] theorem State.setWindow_below (s : State) (lo hi : Nat) : (s.setWindow lo hi).below = s.below := rfl
@[simp] theorem State.setWindow_count (s : State) (lo hi : Nat) : (s.setWindow lo hi).count = s.count := rfl
@[simp] theorem State.setWindow_xpt (s : State) (lo hi : Nat) : (s.setWindow lo hi).xpt = s.xpt := rfl
@[simp] theorem State.setWindow_xptValid (s : State) (lo hi : Nat) : (s.setWindow lo hi).xptValid = s.xptValid := rfl
@[simp] theorem State.setWindow_fPrev (s : State) (lo hi : Nat) : (s.setWindow lo hi).fPrev = s.fPrev := rfl
@[simp] theorem State.setWindow_scanPos (s : State) (lo hi : Nat) : (s.setWindow lo hi).scanPos = s.scanPos := rfl
@[simp] theorem State.setWindow_fbDirty (s : State) (lo hi : Nat) : (s.setWindow lo hi).fbDirty = s.fbDirty := rfl
@[simp] theorem State.setWindow_fault (s : State) (lo hi : Nat) : (s.setWindow lo hi).fault = s.fault := rfl
@[simp] theorem State.setWindow_sf (s : State) (lo hi : Nat) : (s.setWindow lo hi).sf = s.sf := rfl
@[simp] theorem State.setWindow_fi (s : State) (lo hi : Nat) : (s.setWindow lo hi).fi = s.fi := rfl
@[simp] theorem State.setWindow_fq (s : State) (lo hi : Nat) : (s.setWindow lo hi).fq = s.fq := rfl
@[simp] theorem State.setWindow_winLo (s : State) (lo hi : Nat) : (s.setWindow lo hi).winLo = lo := rfl
@[simp] theorem State.setWindow_winHi (s : State) (lo hi : Nat) : (s.setWindow lo hi).winHi = hi := rfl
@[simp] theorem State.setWindow_nl (s : State) (lo hi : Nat) : (s.setWindow lo hi).nl = s.nl := rfl
@[simp] theorem State.setWindow_fb (s : State) (lo hi : Nat) : (s.setWindow lo hi).fb = s.fb := rfl
@[simp] theorem State.setWindow_sink (s : State) (lo hi : Nat) : (s.setWindow lo hi).sink = s.sink := rfl
@[simp] theorem State.setWindow_het (s : State) (lo hi : Nat) : (s.setWindow lo hi).het = s.het := rfl
@[simp] theorem State.setWindow_samples (s : State) (lo hi : Nat) : (s.setWindow lo hi).samples = s.samples := rfl
@[simp] theorem State.setWindow_lastConsumed (s : State) (lo hi : Nat) : (s.setWindow lo hi).lastConsumed = s.lastConsumed := rfl
@[simp] theorem State.setWindow_ret (s : State) (lo hi : Nat) : (s.setWindow lo hi).ret = s.ret := rfl
@[simp] theorem State.setWindow_hostQueue (s : State) (lo hi : Nat) : (s.setWindow lo hi).hostQueue = s.hostQueue := rfl
@[simp] theorem State.setWindow_constructed (s : State) (lo hi : Nat) : (s.setWindow lo hi).constructed = s.constructed := rfl
@[simp] theorem State.setWindow_cfg (s : State) (lo hi : Nat) : (s.setWindow lo hi).cfg = s.cfg := rfl

/-! ### `State.setConsumed` -/

@[simp] theorem State.setConsumed_line2 (s : State) (n : Nat) : (s.setConsumed n).line2 = s.line2 := rfl
@[simp] theorem State.setConsumed_tgtPhase (s : State) (n : Nat) : (s.setConsumed n).tgtPhase = s.tgtPhase := rfl
@[simp] theorem State.setConsumed_prevValid (s : State) (n : Nat) : (s.setConsumed n).prevValid = s.prevValid := rfl
@[simp] theorem State.setConsumed_prevCrosspoint (s : State) (n : Nat) : (s.setConsumed n).prevCrosspoint = s.prevCrosspoint := rfl
@[simp] theorem State.setConsumed_below (s : State) (n : Nat) : (s.setConsumed n).below = s.below := rfl
@[simp] theorem State.setConsumed_count (s : State) (n : Nat) : (s.setConsumed n).count = s.count := rfl
@[simp] theorem State.setConsumed_xpt (s : State) (n : Nat) : (s.setConsumed n).xpt = s.xpt := rfl
@[simp] theorem State.setConsumed_xptValid (s : State) (n : Nat) : (s.setConsumed n).xptValid = s.xptValid := rfl
@[simp] theorem State.setConsumed_fPrev (s : State) (n : Nat) : (s.setConsumed n).fPrev = s.fPrev := rfl
@[simp] theorem State.setConsumed_scanPos (s : State) (n : Nat) : (s.setConsumed n).scanPos = s.scanPos := rfl
@[simp] theorem State.setConsumed_fbDirty (s : State) (n : Nat) : (s.setConsumed n).fbDirty = s.fbDirty := rfl
@[simp] theorem State.setConsumed_fault (s : State) (n : Nat) : (s.setConsumed n).fault = s.fault := rfl
@[simp] theorem State.setConsumed_sf (s : State) (n : Nat) : (s.setConsumed n).sf = s.sf := rfl
@[simp] theorem State.setConsumed_fi (s : State) (n : Nat) : (s.setConsumed n).fi = s.fi := rfl
@[simp] theorem State.setConsumed_fq (s : State) (n : Nat) : (s.setConsumed n).fq = s.fq := rfl
@[simp] theorem State.setConsumed_winLo (s : State) (n : Nat) : (s.setConsumed n).winLo = s.winLo := rfl
@[simp] theorem State.setConsumed_winHi (s : State) (n : Nat) : (s.setConsumed n).winHi = s.winHi := rfl
@[simp] theorem State.setConsumed_nl (s : State) (n : Nat) : (s.setConsumed n).nl = s.nl := rfl
@[simp] theorem State.setConsumed_fb (s : State) (n : Nat) : (s.setConsumed n).fb = s.fb := rfl
@[simp] theorem State.setConsumed_sink (s : State) (n : Nat) : (s.setConsumed n).sink = s.sink := rfl
@[simp] theorem State.setConsumed_het (s : State) (n : Nat) : (s.setConsumed n).het = s.het := rfl
@[simp] theorem State.setConsumed_samples (s : State) (n : Nat) : (s.setConsumed n).samples = s.samples := rfl
@[simp] theorem State.setConsumed_lastConsumed (s : State) (n : Nat) : (s.setConsumed n).lastConsumed = some n := rfl
@[simp] theorem State.setConsumed_ret (s : State) (n : Nat) : (s.setConsumed n).ret = s.ret := rfl
@[simp] theorem State.setConsumed_hostQueue (s : State) (n : Nat) : (s.setConsumed n).hostQueue = s.hostQueue := rfl
@[simp] theorem State.setConsumed_constructed (s : State) (n : Nat) : (s.setConsumed n).constructed = s.constructed := rfl
@[simp] theorem State.setConsumed_cfg (s : State) (n : Nat) : (s.setConsumed n).cfg = s.cfg := rfl

/-! ### `State.setQueue` -/

@[simp] theorem State.setQueue_line2 (s : State) (q : List Byte) : (s.setQueue q).line2 = s.line2 := rfl
@[simp] theorem State.setQueue_tgtPhase (s : State) (q : List Byte) : (s.setQueue q).tgtPhase = s.tgtPhase := rfl
@[simp] theorem State.setQueue_prevValid (s : State) (q : List Byte) : (s.setQueue q).prevValid = s.prevValid := rfl
@[simp] theorem State.setQueue_prevCrosspoint (s : State) (q : List Byte) : (s.setQueue q).prevCrosspoint = s.prevCrosspoint := rfl
@[simp] theorem State.setQueue_below (s : State) (q : List Byte) : (s.setQueue q).below = s.below := rfl
@[simp] theorem State.setQueue_count (s : State) (q : List Byte) : (s.setQueue q).count = s.count := rfl
@[simp] theorem State.setQueue_xpt (s : State) (q : List Byte) : (s.setQueue q).xpt = s.xpt := rfl
@[simp] theorem State.setQueue_xptValid (s : State) (q : List Byte) : (s.setQueue q).xptValid = s.xptValid := rfl
@[simp] theorem State.setQueue_fPrev (s : State) (q : List Byte) : (s.setQueue q).fPrev = s.fPrev := rfl
@[simp] theorem State.setQueue_scanPos (s : State) (q : List Byte) : (s.setQueue q).scanPos = s.scanPos := rfl
@[simp] theorem State.setQueue_fbDirty (s : State) (q : List Byte) : (s.setQueue q).fbDirty = s.fbDirty := rfl
@[simp] theorem State.setQueue_fault (s : State) (q : List Byte) : (s.setQueue q).fault = s.fault := rfl
@[simp] theorem State.setQueue_sf (s : State) (q : List Byte) : (s.setQueue q).sf = s.sf := rfl
@[simp] theorem State.setQueue_fi (s : State) (q : List Byte) : (s.setQueue q).fi = s.fi := rfl
@[simp] theorem State.setQueue_fq (s : State) (q : List Byte) : (s.setQueue q).fq = s.fq := rfl
@[simp] theorem State.setQueue_winLo (s : State) (q : List Byte) : (s.setQueue q).winLo = s.winLo := rfl
@[simp] theorem State.setQueue_winHi (s : State) (q : List Byte) : (s.setQueue q).winHi = s.winHi := rfl
@[simp] theorem State.setQueue_nl (s : State) (q : List Byte) : (s.setQueue q).nl = s.nl := rfl
@[simp] theorem State.setQueue_fb (s : State) (q : List Byte) : (s.setQueue q).fb = s.fb := rfl
@[simp] theorem State.setQueue_sink (s : State) (q : List Byte) : (s.setQueue q).sink = s.sink := rfl
@[simp] theorem State.setQueue_het (s : State) (q : List Byte) : (s.setQueue q).het = s.het := rfl
@[simp] theorem State.setQueue_samples (s : State) (q : List Byte) : (s.setQueue q).samples = s.samples := rfl
@[simp] theorem State.setQueue_lastConsumed (s : State) (q : List Byte) : (s.setQueue q).lastConsumed = s.lastConsumed := rfl
@[simp] theorem State.setQueue_ret (s : State) (q : List Byte) : (s.setQueue q).ret = s.ret := rfl
@[simp] theorem State.setQueue_hostQueue (s : State) (q : List Byte) : (s.setQueue q).hostQueue = q := rfl
@[simp] theorem State.setQueue_constructed (s : State) (q : List Byte) : (s.setQueue q).constructed = s.constructed := rfl
@[simp] theorem State.setQueue_cfg (s : State) (q : List Byte) : (s.setQueue q).cfg = s.cfg := rfl

/-! ### `State.setSamples` -/

@[simp] theorem State.setSamples_line2 (s : State) (m : Memory) : (s.setSamples m).line2 = s.line2 := rfl
@[simp] theorem State.setSamples_tgtPhase (s : State) (m : Memory) : (s.setSamples m).tgtPhase = s.tgtPhase := rfl
@[simp] theorem State.setSamples_prevValid (s : State) (m : Memory) : (s.setSamples m).prevValid = s.prevValid := rfl
@[simp] theorem State.setSamples_prevCrosspoint (s : State) (m : Memory) : (s.setSamples m).prevCrosspoint = s.prevCrosspoint := rfl
@[simp] theorem State.setSamples_below (s : State) (m : Memory) : (s.setSamples m).below = s.below := rfl
@[simp] theorem State.setSamples_count (s : State) (m : Memory) : (s.setSamples m).count = s.count := rfl
@[simp] theorem State.setSamples_xpt (s : State) (m : Memory) : (s.setSamples m).xpt = s.xpt := rfl
@[simp] theorem State.setSamples_xptValid (s : State) (m : Memory) : (s.setSamples m).xptValid = s.xptValid := rfl
@[simp] theorem State.setSamples_fPrev (s : State) (m : Memory) : (s.setSamples m).fPrev = s.fPrev := rfl
@[simp] theorem State.setSamples_scanPos (s : State) (m : Memory) : (s.setSamples m).scanPos = s.scanPos := rfl
@[simp] theorem State.setSamples_fbDirty (s : State) (m : Memory) : (s.setSamples m).fbDirty = s.fbDirty := rfl
@[simp] theorem State.setSamples_fault (s : State) (m : Memory) : (s.setSamples m).fault = s.fault := rfl
@[simp] theorem State.setSamples_sf (s : State) (m : Memory) : (s.setSamples m).sf = s.sf := rfl
@[simp] theorem State.setSamples_fi (s : State) (m : Memory) : (s.setSamples m).fi = s.fi := rfl
@[simp] theorem State.setSamples_fq (s : State) (m : Memory) : (s.setSamples m).fq = s.fq := rfl
@[simp] theorem State.setSamples_winLo (s : State) (m : Memory) : (s.setSamples m).winLo = s.winLo := rfl
@[simp] theorem State.setSamples_winHi (s : State) (m : Memory) : (s.setSamples m).winHi = s.winHi := rfl
@[simp] theorem State.setSamples_nl (s : State) (m : Memory) : (s.setSamples m).nl = s.nl := rfl
@[simp] theorem State.setSamples_fb (s : State) (m : Memory) : (s.setSamples m).fb = s.fb := rfl
@[simp] theorem State.setSamples_sink (s : State) (m : Memory) : (s.setSamples m).sink = s.sink := rfl
@[simp] theorem State.setSamples_het (s : State) (m : Memory) : (s.setSamples m).het = s.het := rfl
@[simp] theorem State.setSamples_samples (s : State) (m : Memory) : (s.setSamples m).samples = m := rfl
@[simp] theorem State.setSamples_lastConsumed (s : State) (m : Memory) : (s.setSamples m).lastConsumed = s.lastConsumed := rfl
@[simp] theorem State.setSamples_ret (s : State) (m : Memory) : (s.setSamples m).ret = s.ret := rfl
@[simp] theorem State.setSamples_hostQueue (s : State) (m : Memory) : (s.setSamples m).hostQueue = s.hostQueue := rfl
@[simp] theorem State.setSamples_constructed (s : State) (m : Memory) : (s.setSamples m).constructed = s.constructed := rfl
@[simp] theorem State.setSamples_cfg (s : State) (m : Memory) : (s.setSamples m).cfg = s.cfg := rfl

/-! ### `State.raise` -/

@[simp] theorem State.raise_line2 (s : State) (n : Nat) : (s.raise n).line2 = s.line2 := rfl
@[simp] theorem State.raise_tgtPhase (s : State) (n : Nat) : (s.raise n).tgtPhase = s.tgtPhase := rfl
@[simp] theorem State.raise_prevValid (s : State) (n : Nat) : (s.raise n).prevValid = s.prevValid := rfl
@[simp] theorem State.raise_prevCrosspoint (s : State) (n : Nat) : (s.raise n).prevCrosspoint = s.prevCrosspoint := rfl
@[simp] theorem State.raise_below (s : State) (n : Nat) : (s.raise n).below = s.below := rfl
@[simp] theorem State.raise_count (s : State) (n : Nat) : (s.raise n).count = s.count := rfl
@[simp] theorem State.raise_xpt (s : State) (n : Nat) : (s.raise n).xpt = s.xpt := rfl
@[simp] theorem State.raise_xptValid (s : State) (n : Nat) : (s.raise n).xptValid = s.xptValid := rfl
@[simp] theorem State.raise_fPrev (s : State) (n : Nat) : (s.raise n).fPrev = s.fPrev := rfl
@[simp] theorem State.raise_scanPos (s : State) (n : Nat) : (s.raise n).scanPos = s.scanPos := rfl
@[simp] theorem State.raise_fbDirty (s : State) (n : Nat) : (s.raise n).fbDirty = s.fbDirty := rfl
@[simp] theorem State.raise_fault (s : State) (n : Nat) : (s.raise n).fault = some ⟨.fBounds, n⟩ := rfl
@[simp] theorem State.raise_sf (s : State) (n : Nat) : (s.raise n).sf = s.sf := rfl
@[simp] theorem State.raise_fi (s : State) (n : Nat) : (s.raise n).fi = s.fi := rfl
@[simp] theorem State.raise_fq (s : State) (n : Nat) : (s.raise n).fq = s.fq := rfl
@[simp] theorem State.raise_winLo (s : State) (n : Nat) : (s.raise n).winLo = s.winLo := rfl
@[simp] theorem State.raise_winHi (s : State) (n : Nat) : (s.raise n).winHi = s.winHi := rfl
@[simp] theorem State.raise_nl (s : State) (n : Nat) : (s.raise n).nl = s.nl := rfl
@[simp] theorem State.raise_fb (s : State) (n : Nat) : (s.raise n).fb = s.fb := rfl
@[simp] theorem State.raise_sink (s : State) (n : Nat) : (s.raise n).sink = s.sink := rfl
@[simp] theorem State.raise_het (s : State) (n : Nat) : (s.raise n).het = s.het := rfl
@[simp] theorem State.raise_samples (s : State) (n : Nat) : (s.raise n).samples = s.samples := rfl
@[simp] theorem State.raise_lastConsumed (s : State) (n : Nat) : (s.raise n).lastConsumed = s.lastConsumed := rfl
@[simp] theorem State.raise_ret (s : State) (n : Nat) : (s.raise n).ret = s.ret := rfl
@[simp] theorem State.raise_hostQueue (s : State) (n : Nat) : (s.raise n).hostQueue = s.hostQueue := rfl
@[simp] theorem State.raise_constructed (s : State) (n : Nat) : (s.raise n).constructed = s.constructed := rfl
@[simp] theorem State.raise_cfg (s : State) (n : Nat) : (s.raise n).cfg = s.cfg := rfl

/-! ### `State.openRun` -/

@[simp] theorem State.openRun_line2 (s : State) (x : F64) : (s.openRun x).line2 = s.line2 := rfl
@[simp] theorem State.openRun_tgtPhase (s : State) (x : F64) : (s.openRun x).tgtPhase = s.tgtPhase := rfl
@[simp] theorem State.openRun_prevValid (s : State) (x : F64) : (s.openRun x).prevValid = s.prevValid := rfl
@[simp] theorem State.openRun_prevCrosspoint (s : State) (x : F64) : (s.openRun x).prevCrosspoint = s.prevCrosspoint := rfl
@[simp] theorem State.openRun_below (s : State) (x : F64) : (s.openRun x).below = true := rfl
@[simp] theorem State.openRun_count (s : State) (x : F64) : (s.openRun x).count = 1 := rfl
@[simp] theorem State.openRun_xpt (s : State) (x : F64) : (s.openRun x).xpt = x := rfl
@[simp] theorem State.openRun_xptValid (s : State) (x : F64) : (s.openRun x).xptValid = true := rfl
@[simp] theorem State.openRun_fPrev (s : State) (x : F64) : (s.openRun x).fPrev = s.fPrev := rfl
@[simp] theorem State.openRun_scanPos (s : State) (x : F64) : (s.openRun x).scanPos = s.scanPos := rfl
@[simp] theorem State.openRun_fbDirty (s : State) (x : F64) : (s.openRun x).fbDirty = s.fbDirty := rfl
@[simp] theorem State.openRun_fault (s : State) (x : F64) : (s.openRun x).fault = s.fault := rfl
@[simp] theorem State.openRun_sf (s : State) (x : F64) : (s.openRun x).sf = s.sf := rfl
@[simp] theorem State.openRun_fi (s : State) (x : F64) : (s.openRun x).fi = s.fi := rfl
@[simp] theorem State.openRun_fq (s : State) (x : F64) : (s.openRun x).fq = s.fq := rfl
@[simp] theorem State.openRun_winLo (s : State) (x : F64) : (s.openRun x).winLo = s.winLo := rfl
@[simp] theorem State.openRun_winHi (s : State) (x : F64) : (s.openRun x).winHi = s.winHi := rfl
@[simp] theorem State.openRun_nl (s : State) (x : F64) : (s.openRun x).nl = s.nl := rfl
@[simp] theorem State.openRun_fb (s : State) (x : F64) : (s.openRun x).fb = s.fb := rfl
@[simp] theorem State.openRun_sink (s : State) (x : F64) : (s.openRun x).sink = s.sink := rfl
@[simp] theorem State.openRun_het (s : State) (x : F64) : (s.openRun x).het = s.het := rfl
@[simp] theorem State.openRun_samples (s : State) (x : F64) : (s.openRun x).samples = s.samples := rfl
@[simp] theorem State.openRun_lastConsumed (s : State) (x : F64) : (s.openRun x).lastConsumed = s.lastConsumed := rfl
@[simp] theorem State.openRun_ret (s : State) (x : F64) : (s.openRun x).ret = s.ret := rfl
@[simp] theorem State.openRun_hostQueue (s : State) (x : F64) : (s.openRun x).hostQueue = s.hostQueue := rfl
@[simp] theorem State.openRun_constructed (s : State) (x : F64) : (s.openRun x).constructed = s.constructed := rfl
@[simp] theorem State.openRun_cfg (s : State) (x : F64) : (s.openRun x).cfg = s.cfg := rfl

/-! ### `State.extendRun` -/

@[simp] theorem State.extendRun_line2 (s : State) : s.extendRun.line2 = s.line2 := rfl
@[simp] theorem State.extendRun_tgtPhase (s : State) : s.extendRun.tgtPhase = s.tgtPhase := rfl
@[simp] theorem State.extendRun_prevValid (s : State) : s.extendRun.prevValid = s.prevValid := rfl
@[simp] theorem State.extendRun_prevCrosspoint (s : State) : s.extendRun.prevCrosspoint = s.prevCrosspoint := rfl
@[simp] theorem State.extendRun_below (s : State) : s.extendRun.below = s.below := rfl
@[simp] theorem State.extendRun_count (s : State) : s.extendRun.count = s.count + 1 := rfl
@[simp] theorem State.extendRun_xpt (s : State) : s.extendRun.xpt = s.xpt := rfl
@[simp] theorem State.extendRun_xptValid (s : State) : s.extendRun.xptValid = s.xptValid := rfl
@[simp] theorem State.extendRun_fPrev (s : State) : s.extendRun.fPrev = s.fPrev := rfl
@[simp] theorem State.extendRun_scanPos (s : State) : s.extendRun.scanPos = s.scanPos := rfl
@[simp] theorem State.extendRun_fbDirty (s : State) : s.extendRun.fbDirty = s.fbDirty := rfl
@[simp] theorem State.extendRun_fault (s : State) : s.extendRun.fault = s.fault := rfl
@[simp] theorem State.extendRun_sf (s : State) : s.extendRun.sf = s.sf := rfl
@[simp] theorem State.extendRun_fi (s : State) : s.extendRun.fi = s.fi := rfl
@[simp] theorem State.extendRun_fq (s : State) : s.extendRun.fq = s.fq := rfl
@[simp] theorem State.extendRun_winLo (s : State) : s.extendRun.winLo = s.winLo := rfl
@[simp] theorem State.extendRun_winHi (s : State) : s.extendRun.winHi = s.winHi := rfl
@[simp] theorem State.extendRun_nl (s : State) : s.extendRun.nl = s.nl := rfl
@[simp] theorem State.extendRun_fb (s : State) : s.extendRun.fb = s.fb := rfl
@[simp] theorem State.extendRun_sink (s : State) : s.extendRun.sink = s.sink := rfl
@[simp] theorem State.extendRun_het (s : State) : s.extendRun.het = s.het := rfl
@[simp] theorem State.extendRun_samples (s : State) : s.extendRun.samples = s.samples := rfl
@[simp] theorem State.extendRun_lastConsumed (s : State) : s.extendRun.lastConsumed = s.lastConsumed := rfl
@[simp] theorem State.extendRun_ret (s : State) : s.extendRun.ret = s.ret := rfl
@[simp] theorem State.extendRun_hostQueue (s : State) : s.extendRun.hostQueue = s.hostQueue := rfl
@[simp] theorem State.extendRun_constructed (s : State) : s.extendRun.constructed = s.constructed := rfl
@[simp] theorem State.extendRun_cfg (s : State) : s.extendRun.cfg = s.cfg := rfl

/-! ### `State.closeRun` -/

@[simp] theorem State.closeRun_line2 (s : State) : s.closeRun.line2 = s.line2 := rfl
@[simp] theorem State.closeRun_tgtPhase (s : State) : s.closeRun.tgtPhase = s.tgtPhase := rfl
@[simp] theorem State.closeRun_prevValid (s : State) : s.closeRun.prevValid = s.prevValid := rfl
@[simp] theorem State.closeRun_prevCrosspoint (s : State) : s.closeRun.prevCrosspoint = s.prevCrosspoint := rfl
@[simp] theorem State.closeRun_below (s : State) : s.closeRun.below = false := rfl
@[simp] theorem State.closeRun_count (s : State) : s.closeRun.count = s.count := rfl
@[simp] theorem State.closeRun_xpt (s : State) : s.closeRun.xpt = s.xpt := rfl
@[simp] theorem State.closeRun_xptValid (s : State) : s.closeRun.xptValid = s.xptValid := rfl
@[simp] theorem State.closeRun_fPrev (s : State) : s.closeRun.fPrev = s.fPrev := rfl
@[simp] theorem State.closeRun_scanPos (s : State) : s.closeRun.scanPos = s.scanPos := rfl
@[simp] theorem State.closeRun_fbDirty (s : State) : s.closeRun.fbDirty = s.fbDirty := rfl
@[simp] theorem State.closeRun_fault (s : State) : s.closeRun.fault = s.fault := rfl
@[simp] theorem State.closeRun_sf (s : State) : s.closeRun.sf = s.sf := rfl
@[simp] theorem State.closeRun_fi (s : State) : s.closeRun.fi = s.fi := rfl
@[simp] theorem State.closeRun_fq (s : State) : s.closeRun.fq = s.fq := rfl
@[simp] theorem State.closeRun_winLo (s : State) : s.closeRun.winLo = s.winLo := rfl
@[simp] theorem State.closeRun_winHi (s : State) : s.closeRun.winHi = s.winHi := rfl
@[simp] theorem State.closeRun_nl (s : State) : s.closeRun.nl = s.nl := rfl
@[simp] theorem State.closeRun_fb (s : State) : s.closeRun.fb = s.fb := rfl
@[simp] theorem State.closeRun_sink (s : State) : s.closeRun.sink = s.sink := rfl
@[simp] theorem State.closeRun_het (s : State) : s.closeRun.het = s.het := rfl
@[simp] theorem State.closeRun_samples (s : State) : s.closeRun.samples = s.samples := rfl
@[simp] theorem State.closeRun_lastConsumed (s : State) : s.closeRun.lastConsumed = s.lastConsumed := rfl
@[simp] theorem State.closeRun_ret (s : State) : s.closeRun.ret = s.ret := rfl
@[simp] theorem State.closeRun_hostQueue (s : State) : s.closeRun.hostQueue = s.hostQueue := rfl
@[simp] theorem State.closeRun_constructed (s : State) : s.closeRun.constructed = s.constructed := rfl
@[simp] theorem State.closeRun_cfg (s : State) : s.closeRun.cfg = s.cfg := rfl

/-! ### `State.acceptCrossing` -/

@[simp] theorem State.acceptCrossing_line2 (s : State) (x : F64) : (s.acceptCrossing x).line2 = s.line2 := rfl
@[simp] theorem State.acceptCrossing_tgtPhase (s : State) (x : F64) : (s.acceptCrossing x).tgtPhase = s.tgtPhase := rfl
@[simp] theorem State.acceptCrossing_prevValid (s : State) (x : F64) : (s.acceptCrossing x).prevValid = true := rfl
@[simp] theorem State.acceptCrossing_prevCrosspoint (s : State) (x : F64) : (s.acceptCrossing x).prevCrosspoint = x := rfl
@[simp] theorem State.acceptCrossing_below (s : State) (x : F64) : (s.acceptCrossing x).below = s.below := rfl
@[simp] theorem State.acceptCrossing_count (s : State) (x : F64) : (s.acceptCrossing x).count = s.count := rfl
@[simp] theorem State.acceptCrossing_xpt (s : State) (x : F64) : (s.acceptCrossing x).xpt = s.xpt := rfl
@[simp] theorem State.acceptCrossing_xptValid (s : State) (x : F64) : (s.acceptCrossing x).xptValid = s.xptValid := rfl
@[simp] theorem State.acceptCrossing_fPrev (s : State) (x : F64) : (s.acceptCrossing x).fPrev = s.fPrev := rfl
@[simp] theorem State.acceptCrossing_scanPos (s : State) (x : F64) : (s.acceptCrossing x).scanPos = s.scanPos := rfl
@[simp] theorem State.acceptCrossing_fbDirty (s : State) (x : F64) : (s.acceptCrossing x).fbDirty = s.fbDirty := rfl
@[simp] theorem State.acceptCrossing_fault (s : State) (x : F64) : (s.acceptCrossing x).fault = s.fault := rfl
@[simp] theorem State.acceptCrossing_sf (s : State) (x : F64) : (s.acceptCrossing x).sf = s.sf := rfl
@[simp] theorem State.acceptCrossing_fi (s : State) (x : F64) : (s.acceptCrossing x).fi = s.fi := rfl
@[simp] theorem State.acceptCrossing_fq (s : State) (x : F64) : (s.acceptCrossing x).fq = s.fq := rfl
@[simp] theorem State.acceptCrossing_winLo (s : State) (x : F64) : (s.acceptCrossing x).winLo = s.winLo := rfl
@[simp] theorem State.acceptCrossing_winHi (s : State) (x : F64) : (s.acceptCrossing x).winHi = s.winHi := rfl
@[simp] theorem State.acceptCrossing_nl (s : State) (x : F64) : (s.acceptCrossing x).nl = s.nl := rfl
@[simp] theorem State.acceptCrossing_fb (s : State) (x : F64) : (s.acceptCrossing x).fb = s.fb := rfl
@[simp] theorem State.acceptCrossing_sink (s : State) (x : F64) : (s.acceptCrossing x).sink = s.sink := rfl
@[simp] theorem State.acceptCrossing_het (s : State) (x : F64) : (s.acceptCrossing x).het = s.het := rfl
@[simp] theorem State.acceptCrossing_samples (s : State) (x : F64) : (s.acceptCrossing x).samples = s.samples := rfl
@[simp] theorem State.acceptCrossing_lastConsumed (s : State) (x : F64) : (s.acceptCrossing x).lastConsumed = s.lastConsumed := rfl
@[simp] theorem State.acceptCrossing_ret (s : State) (x : F64) : (s.acceptCrossing x).ret = s.ret := rfl
@[simp] theorem State.acceptCrossing_hostQueue (s : State) (x : F64) : (s.acceptCrossing x).hostQueue = s.hostQueue := rfl
@[simp] theorem State.acceptCrossing_constructed (s : State) (x : F64) : (s.acceptCrossing x).constructed = s.constructed := rfl
@[simp] theorem State.acceptCrossing_cfg (s : State) (x : F64) : (s.acceptCrossing x).cfg = s.cfg := rfl

/-! ### `State.advanceScan` -/

@[simp] theorem State.advanceScan_line2 (s : State) (f : F64) (n : Nat) : (s.advanceScan f n).line2 = s.line2 := rfl
@[simp] theorem State.advanceScan_tgtPhase (s : State) (f : F64) (n : Nat) : (s.advanceScan f n).tgtPhase = s.tgtPhase := rfl
@[simp] theorem State.advanceScan_prevValid (s : State) (f : F64) (n : Nat) : (s.advanceScan f n).prevValid = s.prevValid := rfl
@[simp] theorem State.advanceScan_prevCrosspoint (s : State) (f : F64) (n : Nat) : (s.advanceScan f n).prevCrosspoint = s.prevCrosspoint := rfl
@[simp] theorem State.advanceScan_below (s : State) (f : F64) (n : Nat) : (s.advanceScan f n).below = s.below := rfl
@[simp] theorem State.advanceScan_count (s : State) (f : F64) (n : Nat) : (s.advanceScan f n).count = s.count := rfl
@[simp] theorem State.advanceScan_xpt (s : State) (f : F64) (n : Nat) : (s.advanceScan f n).xpt = s.xpt := rfl
@[simp] theorem State.advanceScan_xptValid (s : State) (f : F64) (n : Nat) : (s.advanceScan f n).xptValid = s.xptValid := rfl
@[simp] theorem State.advanceScan_fPrev (s : State) (f : F64) (n : Nat) : (s.advanceScan f n).fPrev = f := rfl
@[simp] theorem State.advanceScan_scanPos (s : State) (f : F64) (n : Nat) : (s.advanceScan f n).scanPos = n + 1 := rfl
@[simp] theorem State.advanceScan_fbDirty (s : State) (f : F64) (n : Nat) : (s.advanceScan f n).fbDirty = s.fbDirty := rfl
@[simp] theorem State.advanceScan_fault (s : State) (f : F64) (n : Nat) : (s.advanceScan f n).fault = s.fault := rfl
@[simp] theorem State.advanceScan_sf (s : State) (f : F64) (n : Nat) : (s.advanceScan f n).sf = s.sf := rfl
@[simp] theorem State.advanceScan_fi (s : State) (f : F64) (n : Nat) : (s.advanceScan f n).fi = s.fi := rfl
@[simp] theorem State.advanceScan_fq (s : State) (f : F64) (n : Nat) : (s.advanceScan f n).fq = s.fq := rfl
@[simp] theorem State.advanceScan_winLo (s : State) (f : F64) (n : Nat) : (s.advanceScan f n).winLo = s.winLo := rfl
@[simp] theorem State.advanceScan_winHi (s : State) (f : F64) (n : Nat) : (s.advanceScan f n).winHi = s.winHi := rfl
@[simp] theorem State.advanceScan_nl (s : State) (f : F64) (n : Nat) : (s.advanceScan f n).nl = s.nl := rfl
@[simp] theorem State.advanceScan_fb (s : State) (f : F64) (n : Nat) : (s.advanceScan f n).fb = s.fb := rfl
@[simp] theorem State.advanceScan_sink (s : State) (f : F64) (n : Nat) : (s.advanceScan f n).sink = s.sink := rfl
@[simp] theorem State.advanceScan_het (s : State) (f : F64) (n : Nat) : (s.advanceScan f n).het = s.het := rfl
@[simp] theorem State.advanceScan_samples (s : State) (f : F64) (n : Nat) : (s.advanceScan f n).samples = s.samples := rfl
@[simp] theorem State.advanceScan_lastConsumed (s : State) (f : F64) (n : Nat) : (s.advanceScan f n).lastConsumed = s.lastConsumed := rfl
@[simp] theorem State.advanceScan_ret (s : State) (f : F64) (n : Nat) : (s.advanceScan f n).ret = s.ret := rfl
@[simp] theorem State.advanceScan_hostQueue (s : State) (f : F64) (n : Nat) : (s.advanceScan f n).hostQueue = s.hostQueue := rfl
@[simp] theorem State.advanceScan_constructed (s : State) (f : F64) (n : Nat) : (s.advanceScan f n).constructed = s.constructed := rfl
@[simp] theorem State.advanceScan_cfg (s : State) (f : F64) (n : Nat) : (s.advanceScan f n).cfg = s.cfg := rfl

/-! ### `State.setFbDirty` -/

@[simp] theorem State.setFbDirty_line2 (s : State) (b : Bool) : (s.setFbDirty b).line2 = s.line2 := rfl
@[simp] theorem State.setFbDirty_tgtPhase (s : State) (b : Bool) : (s.setFbDirty b).tgtPhase = s.tgtPhase := rfl
@[simp] theorem State.setFbDirty_prevValid (s : State) (b : Bool) : (s.setFbDirty b).prevValid = s.prevValid := rfl
@[simp] theorem State.setFbDirty_prevCrosspoint (s : State) (b : Bool) : (s.setFbDirty b).prevCrosspoint = s.prevCrosspoint := rfl
@[simp] theorem State.setFbDirty_below (s : State) (b : Bool) : (s.setFbDirty b).below = s.below := rfl
@[simp] theorem State.setFbDirty_count (s : State) (b : Bool) : (s.setFbDirty b).count = s.count := rfl
@[simp] theorem State.setFbDirty_xpt (s : State) (b : Bool) : (s.setFbDirty b).xpt = s.xpt := rfl
@[simp] theorem State.setFbDirty_xptValid (s : State) (b : Bool) : (s.setFbDirty b).xptValid = s.xptValid := rfl
@[simp] theorem State.setFbDirty_fPrev (s : State) (b : Bool) : (s.setFbDirty b).fPrev = s.fPrev := rfl
@[simp] theorem State.setFbDirty_scanPos (s : State) (b : Bool) : (s.setFbDirty b).scanPos = s.scanPos := rfl
@[simp] theorem State.setFbDirty_fbDirty (s : State) (b : Bool) : (s.setFbDirty b).fbDirty = b := rfl
@[simp] theorem State.setFbDirty_fault (s : State) (b : Bool) : (s.setFbDirty b).fault = s.fault := rfl
@[simp] theorem State.setFbDirty_sf (s : State) (b : Bool) : (s.setFbDirty b).sf = s.sf := rfl
@[simp] theorem State.setFbDirty_fi (s : State) (b : Bool) : (s.setFbDirty b).fi = s.fi := rfl
@[simp] theorem State.setFbDirty_fq (s : State) (b : Bool) : (s.setFbDirty b).fq = s.fq := rfl
@[simp] theorem State.setFbDirty_winLo (s : State) (b : Bool) : (s.setFbDirty b).winLo = s.winLo := rfl
@[simp] theorem State.setFbDirty_winHi (s : State) (b : Bool) : (s.setFbDirty b).winHi = s.winHi := rfl
@[simp] theorem State.setFbDirty_nl (s : State) (b : Bool) : (s.setFbDirty b).nl = s.nl := rfl
@[simp] theorem State.setFbDirty_fb (s : State) (b : Bool) : (s.setFbDirty b).fb = s.fb := rfl
@[simp] theorem State.setFbDirty_sink (s : State) (b : Bool) : (s.setFbDirty b).sink = s.sink := rfl
@[simp] theorem State.setFbDirty_het (s : State) (b : Bool) : (s.setFbDirty b).het = s.het := rfl
@[simp] theorem State.setFbDirty_samples (s : State) (b : Bool) : (s.setFbDirty b).samples = s.samples := rfl
@[simp] theorem State.setFbDirty_lastConsumed (s : State) (b : Bool) : (s.setFbDirty b).lastConsumed = s.lastConsumed := rfl
@[simp] theorem State.setFbDirty_ret (s : State) (b : Bool) : (s.setFbDirty b).ret = s.ret := rfl
@[simp] theorem State.setFbDirty_hostQueue (s : State) (b : Bool) : (s.setFbDirty b).hostQueue = s.hostQueue := rfl
@[simp] theorem State.setFbDirty_constructed (s : State) (b : Bool) : (s.setFbDirty b).constructed = s.constructed := rfl
@[simp] theorem State.setFbDirty_cfg (s : State) (b : Bool) : (s.setFbDirty b).cfg = s.cfg := rfl

/-! ### `State.setFilter` -/

@[simp] theorem State.setFilter_line2 (s : State) (g : FilterId) (st : FilterState) : (s.setFilter g st).line2 = s.line2 := by cases g <;> rfl
@[simp] theorem State.setFilter_tgtPhase (s : State) (g : FilterId) (st : FilterState) : (s.setFilter g st).tgtPhase = s.tgtPhase := by cases g <;> rfl
@[simp] theorem State.setFilter_prevValid (s : State) (g : FilterId) (st : FilterState) : (s.setFilter g st).prevValid = s.prevValid := by cases g <;> rfl
@[simp] theorem State.setFilter_prevCrosspoint (s : State) (g : FilterId) (st : FilterState) : (s.setFilter g st).prevCrosspoint = s.prevCrosspoint := by cases g <;> rfl
@[simp] theorem State.setFilter_below (s : State) (g : FilterId) (st : FilterState) : (s.setFilter g st).below = s.below := by cases g <;> rfl
@[simp] theorem State.setFilter_count (s : State) (g : FilterId) (st : FilterState) : (s.setFilter g st).count = s.count := by cases g <;> rfl
@[simp] theorem State.setFilter_xpt (s : State) (g : FilterId) (st : FilterState) : (s.setFilter g st).xpt = s.xpt := by cases g <;> rfl
@[simp] theorem State.setFilter_xptValid (s : State) (g : FilterId) (st : FilterState) : (s.setFilter g st).xptValid = s.xptValid := by cases g <;> rfl
@[simp] theorem State.setFilter_fPrev (s : State) (g : FilterId) (st : FilterState) : (s.setFilter g st).fPrev = s.fPrev := by cases g <;> rfl
@[simp] theorem State.setFilter_scanPos (s : State) (g : FilterId) (st : FilterState) : (s.setFilter g st).scanPos = s.scanPos := by cases g <;> rfl
@[simp] theorem State.setFilter_fbDirty (s : State) (g : FilterId) (st : FilterState) : (s.setFilter g st).fbDirty = s.fbDirty := by cases g <;> rfl
@[simp] theorem State.setFilter_fault (s : State) (g : FilterId) (st : FilterState) : (s.setFilter g st).fault = s.fault := by cases g <;> rfl
@[simp] theorem State.setFilter_sf_sf (s : State) (st : FilterState) : (s.setFilter .sf st).sf = st := rfl
@[simp] theorem State.setFilter_fi_sf (s : State) (st : FilterState) : (s.setFilter .fi st).sf = s.sf := rfl
@[simp] theorem State.setFilter_fq_sf (s : State) (st : FilterState) : (s.setFilter .fq st).sf = s.sf := rfl
@[simp] theorem State.setFilter_sf_fi (s : State) (st : FilterState) : (s.setFilter .sf st).fi = s.fi := rfl
@[simp] theorem State.setFilter_fi_fi (s : State) (st : FilterState) : (s.setFilter .fi st).fi = st := rfl
@[simp] theorem State.setFilter_fq_fi (s : State) (st : FilterState) : (s.setFilter .fq st).fi = s.fi := rfl
@[simp] theorem State.setFilter_sf_fq (s : State) (st : FilterState) : (s.setFilter .sf st).fq = s.fq := rfl
@[simp] theorem State.setFilter_fi_fq (s : State) (st : FilterState) : (s.setFilter .fi st).fq = s.fq := rfl
@[simp] theorem State.setFilter_fq_fq (s : State) (st : FilterState) : (s.setFilter .fq st).fq = st := rfl
@[simp] theorem State.setFilter_winLo (s : State) (g : FilterId) (st : FilterState) : (s.setFilter g st).winLo = s.winLo := by cases g <;> rfl
@[simp] theorem State.setFilter_winHi (s : State) (g : FilterId) (st : FilterState) : (s.setFilter g st).winHi = s.winHi := by cases g <;> rfl
@[simp] theorem State.setFilter_nl (s : State) (g : FilterId) (st : FilterState) : (s.setFilter g st).nl = s.nl := by cases g <;> rfl
@[simp] theorem State.setFilter_fb (s : State) (g : FilterId) (st : FilterState) : (s.setFilter g st).fb = s.fb := by cases g <;> rfl
@[simp] theorem State.setFilter_sink (s : State) (g : FilterId) (st : FilterState) : (s.setFilter g st).sink = s.sink := by cases g <;> rfl
@[simp] theorem State.setFilter_het (s : State) (g : FilterId) (st : FilterState) : (s.setFilter g st).het = s.het := by cases g <;> rfl
@[simp] theorem State.setFilter_samples (s : State) (g : FilterId) (st : FilterState) : (s.setFilter g st).samples = s.samples := by cases g <;> rfl
@[simp] theorem State.setFilter_lastConsumed (s : State) (g : FilterId) (st : FilterState) : (s.setFilter g st).lastConsumed = s.lastConsumed := by cases g <;> rfl
@[simp] theorem State.setFilter_ret (s : State) (g : FilterId) (st : FilterState) : (s.setFilter g st).ret = s.ret := by cases g <;> rfl
@[simp] theorem State.setFilter_hostQueue (s : State) (g : FilterId) (st : FilterState) : (s.setFilter g st).hostQueue = s.hostQueue := by cases g <;> rfl
@[simp] theorem State.setFilter_constructed (s : State) (g : FilterId) (st : FilterState) : (s.setFilter g st).constructed = s.constructed := by cases g <;> rfl
@[simp] theorem State.setFilter_cfg (s : State) (g : FilterId) (st : FilterState) : (s.setFilter g st).cfg = s.cfg := by cases g <;> rfl
@[simp] theorem State.setFilter_filter (s : State) (g : FilterId) (st : FilterState) : (s.setFilter g st).filter g = st := by cases g <;> rfl
@[simp] theorem State.filter_sf (s : State) : s.filter .sf = s.sf := rfl
@[simp] theorem State.filter_fi (s : State) : s.filter .fi = s.fi := rfl
@[simp] theorem State.filter_fq (s : State) : s.filter .fq = s.fq := rfl

/-! ### `State.restart`: RESET keeps the host's stream, its queue and the configuration -/

theorem State.restart_line2 (s : State) : s.restart.line2 = (State.ofConfig s.cfg).line2 := rfl
theorem State.restart_tgtPhase (s : State) : s.restart.tgtPhase = (State.ofConfig s.cfg).tgtPhase := rfl
theorem State.restart_prevValid (s : State) : s.restart.prevValid = (State.ofConfig s.cfg).prevValid := rfl
theorem State.restart_prevCrosspoint (s : State) : s.restart.prevCrosspoint = (State.ofConfig s.cfg).prevCrosspoint := rfl
theorem State.restart_below (s : State) : s.restart.below = (State.ofConfig s.cfg).below := rfl
theorem State.restart_count (s : State) : s.restart.count = (State.ofConfig s.cfg).count := rfl
theorem State.restart_xpt (s : State) : s.restart.xpt = (State.ofConfig s.cfg).xpt := rfl
theorem State.restart_xptValid (s : State) : s.restart.xptValid = (State.ofConfig s.cfg).xptValid := rfl
theorem State.restart_fPrev (s : State) : s.restart.fPrev = (State.ofConfig s.cfg).fPrev := rfl
theorem State.restart_scanPos (s : State) : s.restart.scanPos = (State.ofConfig s.cfg).scanPos := rfl
theorem State.restart_fbDirty (s : State) : s.restart.fbDirty = (State.ofConfig s.cfg).fbDirty := rfl
theorem State.restart_fault (s : State) : s.restart.fault = (State.ofConfig s.cfg).fault := rfl
theorem State.restart_sf (s : State) : s.restart.sf = (State.ofConfig s.cfg).sf := rfl
theorem State.restart_fi (s : State) : s.restart.fi = (State.ofConfig s.cfg).fi := rfl
theorem State.restart_fq (s : State) : s.restart.fq = (State.ofConfig s.cfg).fq := rfl
theorem State.restart_winLo (s : State) : s.restart.winLo = (State.ofConfig s.cfg).winLo := rfl
theorem State.restart_winHi (s : State) : s.restart.winHi = (State.ofConfig s.cfg).winHi := rfl
theorem State.restart_nl (s : State) : s.restart.nl = (State.ofConfig s.cfg).nl := rfl
theorem State.restart_fb (s : State) : s.restart.fb = (State.ofConfig s.cfg).fb := rfl
theorem State.restart_sink (s : State) : s.restart.sink = (State.ofConfig s.cfg).sink := rfl
theorem State.restart_het (s : State) : s.restart.het = (State.ofConfig s.cfg).het := rfl
theorem State.restart_samples (s : State) : s.restart.samples = s.samples := rfl
theorem State.restart_lastConsumed (s : State) : s.restart.lastConsumed = (State.ofConfig s.cfg).lastConsumed := rfl
theorem State.restart_ret (s : State) : s.restart.ret = (State.ofConfig s.cfg).ret := rfl
theorem State.restart_hostQueue (s : State) : s.restart.hostQueue = s.hostQueue := rfl
theorem State.restart_constructed (s : State) : s.restart.constructed = (State.ofConfig s.cfg).constructed := rfl
theorem State.restart_cfg (s : State) : s.restart.cfg = s.cfg := rfl

end Sys2Proof.Machine
end

