-- ==== Sys2Proof/Laws/Outcome.lean ====
section
/-! SUPPORT. What an operation's body can do, said once: the sequencing of bodies, the outcome of a step, and
the block's gate. -/

namespace Sys2Proof.Machine

section
variable {α β : Type}

@[simp] theorem Res.ok_andThen (v : α) (s : State) (k : α → State → Res β) :
    (Res.ok v s).andThen k = k v s := rfl
@[simp] theorem Res.raised_andThen (s : State) (k : α → State → Res β) :
    (Res.raised s : Res α).andThen k = .raised s := rfl
@[simp] theorem Res.stopped_andThen (w : Stop) (k : α → State → Res β) :
    (Res.stopped w : Res α).andThen k = .stopped w := rfl

/-- A sequence returns when both parts return. -/
theorem Res.andThen_eq_ok {r : Res α} {k : α → State → Res β} {v : β} {t : State} :
    r.andThen k = .ok v t ↔ ∃ u s, r = .ok u s ∧ k u s = .ok v t := by
  cases r <;> simp

/-- A sequence raises F_BOUNDS when its first part does, or the second after the first returned. -/
theorem Res.andThen_eq_raised {r : Res α} {k : α → State → Res β} {t : State} :
    r.andThen k = .raised t ↔ r = .raised t ∨ ∃ u s, r = .ok u s ∧ k u s = .raised t := by
  cases r <;> simp

/-- A sequence stops when its first part does, or the second after the first returned. -/
theorem Res.andThen_eq_stopped {r : Res α} {k : α → State → Res β} {w : Stop} :
    r.andThen k = .stopped w ↔ r = .stopped w ∨ ∃ u s, r = .ok u s ∧ k u s = .stopped w := by
  cases r <;> simp

/-- Sequencing is associative. -/
theorem Res.andThen_assoc {γ : Type} (r : Res α) (k : α → State → Res β) (m : β → State → Res γ) :
    (r.andThen k).andThen m = r.andThen fun v s => (k v s).andThen m := by
  cases r <;> rfl

end

@[simp] theorem Res.ok_outcome (v : Result) (s : State) : (Res.ok v s).outcome = .next (s.setRet v) := rfl
@[simp] theorem Res.raised_outcome (s : State) : (Res.raised s : Res Result).outcome = .next s := rfl

/-- The next states of a body. -/
theorem Res.outcome_eq_next {r : Res Result} {t : State} :
    r.outcome = .next t ↔ (∃ v s, r = .ok v s ∧ t = s.setRet v) ∨ r = .raised t := by
  cases r with
  | ok v s => simp [eq_comm]
  | raised s => simp
  | stopped w => cases w <;> simp [Res.outcome]

/-- The block accepts operations exactly when it is constructed and no fault is recorded (R264, R281). -/
theorem State.blocked_eq_none {s : State} : s.blocked = none ↔ s.constructed = true ∧ s.fault = none := by
  unfold State.blocked
  cases hc : s.constructed <;> cases hf : s.fault <;> simp

/-- An operation executed by a block that accepts it. -/
theorem operate_ready {s : State} (hc : s.constructed = true) (hf : s.fault = none)
    (body : State → Res Result) : operate s body = (body (s.setRet .none)).outcome := by
  unfold operate
  rw [State.blocked_eq_none.mpr ⟨hc, hf⟩]

/-- The next states of an operation: it was accepted, and its body returned or raised F_BOUNDS. -/
theorem operate_eq_next {s t : State} {body : State → Res Result} :
    operate s body = .next t ↔
      (s.constructed = true ∧ s.fault = none) ∧
        ((∃ v u, body (s.setRet .none) = .ok v u ∧ t = u.setRet v) ∨
          body (s.setRet .none) = .raised t) := by
  unfold operate
  rw [← State.blocked_eq_none]
  cases s.blocked with
  | none => simp [Res.outcome_eq_next]
  | some r => simp

@[simp] theorem State.setRet_setRet (s : State) (r r' : Result) : (s.setRet r).setRet r' = s.setRet r' := rfl

end Sys2Proof.Machine
end

