-- ==== Sys2Proof/Laws/Datapath.lean ====
section
/-! SUPPORT. The datapath operations, one lemma each that says what they can do: FCLR and FFEED, SCALE, BURST,
PCL, ASMLINE. -/

namespace Sys2Proof.Machine

/-! ### SCALE -/

theorem State.readSample_of_inWindow {s : State} {n : Nat} (h : s.inWindow n = true) :
    s.readSample n = some (s.streamCode n) := by
  simp [State.readSample, h]

theorem State.readSample_eq_none {s : State} {n : Nat} : s.readSample n = none ↔ s.inWindow n = false := by
  unfold State.readSample
  cases s.inWindow n <;> simp

theorem sourceIndex_ge (p : F64) : 2 ≤ sourceIndex p := by
  unfold sourceIndex
  omega

theorem tapsReadable_iff {s : State} {p : F64} :
    TapsReadable s p ↔ s.inWindow (sourceIndex p - 1) = true ∧ s.inWindow (sourceIndex p) = true ∧
      s.inWindow (sourceIndex p + 1) = true ∧ s.inWindow (sourceIndex p + 2) = true := by
  have h2 := sourceIndex_ge p
  have e1 : sourceIndex p - 1 + 1 = sourceIndex p := by omega
  have e2 : sourceIndex p - 1 + 2 = sourceIndex p + 1 := by omega
  have e3 : sourceIndex p - 1 + 3 = sourceIndex p + 2 := by omega
  constructor
  · intro h
    have h0 := h 0 (by omega)
    have h1 := h 1 (by omega)
    have h2 := h 2 (by omega)
    have h3 := h 3 (by omega)
    rw [e1] at h1
    rw [e2] at h2
    rw [e3] at h3
    exact ⟨h0, h1, h2, h3⟩
  · rintro ⟨h0, h1, h2, h3⟩ d hd
    rcases d with _ | _ | _ | _ | d
    · exact h0
    · rw [zero_add, e1]; exact h1
    · rw [zero_add, e2]; exact h2
    · rw [zero_add, e3]; exact h3
    · omega

/-- A readable output sample is the cubic through its four codes. -/
theorem sampleAt_of_readable {s : State} {p : F64} (h : TapsReadable s p) :
    sampleAt s p = .ok (resampledValue s p) := by
  obtain ⟨h0, h1, h2, h3⟩ := tapsReadable_iff.mp h
  simp only [sampleAt, State.readSample_of_inWindow h0, State.readSample_of_inWindow h1,
    State.readSample_of_inWindow h2, State.readSample_of_inWindow h3]
  rfl

/-- An output sample fails only at an index outside the window. -/
theorem sampleAt_error {s : State} {p : F64} {n : Nat} (h : sampleAt s p = .error n) :
    s.inWindow n = false ∧ ¬ TapsReadable s p := by
  simp only [sampleAt] at h
  split at h
  · cases h
    rename_i e
    exact ⟨State.readSample_eq_none.mp e, fun hr => by
      have := (tapsReadable_iff.mp hr).1
      rw [State.readSample_eq_none.mp e] at this
      cases this⟩
  · split at h
    · cases h
      rename_i e
      exact ⟨State.readSample_eq_none.mp e, fun hr => by
        have := (tapsReadable_iff.mp hr).2.1
        rw [State.readSample_eq_none.mp e] at this
        cases this⟩
    · split at h
      · cases h
        rename_i e
        exact ⟨State.readSample_eq_none.mp e, fun hr => by
          have := (tapsReadable_iff.mp hr).2.2.1
          rw [State.readSample_eq_none.mp e] at this
          cases this⟩
      · split at h
        · cases h
          rename_i e
          exact ⟨State.readSample_eq_none.mp e, fun hr => by
            have := (tapsReadable_iff.mp hr).2.2.2
            rw [State.readSample_eq_none.mp e] at this
            cases this⟩
        · cases h

/-- An output sample is refused exactly when one of its four reads is. -/
theorem sampleAt_cases (s : State) (p : F64) :
    (TapsReadable s p ∧ sampleAt s p = .ok (resampledValue s p)) ∨
      ∃ n, sampleAt s p = .error n ∧ s.inWindow n = false ∧ ¬ TapsReadable s p := by
  by_cases h : TapsReadable s p
  · exact .inl ⟨h, sampleAt_of_readable h⟩
  · right
    cases e : sampleAt s p with
    | error n => exact ⟨n, rfl, (sampleAt_error e).1, h⟩
    | ok v =>
      exfalso
      apply h
      simp only [sampleAt] at e
      rw [tapsReadable_iff]
      split at e
      · cases e
      · rename_i c0 e0
        split at e
        · cases e
        · rename_i c1 e1
          split at e
          · cases e
          · rename_i c2 e2
            split at e
            · cases e
            · rename_i c3 e3
              have hw : ∀ n c, s.readSample n = some c → s.inWindow n = true := by
                intro n c hn
                unfold State.readSample at hn
                split at hn
                · assumption
                · cases hn
              exact ⟨hw _ _ e0, hw _ _ e1, hw _ _ e2, hw _ _ e3⟩

/-- What SCALE's loop does over the `k` output indices from `i`: it runs to the end, or it stops at the first
index `i + j` whose reads are refused or that is no NL address, with the values before it. -/
theorem scaleFrom_cases (s : State) (start per : F64) (k i : Nat) :
    ((∀ j < k, TapsReadable s (sourcePosition start per (i + j)) ∧ i + j < s.cfg.scaleTgt) ∧
        scaleFrom s start per k i =
          ((List.range k).map fun j => resampledValue s (sourcePosition start per (i + j)), none)) ∨
      ∃ j < k, ∃ why,
        (∀ l < j, TapsReadable s (sourcePosition start per (i + l)) ∧ i + l < s.cfg.scaleTgt) ∧
        scaleFrom s start per k i =
          ((List.range j).map fun l => resampledValue s (sourcePosition start per (i + l)), some why) ∧
        ((∃ n, why = .refused n ∧ sampleAt s (sourcePosition start per (i + j)) = .error n) ∨
          (why = .noAddress (i + j) ∧ s.cfg.scaleTgt ≤ i + j ∧
            TapsReadable s (sourcePosition start per (i + j)))) := by
  induction k generalizing i with
  | zero => left; simp [scaleFrom]
  | succ k ih =>
    rcases sampleAt_cases s (sourcePosition start per i) with ⟨hr, hv⟩ | ⟨n, hn, -, -⟩
    · by_cases hi : i < s.cfg.scaleTgt
      · have hstep : scaleFrom s start per (k + 1) i =
            (resampledValue s (sourcePosition start per i) :: (scaleFrom s start per k (i + 1)).1,
              (scaleFrom s start per k (i + 1)).2) := by
          simp [scaleFrom, hv, hi]
        have hmap : ∀ m, ((List.range (m + 1)).map fun j => resampledValue s (sourcePosition start per (i + j))) =
            resampledValue s (sourcePosition start per i) ::
              (List.range m).map fun j => resampledValue s (sourcePosition start per (i + 1 + j)) := by
          intro m
          rw [List.range_succ_eq_map, List.map_cons, List.map_map]
          simp [Function.comp_def, Nat.add_comm, Nat.add_left_comm]
        rcases ih (i + 1) with ⟨hall, he⟩ | ⟨j, hj, why, hall, he, hwhy⟩
        · left
          refine ⟨?_, ?_⟩
          · intro j hj
            rcases j with _ | j
            · exact ⟨hr, hi⟩
            · have := hall j (by omega)
              rwa [show i + 1 + j = i + (j + 1) by omega] at this
          · rw [hstep, he, hmap]
        · right
          refine ⟨j + 1, by omega, why, ?_, ?_, ?_⟩
          · intro l hl
            rcases l with _ | l
            · exact ⟨hr, hi⟩
            · have := hall l (by omega)
              rwa [show i + 1 + l = i + (l + 1) by omega] at this
          · rw [hstep, he, hmap]
          · rwa [show i + 1 + j = i + (j + 1) by omega] at hwhy
      · right
        refine ⟨0, by omega, .noAddress i, by omega, ?_, ?_⟩
        · simp [scaleFrom, hv, hi]
        · right
          exact ⟨rfl, by omega, hr⟩
    · right
      refine ⟨0, by omega, .refused n, by omega, ?_, ?_⟩
      · simp [scaleFrom, hn]
      · exact .inl ⟨n, rfl, hn⟩

/-- SCALE of a readable span that fits NL writes the resampled line. -/
theorem scale_of_readable {s : State} {start stop : F64} {n : Nat} (h : SpanReadable s start stop n)
    (hn : n ≤ s.cfg.scaleTgt) :
    scale start stop n s = .ok () (s.setNl (Cells.write none s.nl 0 (resampledLine s start stop n))) := by
  rcases scaleFrom_cases s start (perSample start stop n) n 0 with ⟨-, he⟩ | ⟨j, hj, why, -, -, hw⟩
  · simp only [zero_add] at he
    simp [scale, he, resampledLine]
  · simp only [zero_add] at hw
    rcases hw with ⟨m, -, hm⟩ | ⟨-, hbad, -⟩
    · exact absurd (h j hj) (sampleAt_error hm).2
    · omega

/-- Everything SCALE can do: write the line; raise F_BOUNDS at the first refused read, the values before it
written (R151, R264); or fault at an output index that is no NL address. -/
theorem scale_cases (s : State) (start stop : F64) (n : Nat) :
    (SpanReadable s start stop n ∧ n ≤ s.cfg.scaleTgt ∧
        scale start stop n s = .ok () (s.setNl (Cells.write none s.nl 0 (resampledLine s start stop n)))) ∨
      (∃ j < n, ∃ m, j ≤ s.cfg.scaleTgt ∧
        (∀ l < j, TapsReadable s (sourcePosition start (perSample start stop n) l)) ∧
        sampleAt s (sourcePosition start (perSample start stop n) j) = .error m ∧
        s.inWindow m = false ∧
        scale start stop n s = .raised
          ((s.setNl (Cells.write none s.nl 0 ((resampledLine s start stop n).take j))).raise m)) ∨
      (s.cfg.scaleTgt < n ∧
        scale start stop n s = .stopped (.fault (.nlAddress (s.cfg.scaleTgt : Int)))) := by
  rcases scaleFrom_cases s start (perSample start stop n) n 0 with ⟨hall, he⟩ | ⟨j, hj, why, hall, he, hw⟩
  · left
    simp only [zero_add] at hall he
    have hr : SpanReadable s start stop n := fun i hi => (hall i hi).1
    have hn : n ≤ s.cfg.scaleTgt := by
      rcases Nat.eq_zero_or_pos n with h0 | h0
      · omega
      · have := (hall (n - 1) (by omega)).2
        omega
    exact ⟨hr, hn, scale_of_readable hr hn⟩
  · simp only [zero_add] at hall he hw
    rcases hw with ⟨m, rfl, hm⟩ | ⟨rfl, hbad, -⟩
    · right; left
      have htake : ((List.range j).map fun l =>
          resampledValue s (sourcePosition start (perSample start stop n) l)) =
          (resampledLine s start stop n).take j := by
        rw [resampledLine, ← List.map_take, List.take_range, Nat.min_eq_left (by omega)]
      have hj' : j ≤ s.cfg.scaleTgt := by
        rcases Nat.eq_zero_or_pos j with h0 | h0
        · omega
        · have := (hall (j - 1) (by omega)).2
          omega
      refine ⟨j, hj, m, hj', fun l hl => (hall l hl).1, hm, (sampleAt_error hm).1, ?_⟩
      simp only [scale, he, htake]
      rfl
    · right; right
      have hj' : j = s.cfg.scaleTgt := by
        rcases Nat.eq_zero_or_pos j with h0 | h0
        · omega
        · have := (hall (j - 1) (by omega)).2
          omega
      subst hj'
      exact ⟨hj, by simp [scale, he]⟩

@[simp] theorem resampledLine_length (s : State) (start stop : F64) (n : Nat) :
    (resampledLine s start stop n).length = n := by simp [resampledLine]

/-! ### BURST -/

/-- NL holds a value at every index of the burst window of `off` (R63, R75). -/
def WindowWritten (s : State) (off : Nat) : Prop :=
  ∀ i < Config.BW_LEN, ∃ v, Cells.find s.nl (off + Config.BW_START + i) = some v

theorem State.readNl_of_find {s : State} {k : Nat} {v : F64} (h : Cells.find s.nl k = some v) :
    s.readNl (k : Int) = .ok v := by
  unfold State.readNl
  rw [if_neg (by omega), Int.toNat_natCast, h]

/-- BURST's loop ends when every NL and HET entry it reads is there. -/
theorem burstFrom_ok {s : State} {off : Nat} (hnl : WindowWritten s off)
    (hhet : ∀ i < Config.BW_LEN, ∃ h, s.readHet (hetIndex s.cfg (off : Int) i) = .ok h) (k i : Nat)
    (hk : i + k ≤ Config.BW_LEN) (acc : BurstAcc) : ∃ acc', burstFrom s (off : Int) k i acc = .ok acc' := by
  induction k generalizing i acc with
  | zero => exact ⟨acc, rfl⟩
  | succ k ih =>
    obtain ⟨v, hv⟩ := hnl i (by omega)
    obtain ⟨h, hh⟩ := hhet i (by omega)
    have hv' := State.readNl_of_find hv
    rw [Nat.cast_add, Nat.cast_add] at hv'
    simp only [burstFrom, hv', hh]
    exact ih (i + 1) (by omega) _

/-- Everything BURST can do: return the maximum with the two delay lines, or stop; it never raises. -/
theorem burst_cases (off : Int) (s : State) :
    (∃ acc, burstRun s off = .ok acc ∧
        burst off s = .ok (acc.amp, acc.phase) ((s.setFilter .fi acc.fi).setFilter .fq acc.fq)) ∨
      ∃ w, burstRun s off = .error w ∧ burst off s = .stopped w := by
  unfold burst
  cases burstRun s off with
  | ok acc => exact .inl ⟨acc, rfl, rfl⟩
  | error w => exact .inr ⟨w, rfl, rfl⟩

/-! ### What the line's datapath changes -/

/-- `t` is `s` but for what PCL writes: `tgt_phase`, NL, FI, FQ, and the fault register (R212). -/
def LineEffect (s t : State) : Prop :=
  ∃ a m fi fq f, t = { s with tgtPhase := a, nl := m, fi := fi, fq := fq, fault := f }

theorem LineEffect.refl (s : State) : LineEffect s s := ⟨_, _, _, _, _, rfl⟩

theorem LineEffect.trans {s t u : State} (h : LineEffect s t) (h' : LineEffect t u) : LineEffect s u := by
  obtain ⟨_, _, _, _, _, rfl⟩ := h
  obtain ⟨_, _, _, _, _, rfl⟩ := h'
  exact ⟨_, _, _, _, _, rfl⟩

theorem scale_effect {start stop : F64} {n : Nat} {s t : State} {u : Unit}
    (h : scale start stop n s = .ok u t ∨ scale start stop n s = .raised t) : LineEffect s t := by
  rcases scale_cases s start stop n with ⟨-, -, he⟩ | ⟨_, _, _, _, _, _, _, he⟩ | ⟨-, he⟩ <;>
    rw [he] at h <;> simp at h <;> rw [← h] <;> exact ⟨_, _, _, _, _, rfl⟩

theorem burst_effect {off : Int} {s t : State} {m : F64 × F64} (h : burst off s = .ok m t) :
    LineEffect s t := by
  rcases burst_cases off s with ⟨acc, -, he⟩ | ⟨w, -, he⟩ <;> rw [he] at h <;> simp at h
  rw [← h.2]
  exact ⟨_, _, _, _, _, rfl⟩

theorem burst_not_raised (off : Int) (s t : State) : burst off s ≠ .raised t := by
  rcases burst_cases off s with ⟨acc, -, he⟩ | ⟨w, -, he⟩ <;> rw [he] <;> simp

theorem tgtupd_effect (phase1 : F64) (s : State) : LineEffect s (tgtupd phase1 s) := ⟨_, _, _, _, _, rfl⟩

/-- PCL writes nothing else, whether it returns or raises. -/
theorem pcl_effect {start stop : F64} {s t : State} {r : F64 × F64}
    (h : pcl start stop s = .ok r t ∨ pcl start stop s = .raised t) : LineEffect s t := by
  simp only [pcl, pclFirstPass, pclSecondPass, Res.andThen_eq_ok, Res.andThen_eq_raised, burst_not_raised,
    Res.ok.injEq, reduceCtorEq, or_false, and_false, exists_false] at h
  rcases h with ⟨b, s3, ⟨_, s1, h1, m, s2, h2, -, rfl⟩, e, s6, ⟨_, s4, h4, _, s5, h5, m', s5', h6, -, rfl⟩,
      _, s7, h7, -, rfl⟩ | h1 | ⟨b, s3, ⟨_, s1, h1, m, s2, h2, -, rfl⟩, h⟩
  · exact (scale_effect (.inl h1)).trans ((burst_effect h2).trans ((tgtupd_effect _ _).trans
      ((scale_effect (.inl h4)).trans ((burst_effect h5).trans ((burst_effect h6).trans
        (scale_effect (.inl h7)))))))
  · exact scale_effect (.inr h1) (u := ())
  · have hpre := (scale_effect (.inl h1)).trans ((burst_effect h2).trans (tgtupd_effect m.2 s2))
    rcases h with h4 | ⟨e, s6, ⟨_, s4, h4, _, s5, h5, m', s5', h6, -, rfl⟩, h7⟩
    · exact hpre.trans (scale_effect (.inr h4) (u := ()))
    · exact hpre.trans ((scale_effect (.inl h4)).trans ((burst_effect h5).trans ((burst_effect h6).trans
        (scale_effect (.inr h7) (u := ())))))

/-! ### ASMLINE -/

/-- A row of values, when every NL element it reads is written. -/
theorem rowFrom_ok {s : State} (lvl : F64) (k x : Nat)
    (h : ∀ i < k, ∃ v, Cells.find s.nl (x + i) = some v) :
    ∃ vals, rowFrom s lvl k x = .ok vals ∧ vals.length = k ∧
      ∀ i v, i < k → Cells.find s.nl (x + i) = some v → vals[i]? = some (compensate s.cfg lvl v) := by
  induction k generalizing x with
  | zero => exact ⟨[], rfl, rfl, by omega⟩
  | succ k ih =>
    obtain ⟨v0, h0⟩ := h 0 (by omega)
    obtain ⟨vs, he, hl, hv⟩ := ih (x + 1) (fun i hi => by
      have := h (i + 1) (by omega)
      rwa [show x + 1 + i = x + (i + 1) by omega])
    refine ⟨compensate s.cfg lvl v0 :: vs, ?_, by simp [hl], ?_⟩
    · simp only [rowFrom, State.readNl_of_find (by simpa using h0), he]
    · intro i v hi hf
      rcases i with _ | i
      · rw [show x + 0 = x from rfl] at hf h0
        rw [hf] at h0
        cases h0
        rfl
      · have := hv i v (by omega) (by rwa [show x + 1 + i = x + (i + 1) by omega])
        simpa using this

theorem rowFrom_length {s : State} {lvl : F64} {k x : Nat} {vals : List F64}
    (h : rowFrom s lvl k x = .ok vals) : vals.length = k := by
  induction k generalizing x vals with
  | zero => simp [rowFrom] at h; simp [← h]
  | succ k ih =>
    simp only [rowFrom] at h
    split at h
    · cases h
    · split at h
      · cases h
      · rename_i vs hvs
        cases h
        simp [ih hvs]

/-- Everything ASMLINE can do: nothing for a decode-only line; write its row and set `fb_dirty`; or stop at an
NL element without a value. -/
theorem asmline_cases (start stop : F64) (s : State) :
    (maprow s.line2 = none ∧ asmline start stop s = .ok () s) ∨
      (∃ row vals, maprow s.line2 = some row ∧ activeRow s (lvladj s.cfg start stop) = .ok vals ∧
        vals.length = Config.FB_COLS ∧
        asmline start stop s = .ok () ((s.setFb (writeRow s.fb row vals)).setFbDirty true)) ∨
      ∃ row w, maprow s.line2 = some row ∧ activeRow s (lvladj s.cfg start stop) = .error w ∧
        asmline start stop s = .stopped w := by
  unfold asmline
  cases hm : maprow s.line2 with
  | none => simp
  | some row =>
    cases hr : activeRow s (lvladj s.cfg start stop) with
    | ok vals => simp [rowFrom_length hr]
    | error w => simp

/-- MAPROW's rows are 0 to 503 (R230). -/
theorem maprow_lt {line2 : Int} {row : Nat} (h : maprow line2 = some row) : row < 504 := by
  simp only [maprow, validRow] at h
  split at h
  · split at h
    · cases h
    · cases h; omega
  · split at h
    · split at h
      · cases h
      · cases h; omega
    · cases h

/-! ### The sink on the wire -/

/-- Byte `k` of frame `i` of the sink is at offset i·frameBytes + k, in SINK_BYTE_ORDER (R65). -/
theorem State.wireByte_frame {s : State} {i k : Nat} {m : RealCells} (hm : s.sink[i]? = some m)
    (hk : k < frameBytes) : s.wireByte (i * frameBytes + k) = some (frameByte s.cfg.sinkOrder m k) := by
  have hd : (i * frameBytes + k) / frameBytes = i := by
    rw [Nat.mul_comm, Nat.mul_add_div (by omega), Nat.div_eq_of_lt hk, Nat.add_zero]
  have hr : (i * frameBytes + k) % frameBytes = k := by
    rw [Nat.mul_comm, Nat.mul_add_mod, Nat.mod_eq_of_lt hk]
  simp [State.wireByte, hd, hr, hm]

/-- Beyond its last frame the sink has no byte (R65). -/
theorem State.wireByte_eq_none {s : State} {n : Nat} (h : s.sink.length ≤ n / frameBytes) :
    s.wireByte n = none := by
  simp [State.wireByte, List.getElem?_eq_none h]

/-! ### The heterodyne table -/

/-- The phase origin HET[0] = (1, 0) (R126). -/
theorem hetEntry_zero : hetEntry 0 = (Config.ONE, Config.ZERO) := by decide +kernel

/-- The cosine of a nonzero angle is one of the two values that enclose the exact one (U12). -/
theorem hetCos_cases {a : F64} (hf : a.finite = true) (h0 : a.significand ≠ 0) :
    hetCos a = enclosing (cosSin a).1 false ∨ hetCos a = enclosing (cosSin a).1 true := by
  rw [hetCos, if_pos hf, if_neg h0]
  cases Config.cosLastBit a
  · exact .inl rfl
  · exact .inr rfl

/-- The sine of a nonzero angle is one of the two values that enclose the exact one (U12). -/
theorem hetSin_cases {a : F64} (hf : a.finite = true) (h0 : a.significand ≠ 0) :
    hetSin a = enclosing (cosSin a).2 false ∨ hetSin a = enclosing (cosSin a).2 true := by
  rw [hetSin, if_pos hf, if_neg h0]
  cases Config.sinLastBit a
  · exact .inl rfl
  · exact .inr rfl

/-! ### The angle of the repaired detector -/

theorem F64.ofParts_magnitude {negative : Bool} {m : Nat} (h : m < 2 ^ 63) :
    (F64.ofParts negative m).magnitude = m := by
  cases negative <;> simp only [F64.ofParts, F64.magnitude, BitVec.toNat_ofNat] <;> simp <;> omega

/-- The angle of a point off the axis y = 0 is one of the two values that enclose the exact one (R162). -/
theorem arctan2_cases {y x : F64} (hy : y.finite = true) (hx : x.finite = true) (h0 : y.significand ≠ 0) :
    arctan2 y x = enclosingAngle y x false ∨ arctan2 y x = enclosingAngle y x true := by
  rw [arctan2, hy, hx, Bool.and_self, if_pos rfl, if_neg h0]
  cases Config.atan2LastBit y x
  · exact .inl rfl
  · exact .inr rfl

/-- The angle of finite operands lies in (-π, π]: its magnitude is at most that of the binary64 number next below
π (R162). -/
theorem arctan2_le_pi {y x : F64} (hy : y.finite = true) (hx : x.finite = true)
    (h0 : y.significand ≠ 0 ∨ x.significand ≠ 0) : (arctan2 y x).magnitude ≤ Config.PI.magnitude := by
  have hpi : Config.PI.magnitude < 2 ^ 63 := by decide
  by_cases hs : y.significand = 0
  · rw [arctan2, hy, hx, Bool.and_self, if_pos rfl, if_pos hs, if_neg (h0.resolve_left (absurd hs))]
    split
    · exact Nat.le_refl _
    · decide
  · rcases arctan2_cases hy hx hs with h | h <;> rw [h, enclosingAngle, F64.ofParts_magnitude (by omega)] <;>
      exact Nat.min_le_left _ _

end Sys2Proof.Machine
end

