-- ==== Sys2Proof/Laws/PerInstr.lean ====
section
/-! SUPPORT. A statement made per operation: the bytes of an operation begin with its selector, which is
one that R98 lists. -/

namespace Sys2Proof.Laws

open Sys2Proof

/-- A selector that R98 lists. -/
def listedSelector (b : Byte) : Bool :=
  b.toNat ∈ [0x00, 0x01, 0x10, 0x11] || decide (0x20 ≤ b.toNat ∧ b.toNat ≤ 0x27) ||
    decide (0x30 ≤ b.toNat ∧ b.toNat ≤ 0x3E)

/-- The encoding of an operation starts with its selector, one that R98 lists, and goes on with its operands. -/
def SelectorFirst.Statement (i : Instr) : Prop :=
  encode i = i.selector :: i.operandBytes ∧ listedSelector i.selector = true

theorem SelectorFirst.reset : SelectorFirst.Statement .reset :=
  ⟨rfl, rfl⟩
theorem SelectorFirst.process (lo len : Nat) : SelectorFirst.Statement (.process lo len) :=
  ⟨rfl, rfl⟩
theorem SelectorFirst.step : SelectorFirst.Statement .step :=
  ⟨rfl, rfl⟩
theorem SelectorFirst.dispatch (xpt : F64) (count : Nat) : SelectorFirst.Statement (.dispatch xpt count) :=
  ⟨rfl, rfl⟩
theorem SelectorFirst.clsActive (linelen : F64) (count : Nat) : SelectorFirst.Statement (.clsActive linelen count) :=
  ⟨rfl, rfl⟩
theorem SelectorFirst.clsField2 : SelectorFirst.Statement .clsField2 :=
  ⟨rfl, rfl⟩
theorem SelectorFirst.clsNewframe : SelectorFirst.Statement .clsNewframe :=
  ⟨rfl, rfl⟩
theorem SelectorFirst.clsVsync : SelectorFirst.Statement .clsVsync :=
  ⟨rfl, rfl⟩
theorem SelectorFirst.clsHalf : SelectorFirst.Statement .clsHalf :=
  ⟨rfl, rfl⟩
theorem SelectorFirst.clsSkip : SelectorFirst.Statement .clsSkip :=
  ⟨rfl, rfl⟩
theorem SelectorFirst.clsNone : SelectorFirst.Statement .clsNone :=
  ⟨rfl, rfl⟩
theorem SelectorFirst.phresync : SelectorFirst.Statement .phresync :=
  ⟨rfl, rfl⟩
theorem SelectorFirst.fclr (f : FilterId) (level : F64) : SelectorFirst.Statement (.fclr f level) :=
  ⟨rfl, rfl⟩
theorem SelectorFirst.ffeed (f : FilterId) (v : F64) : SelectorFirst.Statement (.ffeed f v) :=
  ⟨rfl, rfl⟩
theorem SelectorFirst.hetgen : SelectorFirst.Statement .hetgen :=
  ⟨rfl, rfl⟩
theorem SelectorFirst.s2ire (code : Code) : SelectorFirst.Statement (.s2ire code) :=
  ⟨rfl, rfl⟩
theorem SelectorFirst.ire2s (ire : F64) : SelectorFirst.Statement (.ire2s ire) :=
  ⟨rfl, rfl⟩
theorem SelectorFirst.cubic (y0 y1 y2 y3 t : F64) : SelectorFirst.Statement (.cubic y0 y1 y2 y3 t) :=
  ⟨rfl, rfl⟩
theorem SelectorFirst.scale (start stop : F64) (outLen : Nat) : SelectorFirst.Statement (.scale start stop outLen) :=
  ⟨rfl, rfl⟩
theorem SelectorFirst.burst (off : Int) : SelectorFirst.Statement (.burst off) :=
  ⟨rfl, rfl⟩
theorem SelectorFirst.wrap (d : F64) : SelectorFirst.Statement (.wrap d) :=
  ⟨rfl, rfl⟩
theorem SelectorFirst.tgtupd (phase1 : F64) : SelectorFirst.Statement (.tgtupd phase1) :=
  ⟨rfl, rfl⟩
theorem SelectorFirst.pcl (start stop : F64) : SelectorFirst.Statement (.pcl start stop) :=
  ⟨rfl, rfl⟩
theorem SelectorFirst.maprow (line2 : Int) : SelectorFirst.Statement (.maprow line2) :=
  ⟨rfl, rfl⟩
theorem SelectorFirst.lvladj (start stop : F64) : SelectorFirst.Statement (.lvladj start stop) :=
  ⟨rfl, rfl⟩
theorem SelectorFirst.asmline (start stop : F64) : SelectorFirst.Statement (.asmline start stop) :=
  ⟨rfl, rfl⟩
theorem SelectorFirst.emit : SelectorFirst.Statement .emit :=
  ⟨rfl, rfl⟩

end Sys2Proof.Laws
end

