-- ==== Sys2Proof/Laws/Sequencer.lean ====
section
/-! SUPPORT. The sequencer and the line tracker: what DISPATCH, STEP and PROCESS change, when they raise
F_BOUNDS, and that a returning operation leaves the fault register alone. -/

namespace Sys2Proof.Machine

/-! ### Raising F_BOUNDS -/

/-- `t` records an F_BOUNDS for a sample index outside the window of `s` (R261). -/
def BoundsRecorded (s t : State) : Prop :=
  ∃ n, t.fault = some ⟨.fBounds, n⟩ ∧ s.inWindow n = false

theorem State.inWindow_congr {s t : State} (hl : t.winLo = s.winLo) (hh : t.winHi = s.winHi) (n : Nat) :
    t.inWindow n = s.inWindow n := by simp [State.inWindow, hl, hh]

theorem BoundsRecorded.of_window {s s' t : State} (hl : s'.winLo = s.winLo) (hh : s'.winHi = s.winHi)
    (h : BoundsRecorded s' t) : BoundsRecorded s t := by
  obtain ⟨n, h1, h2⟩ := h
  exact ⟨n, h1, by rwa [State.inWindow_congr hl hh] at h2⟩

theorem LineEffect.window {s t : State} (h : LineEffect s t) :
    t.winLo = s.winLo ∧ t.winHi = s.winHi := by
  obtain ⟨_, _, _, _, _, rfl⟩ := h
  exact ⟨rfl, rfl⟩

theorem scale_raised {start stop : F64} {n : Nat} {s t : State} (h : scale start stop n s = .raised t) :
    BoundsRecorded s t := by
  rcases scale_cases s start stop n with ⟨-, -, he⟩ | ⟨_, _, m, _, _, _, hw, he⟩ | ⟨-, he⟩ <;>
    rw [he] at h <;> simp at h
  rw [← h]
  exact ⟨m, rfl, hw⟩

theorem scale_ok_fault {start stop : F64} {n : Nat} {s t : State} {u : Unit}
    (h : scale start stop n s = .ok u t) : t.fault = s.fault := by
  rcases scale_cases s start stop n with ⟨-, -, he⟩ | ⟨_, _, m, _, _, _, hw, he⟩ | ⟨-, he⟩ <;>
    rw [he] at h <;> simp at h
  rw [← h]
  rfl

theorem burst_ok_fault {off : Int} {s t : State} {m : F64 × F64} (h : burst off s = .ok m t) :
    t.fault = s.fault := by
  rcases burst_cases off s with ⟨acc, -, he⟩ | ⟨w, -, he⟩ <;> rw [he] at h <;> simp at h
  rw [← h.2]
  rfl

/-- PCL records a fault exactly when it raises one. -/
theorem pcl_fault {start stop : F64} {s t : State} :
    (∀ r, pcl start stop s = .ok r t → t.fault = s.fault) ∧
      (pcl start stop s = .raised t → BoundsRecorded s t) := by
  constructor
  · intro r h
    simp only [pcl, pclFirstPass, pclSecondPass, Res.andThen_eq_ok, Res.ok.injEq] at h
    obtain ⟨b, s3, ⟨_, s1, h1, m, s2, h2, -, rfl⟩, e, s6, ⟨_, s4, h4, _, s5, h5, m', s5', h6, -, rfl⟩,
      _, s7, h7, -, rfl⟩ := h
    rw [scale_ok_fault h7, burst_ok_fault h6, burst_ok_fault h5, scale_ok_fault h4]
    show s2.fault = s.fault
    rw [burst_ok_fault h2, scale_ok_fault h1]
  · intro h
    simp only [pcl, pclFirstPass, pclSecondPass, Res.andThen_eq_ok, Res.andThen_eq_raised, burst_not_raised,
      Res.ok.injEq, reduceCtorEq, or_false, and_false, exists_false] at h
    rcases h with h1 | ⟨b, s3, ⟨_, s1, h1, m, s2, h2, -, rfl⟩, h⟩
    · exact scale_raised h1
    · have hpre := ((scale_effect (.inl h1)).trans ((burst_effect h2).trans (tgtupd_effect m.2 s2))).window
      rcases h with h4 | ⟨e, s6, ⟨_, s4, h4, _, s5, h5, m', s5', h6, -, rfl⟩, h7⟩
      · exact (scale_raised h4).of_window hpre.1 hpre.2
      · have hmid := ((scale_effect (.inl h4)).trans ((burst_effect h5).trans (burst_effect h6))).window
        exact (scale_raised h7).of_window (hmid.1.trans hpre.1) (hmid.2.trans hpre.2)

/-! ### DISPATCH -/

/-- `t` is `s` but for what DISPATCH writes: the line's datapath, `line`, FB, `fb_dirty`, the sink. -/
def DispatchEffect (s t : State) : Prop :=
  ∃ a m fi fq f l fb d k, t =
    { s with
      tgtPhase := a, nl := m, fi := fi, fq := fq, fault := f, line2 := l, fb := fb, fbDirty := d, sink := k }

theorem DispatchEffect.refl (s : State) : DispatchEffect s s := ⟨_, _, _, _, _, _, _, _, _, rfl⟩

theorem DispatchEffect.trans {s t u : State} (h : DispatchEffect s t) (h' : DispatchEffect t u) :
    DispatchEffect s u := by
  obtain ⟨_, _, _, _, _, _, _, _, _, rfl⟩ := h
  obtain ⟨_, _, _, _, _, _, _, _, _, rfl⟩ := h'
  exact ⟨_, _, _, _, _, _, _, _, _, rfl⟩

theorem LineEffect.dispatchEffect {s t : State} (h : LineEffect s t) : DispatchEffect s t := by
  obtain ⟨_, _, _, _, _, rfl⟩ := h
  exact ⟨_, _, _, _, _, _, _, _, _, rfl⟩

theorem DispatchEffect.window {s t : State} (h : DispatchEffect s t) :
    t.winLo = s.winLo ∧ t.winHi = s.winHi := by
  obtain ⟨_, _, _, _, _, _, _, _, _, rfl⟩ := h
  exact ⟨rfl, rfl⟩

theorem asmline_effect {start stop : F64} {s t : State} {u : Unit} (h : asmline start stop s = .ok u t) :
    DispatchEffect s t ∧ t.fault = s.fault := by
  rcases asmline_cases start stop s with ⟨-, he⟩ | ⟨row, vals, -, -, -, he⟩ | ⟨row, w, -, -, he⟩ <;>
    rw [he] at h <;> simp at h <;> rw [← h]
  · exact ⟨DispatchEffect.refl s, rfl⟩
  · exact ⟨⟨_, _, _, _, _, _, _, _, _, rfl⟩, rfl⟩

theorem asmline_not_raised (start stop : F64) (s t : State) : asmline start stop s ≠ .raised t := by
  rcases asmline_cases start stop s with ⟨-, he⟩ | ⟨row, vals, -, -, -, he⟩ | ⟨row, w, -, -, he⟩ <;>
    rw [he] <;> simp

/-- CLS.ACTIVE: what it changes, and when it records a fault. -/
theorem clsActive_effect {linelen : F64} {s t : State} :
    (∀ u, clsActive linelen s = .ok u t → DispatchEffect s t ∧ t.fault = s.fault) ∧
      (clsActive linelen s = .raised t → DispatchEffect s t ∧ BoundsRecorded s t) := by
  unfold clsActive
  cases s.readPrev with
  | error w => simp
  | ok prev =>
    constructor
    · intro u h
      simp only [Res.andThen_eq_ok, Res.ok.injEq] at h
      obtain ⟨b, s1, h1, _, s2, h2, -, rfl⟩ := h
      obtain ⟨he, hf⟩ := asmline_effect h2
      refine ⟨((pcl_effect (.inl h1)).dispatchEffect.trans he).trans ⟨_, _, _, _, _, _, _, _, _, rfl⟩, ?_⟩
      show s2.fault = s.fault
      rw [hf, pcl_fault.1 _ h1]
    · intro h
      simp only [Res.andThen_eq_raised, asmline_not_raised, reduceCtorEq, and_false, exists_false, or_false] at h
      exact ⟨(pcl_effect (.inr h) (r := default)).dispatchEffect, pcl_fault.2 h⟩

theorem clsNewframe_effect (s : State) : DispatchEffect s (clsNewframe s) ∧ (clsNewframe s).fault = s.fault := by
  unfold clsNewframe
  cases s.fbDirty <;> exact ⟨⟨_, _, _, _, _, _, _, _, _, rfl⟩, rfl⟩

theorem phresync_effect (s : State) : DispatchEffect s (phresync s) ∧ (phresync s).fault = s.fault := by
  unfold phresync
  split
  · exact ⟨⟨_, _, _, _, _, _, _, _, _, rfl⟩, rfl⟩
  · exact ⟨DispatchEffect.refl s, rfl⟩

/-- A classification outcome: what it changes, and when it records a fault. -/
theorem runOutcome_effect {c : Cls} {linelen : F64} {s t : State} :
    (∀ u, runOutcome c linelen s = .ok u t → DispatchEffect s t ∧ t.fault = s.fault) ∧
      (runOutcome c linelen s = .raised t → DispatchEffect s t ∧ BoundsRecorded s t) := by
  cases c
  case active => exact clsActive_effect
  case newframe =>
    refine ⟨fun u h => ?_, fun h => by simp [runOutcome] at h⟩
    simp only [runOutcome, Res.ok.injEq] at h
    rw [← h.2]
    exact clsNewframe_effect s
  all_goals
    refine ⟨fun u h => ?_, fun h => by simp [runOutcome] at h⟩
    simp only [runOutcome, Res.ok.injEq] at h
    rw [← h.2]
    exact ⟨⟨_, _, _, _, _, _, _, _, _, rfl⟩, rfl⟩

/-- DISPATCH: what it changes, and when it records a fault (R173). -/
theorem dispatch_effect {xpt : F64} {count : Nat} {s t : State} :
    (∀ u, dispatch xpt count s = .ok u t → DispatchEffect s t ∧ t.fault = s.fault) ∧
      (dispatch xpt count s = .raised t → DispatchEffect s t ∧ BoundsRecorded s t) := by
  unfold dispatch
  cases s.readPrev with
  | error w => simp
  | ok prev =>
    constructor
    · intro u h
      simp only [Res.andThen_eq_ok, Res.ok.injEq] at h
      obtain ⟨_, s1, h1, -, rfl⟩ := h
      obtain ⟨he, hf⟩ := runOutcome_effect.1 _ h1
      obtain ⟨he', hf'⟩ := phresync_effect s1
      exact ⟨he.trans he', hf'.trans hf⟩
    · intro h
      simp only [Res.andThen_eq_raised, reduceCtorEq, and_false, exists_false, or_false] at h
      exact runOutcome_effect.2 h

/-! ### STEP -/

/-- `t` is `s` but for what STEP writes: what DISPATCH writes and the sync detector's registers (R171). -/
def StepEffect (s t : State) : Prop :=
  ∃ a m fi fq f l fb d k pv p b c x xv fp n sf, t =
    { s with
      tgtPhase := a, nl := m, fi := fi, fq := fq, fault := f, line2 := l, fb := fb, fbDirty := d,
      sink := k, prevValid := pv, prevCrosspoint := p, below := b, count := c, xpt := x, xptValid := xv,
      fPrev := fp, scanPos := n, sf := sf }

theorem StepEffect.refl (s : State) : StepEffect s s :=
  ⟨_, _, _, _, _, _, _, _, _, _, _, _, _, _, _, _, _, _, rfl⟩

theorem StepEffect.trans {s t u : State} (h : StepEffect s t) (h' : StepEffect t u) : StepEffect s u := by
  obtain ⟨_, _, _, _, _, _, _, _, _, _, _, _, _, _, _, _, _, _, rfl⟩ := h
  obtain ⟨_, _, _, _, _, _, _, _, _, _, _, _, _, _, _, _, _, _, rfl⟩ := h'
  exact ⟨_, _, _, _, _, _, _, _, _, _, _, _, _, _, _, _, _, _, rfl⟩

theorem DispatchEffect.stepEffect {s t : State} (h : DispatchEffect s t) : StepEffect s t := by
  obtain ⟨_, _, _, _, _, _, _, _, _, rfl⟩ := h
  exact ⟨_, _, _, _, _, _, _, _, _, _, _, _, _, _, _, _, _, _, rfl⟩

theorem StepEffect.window {s t : State} (h : StepEffect s t) : t.winLo = s.winLo ∧ t.winHi = s.winHi := by
  obtain ⟨_, _, _, _, _, _, _, _, _, _, _, _, _, _, _, _, _, _, rfl⟩ := h
  exact ⟨rfl, rfl⟩

/-- Everything FFEED can do (R122, R33). -/
theorem ffeed_cases (f : FilterId) (v : F64) (s : State) :
    ((s.filter f).cleared = true ∧
        ffeed f v s = .ok ((s.filter f).output (coefOf s.cfg f) v)
          (s.setFilter f ((s.filter f).advance (coefOf s.cfg f) v))) ∨
      ((s.filter f).cleared = false ∧ ffeed f v s = .stopped (.refusal (.noValue (.filter f)))) := by
  unfold ffeed
  cases (s.filter f).cleared <;> simp

theorem acceptCrossing_effect {xpt : F64} {s t : State} :
    (∀ u, acceptCrossing xpt s = .ok u t → StepEffect s t ∧ t.fault = s.fault) ∧
      (acceptCrossing xpt s = .raised t → StepEffect s t ∧ BoundsRecorded s t) := by
  unfold acceptCrossing
  constructor
  · intro u h
    simp only [Res.andThen_eq_ok, Res.ok.injEq] at h
    obtain ⟨_, s1, h1, -, rfl⟩ := h
    have hacc : StepEffect s1 (s1.acceptCrossing xpt) :=
      ⟨_, _, _, _, _, _, _, _, _, _, _, _, _, _, _, _, _, _, rfl⟩
    split at h1
    · obtain ⟨he, hf⟩ := dispatch_effect.1 _ h1
      exact ⟨he.stepEffect.trans hacc, hf⟩
    · simp only [Res.ok.injEq] at h1
      obtain ⟨-, rfl⟩ := h1
      exact ⟨hacc, rfl⟩
  · intro h
    simp only [Res.andThen_eq_raised, reduceCtorEq, and_false, exists_false, or_false] at h
    split at h
    · obtain ⟨he, hf⟩ := dispatch_effect.2 h
      exact ⟨he.stepEffect, hf⟩
    · simp at h

theorem completeRun_effect {s t : State} :
    (∀ u, completeRun s = .ok u t → StepEffect s t ∧ t.fault = s.fault) ∧
      (completeRun s = .raised t → StepEffect s t ∧ BoundsRecorded s t) := by
  unfold completeRun
  split
  · cases s.readXpt with
    | error w => simp
    | ok x => exact acceptCrossing_effect
  · constructor
    · intro u h
      simp only [Res.ok.injEq] at h
      rw [← h.2]
      exact ⟨StepEffect.refl s, rfl⟩
    · simp

theorem trackCrossing_effect {n : Nat} {f : F64} {s t : State} :
    (∀ u, trackCrossing n f s = .ok u t → StepEffect s t ∧ t.fault = s.fault) ∧
      (trackCrossing n f s = .raised t → StepEffect s t ∧ BoundsRecorded s t) := by
  have hclose : StepEffect s s.closeRun := ⟨_, _, _, _, _, _, _, _, _, _, _, _, _, _, _, _, _, _, rfl⟩
  unfold trackCrossing
  split
  · split
    · constructor
      · intro u h
        simp only [Res.ok.injEq] at h
        rw [← h.2]
        exact ⟨⟨_, _, _, _, _, _, _, _, _, _, _, _, _, _, _, _, _, _, rfl⟩, rfl⟩
      · simp
    · constructor
      · intro u h
        simp only [Res.ok.injEq] at h
        rw [← h.2]
        exact ⟨⟨_, _, _, _, _, _, _, _, _, _, _, _, _, _, _, _, _, _, rfl⟩, rfl⟩
      · simp
  · split
    · constructor
      · intro u h
        obtain ⟨he, hf⟩ := completeRun_effect.1 _ h
        exact ⟨hclose.trans he, hf⟩
      · intro h
        obtain ⟨he, hf⟩ := completeRun_effect.2 h
        exact ⟨hclose.trans he, hf.of_window rfl rfl⟩
    · constructor
      · intro u h
        simp only [Res.ok.injEq] at h
        rw [← h.2]
        exact ⟨StepEffect.refl s, rfl⟩
      · simp

/-- STEP: what it changes, that it moves `scan_pos` by one when it returns, and when it records a fault
(R27, R171, R264). -/
theorem stepOp_effect {s t : State} :
    (∀ u, stepOp s = .ok u t → StepEffect s t ∧ t.fault = s.fault ∧ t.scanPos = s.scanPos + 1) ∧
      (stepOp s = .raised t → StepEffect s t ∧ BoundsRecorded s t) := by
  simp only [stepOp]
  cases hr : s.readSample s.scanPos with
  | none =>
    constructor
    · intro u h
      simp [raiseBounds] at h
    · intro h
      simp only [raiseBounds, Res.raised.injEq] at h
      rw [← h]
      exact ⟨⟨_, _, _, _, _, _, _, _, _, _, _, _, _, _, _, _, _, _, rfl⟩,
        ⟨_, rfl, State.readSample_eq_none.mp hr⟩⟩
  | some c =>
    rcases ffeed_cases .sf (F64.ofCode c) s with ⟨-, he⟩ | ⟨-, he⟩
    · simp only [he, Res.ok_andThen]
      have hfeed : StepEffect s (s.setFilter .sf ((s.filter .sf).advance (coefOf s.cfg .sf) (F64.ofCode c))) :=
        ⟨_, _, _, _, _, _, _, _, _, _, _, _, _, _, _, _, _, _, rfl⟩
      constructor
      · intro u h
        simp only [Res.andThen_eq_ok, Res.ok.injEq] at h
        obtain ⟨_, s1, h1, -, rfl⟩ := h
        obtain ⟨he1, hf1⟩ := trackCrossing_effect.1 _ h1
        exact ⟨(hfeed.trans he1).trans ⟨_, _, _, _, _, _, _, _, _, _, _, _, _, _, _, _, _, _, rfl⟩, hf1, rfl⟩
      · intro h
        simp only [Res.andThen_eq_raised, reduceCtorEq, and_false, exists_false, or_false] at h
        obtain ⟨he1, hf1⟩ := trackCrossing_effect.2 h
        exact ⟨hfeed.trans he1, hf1.of_window rfl rfl⟩
    · simp only [he, Res.stopped_andThen]
      simp

/-- PROCESS's loop: what it changes, and when it records a fault (R251). -/
theorem processLoop_effect {k : Nat} {s t : State} :
    (∀ u, processLoop k s = .ok u t → StepEffect s t ∧ t.fault = s.fault) ∧
      (processLoop k s = .raised t → StepEffect s t ∧ BoundsRecorded s t) := by
  induction k generalizing s with
  | zero =>
    constructor
    · intro u h
      simp only [processLoop, Res.ok.injEq] at h
      rw [← h.2]
      exact ⟨StepEffect.refl s, rfl⟩
    · simp [processLoop]
  | succ k ih =>
    simp only [processLoop]
    split
    · constructor
      · intro u h
        simp only [Res.andThen_eq_ok] at h
        obtain ⟨_, s1, h1, h2⟩ := h
        obtain ⟨he1, hf1, -⟩ := stepOp_effect.1 _ h1
        obtain ⟨he2, hf2⟩ := ih.1 _ h2
        exact ⟨he1.trans he2, hf2.trans hf1⟩
      · intro h
        simp only [Res.andThen_eq_raised] at h
        rcases h with h | ⟨_, s1, h1, h2⟩
        · exact stepOp_effect.2 h
        · obtain ⟨he1, hf1, -⟩ := stepOp_effect.1 _ h1
          obtain ⟨he2, hf2⟩ := ih.2 h2
          exact ⟨he1.trans he2, hf2.of_window he1.window.1 he1.window.2⟩
    · constructor
      · intro u h
        simp only [Res.ok.injEq] at h
        rw [← h.2]
        exact ⟨StepEffect.refl s, rfl⟩
      · simp

/-! ### The host -/

/-- What the host's issuing of an operation can do. -/
theorem State.hostIssue_cases (s : State) (i : Instr) :
    (hostInvokes i = true ∧ s.hostIssue i = .next (s.setQueue (s.hostQueue ++ encode i))) ∨
      (hostInvokes i = false ∧ s.hostIssue i = .refused (.hostProtocol .notHostOperation)) := by
  unfold State.hostIssue
  cases hostInvokes i <;> simp

end Sys2Proof.Machine
end

