-- ==== Sys2Proof/Tests/Slice0.lean ====
section
/-! SUPPORT. Tests: ill-formed operations are refused, words written out from R98 decode, the spec's worked
examples and test vectors come out (`spec/95_test_vectors.md` and the examples of the rules, whose values are the
spec's), and for every statement with hypotheses a state and operands that meet them. -/

namespace Sys2Proof.Tests

set_option Elab.async false

open Sys2Proof Sys2Proof.Machine Sys2Proof.Claims

/-! ### Helpers -/

/-- Right after RESET under REF. -/
def idle : State := State.ofConfig Config.ref

/-- What an operation returned, if it answers a next state. -/
def returned (o : Host.Outcome State Fault Refusal) : Option Result :=
  match o with
  | .next t => some t.ret
  | _ => none

/-- One field of the next state, if there is one. -/
def after {α : Type} (o : Host.Outcome State Fault Refusal) (f : State → α) : Option α :=
  match o with
  | .next t => some (f t)
  | _ => none

/-- The operation answers a next state with no fault recorded. -/
def completes (o : Host.Outcome State Fault Refusal) : Bool := after o (fun t => t.fault) == some none

/-- The operation takes the fault. -/
def faults (o : Host.Outcome State Fault Refusal) : Bool :=
  match o with
  | .next t => t.fault.isSome
  | _ => false

/-- The next state, or `idle`. -/
def nextState (o : Host.Outcome State Fault Refusal) : State :=
  match o with
  | .next t => t
  | _ => idle

theorem eq_next {o : Host.Outcome State Fault Refusal} (h : completes o = true) :
    o = .next (nextState o) ∧ (nextState o).fault = none := by
  cases o <;> simp_all [completes, after, nextState]

theorem eq_next_of_faults {o : Host.Outcome State Fault Refusal} (h : faults o = true) :
    o = .next (nextState o) ∧ (nextState o).fault ≠ none := by
  cases o <;> simp_all [faults, nextState, Option.isSome_iff_ne_none]

/-- The real of a whole number. -/
def real (i : Int) : F64 := F64.ofInt i

/-- The bytes of a stream of codes from index 0, low byte first (R61, SAMPLE_BYTE_ORDER of REF). -/
def stream (codes : List Code) : Memory :=
  Cells.write (some Memory.fill) [] 0 (codes.flatMap (bytesOfCode .little))

/-- A pure gain of 1 as a filter: unity DC gain, no delay line (R120, R121). -/
def gainOne : FilterSpec := ⟨Config.ONE, [], []⟩

/-- A block in mid-run: a reference crossing at 1000, an ordinary line, a long window of codes 0, and a
heterodyne table of ones. -/
def running : State :=
  { State.ofConfig { Config.ref with burstCoef := gainOne } with
    prevValid := true, prevCrosspoint := real 1000, line2 := 24, winHi := 100000
    het := List.replicate 128 (Config.ONE, Config.ZERO) }

/-! ### Well-formedness and decoding -/

/-- The only operand range that a term can break: SCALE's output length is at least 1 (R151). -/
theorem test_scale_no_output : (Instr.scale Config.ZERO Config.ONE 0).wellFormed = false := by decide
theorem test_integers_are_unbounded :
    decode (encode (.process (2 ^ 64 + 5) (2 ^ 100))) = .ok (.process (2 ^ 64 + 5) (2 ^ 100), []) ∧
      decode (encode (.burst (-(2 ^ 70)))) = .ok (.burst (-(2 ^ 70)), []) := by decide +kernel

theorem test_decode_reset :
    decode [0x00#8] = .ok (.reset, []) := by
  decide
theorem test_decode_process :
    decode [0x01#8, 0xF8#8, 0x0D#8, 0xA0#8, 0x1E#8] = .ok (.process 1912 4000, []) := by
  decide
theorem test_decode_step :
    decode [0x10#8] = .ok (.step, []) := by
  decide
theorem test_decode_dispatch :
    decode [0x11#8, 0x00#8, 0x00#8, 0x00#8, 0x00#8, 0x00#8, 0x08#8, 0xA6#8, 0x40#8, 0x5F#8] =
      .ok (.dispatch ⟨0x40A6080000000000#64⟩ 95, []) := by
  decide
theorem test_decode_clsActive :
    decode [0x20#8, 0x00#8, 0x00#8, 0x00#8, 0x00#8, 0x00#8, 0x70#8, 0x9C#8, 0x40#8, 0x5B#8] =
      .ok (.clsActive ⟨0x409C700000000000#64⟩ 91, []) := by
  decide
theorem test_decode_clsField2 :
    decode [0x21#8] = .ok (.clsField2, []) := by
  decide
theorem test_decode_clsNewframe :
    decode [0x22#8] = .ok (.clsNewframe, []) := by
  decide
theorem test_decode_clsVsync :
    decode [0x23#8] = .ok (.clsVsync, []) := by
  decide
theorem test_decode_clsHalf :
    decode [0x24#8] = .ok (.clsHalf, []) := by
  decide
theorem test_decode_clsSkip :
    decode [0x25#8] = .ok (.clsSkip, []) := by
  decide
theorem test_decode_clsNone :
    decode [0x26#8] = .ok (.clsNone, []) := by
  decide
theorem test_decode_phresync :
    decode [0x27#8] = .ok (.phresync, []) := by
  decide
theorem test_decode_fclr :
    decode [0x30#8, 0x01#8, 0x00#8, 0x00#8, 0x00#8, 0x00#8, 0x00#8, 0x00#8, 0x59#8, 0x40#8] = .ok (.fclr
      .fi ⟨0x4059000000000000#64⟩, []) := by
  decide
theorem test_decode_ffeed :
    decode [0x31#8, 0x02#8, 0x00#8, 0x00#8, 0x00#8, 0x00#8, 0x00#8, 0x00#8, 0xF8#8, 0xBF#8] = .ok (.ffeed
      .fq ⟨0xBFF8000000000000#64⟩, []) := by
  decide
theorem test_decode_hetgen :
    decode [0x32#8] = .ok (.hetgen, []) := by
  decide
theorem test_decode_s2ire :
    decode [0x33#8, 0x34#8, 0x12#8] = .ok (.s2ire 0x1234#16, []) := by
  decide
theorem test_decode_ire2s :
    decode [0x34#8, 0x00#8, 0x00#8, 0x00#8, 0x00#8, 0x00#8, 0x00#8, 0x1E#8, 0x40#8] = .ok (.ire2s
      ⟨0x401E000000000000#64⟩, []) := by
  decide
theorem test_decode_cubic :
    decode [0x35#8, 0x00#8, 0x00#8, 0x00#8, 0x00#8, 0x00#8, 0x00#8, 0x24#8, 0x40#8, 0x00#8, 0x00#8,
      0x00#8, 0x00#8, 0x00#8, 0x00#8, 0x34#8, 0x40#8, 0x00#8, 0x00#8, 0x00#8, 0x00#8, 0x00#8, 0x00#8,
      0x3E#8, 0x40#8, 0x00#8, 0x00#8, 0x00#8, 0x00#8, 0x00#8, 0x00#8, 0x44#8, 0x40#8, 0x00#8, 0x00#8,
      0x00#8, 0x00#8, 0x00#8, 0x00#8, 0xE0#8, 0x3F#8] = .ok (.cubic ⟨0x4024000000000000#64⟩
      ⟨0x4034000000000000#64⟩ ⟨0x403E000000000000#64⟩ ⟨0x4044000000000000#64⟩ ⟨0x3FE0000000000000#64⟩, [])
      := by
  decide
theorem test_decode_scale :
    decode [0x36#8, 0x00#8, 0x00#8, 0x00#8, 0x00#8, 0x00#8, 0x00#8, 0x10#8, 0x40#8, 0x00#8, 0x00#8,
      0x00#8, 0x00#8, 0x00#8, 0x00#8, 0x28#8, 0x40#8, 0x03#8] = .ok (.scale ⟨0x4010000000000000#64⟩ ⟨0x4028000000000000#64⟩ 4, []) := by
  decide
theorem test_decode_burst :
    decode [0x37#8, 0x01#8] = .ok (.burst (-1), []) := by
  decide
theorem test_decode_wrap :
    decode [0x38#8, 0x00#8, 0x00#8, 0x00#8, 0x00#8, 0x00#8, 0x00#8, 0x10#8, 0x40#8] = .ok (.wrap
      ⟨0x4010000000000000#64⟩, []) := by
  decide
theorem test_decode_tgtupd :
    decode [0x39#8, 0x66#8, 0x66#8, 0x66#8, 0x66#8, 0x66#8, 0x66#8, 0x06#8, 0xC0#8] = .ok (.tgtupd
      ⟨0xC006666666666666#64⟩, []) := by
  decide
theorem test_decode_pcl :
    decode [0x3A#8, 0x00#8, 0x00#8, 0x00#8, 0x00#8, 0x00#8, 0x40#8, 0x8F#8, 0x40#8, 0x00#8, 0x00#8,
      0x00#8, 0x00#8, 0x00#8, 0x10#8, 0xA8#8, 0x40#8] = .ok (.pcl ⟨0x408F400000000000#64⟩
      ⟨0x40A8100000000000#64⟩, []) := by
  decide
theorem test_decode_maprow :
    decode [0x3B#8, 0x05#8] = .ok (.maprow (-3), []) := by
  decide
theorem test_decode_lvladj :
    decode [0x3C#8, 0x00#8, 0x00#8, 0x00#8, 0x00#8, 0x00#8, 0x00#8, 0x00#8, 0x00#8, 0x00#8, 0x00#8,
      0x00#8, 0x00#8, 0x00#8, 0x40#8, 0xA0#8, 0x40#8] = .ok (.lvladj ⟨0x0000000000000000#64⟩
      ⟨0x40A0400000000000#64⟩, []) := by
  decide
theorem test_decode_asmline :
    decode [0x3D#8, 0xF6#8, 0x28#8, 0x5C#8, 0x8F#8, 0x42#8, 0x08#8, 0xA6#8, 0x40#8, 0x0A#8, 0xD7#8,
      0xA3#8, 0x70#8, 0xBD#8, 0x23#8, 0xB3#8, 0x40#8] = .ok (.asmline ⟨0x40A608428F5C28F6#64⟩
      ⟨0x40B323BD70A3D70A#64⟩, []) := by
  decide
theorem test_decode_emit :
    decode [0x3E#8] = .ok (.emit, []) := by
  decide
theorem test_decode_refuses :
    decode [0x3F#8] = .error (.reservedSelector 0x3F#8) ∧ decode [0x02#8] = .error (.reservedSelector 0x02#8) ∧
      decode [0x37#8, 0x80#8] = .error .truncated ∧ decode [] = .error .truncated ∧
      decode (0x30#8 :: 0x03#8 :: List.replicate 8 0x00#8) = .error (.reservedFilter 0x03#8) := by decide
theorem test_fetch_word :
    after (step (idle.withFetchWord 8 0x21)) (fun t => (t.line2, t.hostQueue)) = some (525, []) ∧
      after (step (idle.withFetchWord 8 0x36)) (fun t => (t.fault, t.hostQueue)) =
        some (some ⟨.fBounds, 1⟩, []) := by decide +kernel

/-! ### Constants (R7, R10, R290) -/

theorem test_reals_of_the_rules :
    F64.div (real 13) (real 10) = Config.GAIN ∧ F64.div (real 84) (real 100) = Config.VEL ∧
      F64.div (real 9) (real 10) = Config.NINE_TENTHS ∧ Config.ACTIVE_MIN = real 1638 ∧
      Config.HALF_PI = ⟨0x3FF921FB54442D18#64⟩ ∧ Config.NEG_THREE_QUARTER_PI = ⟨0xC002D97C7F3321D2#64⟩ := by
  decide +kernel
theorem test_ref_is_valid : Config.ref.valid = true ∧ Config.ref.ext = F64.div (real 8) (real 7) := by
  decide +kernel
theorem test_broken_configurations :
    ({ Config.ref with scaleTgt := 2059 } : Params).problem = some .scaleTarget ∧
      ({ Config.ref with hetLen := 99 } : Params).problem = some .hetLength ∧
      ({ Config.ref with chunkMax := 520 } : Params).problem = some .chunkMax ∧
      ({ Config.ref with physGain := F64.neg Config.ZERO } : Params).problem = some .physGainZero := by
  decide +kernel

/-! ### Filters and the level codec (R121, R122, R126, R140, R141, R143) -/

/-- R122's IIR example, cleared to 8: feeding 16 after 8, 0, 0 gives 7.375. -/
def iir : FilterSpec := ⟨⟨0x3FD0000000000000#64⟩, [], [⟨0xBFE8000000000000#64⟩]⟩
def iirState : State :=
  { State.ofConfig { Config.ref with burstCoef := iir } with fi := ⟨[], [⟨0x4012000000000000#64⟩], true⟩ }

theorem test_fclr :
    after (exec (.fclr .fq (real 100)) idle) (fun t => (t.fq, t.fi.cleared)) =
      some (⟨List.replicate 7 (real 100), [], true⟩, false) := by decide +kernel
theorem test_ffeed_fir :
    after (exec (.ffeed .sf (real 50)) { idle with sf := ⟨[real 0], [], true⟩ }) (fun t => (t.ret, t.sf.x)) =
      some (.real (real 25), [real 50]) := by decide +kernel
theorem test_ffeed_iir :
    after (exec (.ffeed .fi (real 16)) iirState) (fun t => (t.ret, t.fi.y)) =
      some (.real ⟨0x401D800000000000#64⟩, [⟨0x401D800000000000#64⟩]) := by decide +kernel
/-- Machin's formula for the digits of π: 4·(4·arctan 1/5 - arctan 1/239), in units of 2^-1600. -/
def arctanInverse (x : Nat) : Nat → Nat → Nat → Int
  | 0, _, _ => 0
  | k + 1, power, n => (power / n : Nat) - arctanInverse x k (power / (x * x)) (n + 2)
theorem test_pi_digits :
    (4 * (4 * arctanInverse 5 350 (2 ^ 1600 / 5) 1 - arctanInverse 239 110 (2 ^ 1600 / 239) 1)) / 2 ^ 64 =
      piFixed := by decide +kernel
/-- The vectors V-HET 1 to 8 are each one of the two values that enclose the exact one. -/
theorem test_het_vectors : ((List.range 8).map (· + 1)).all (fun k =>
    let exact := cosSin (tableAngle k)
    let entry := printedTable.getD k (Config.ZERO, Config.ZERO)
    [false, true].any (fun away => enclosing exact.1 away == entry.1) &&
      [false, true].any (fun away => enclosing exact.2 away == entry.2)) = true := by decide +kernel
/-- Angles of the repaired detector (R162) against the correctly rounded ones, one next to 0 and one next to -π among
them: each is one of the two values the model allows. -/
theorem test_arctan2 :
    [(real 1, real 2, (⟨0x3FDDAC670561BB4F#64⟩ : F64)), (real 1, real 1, ⟨0x3FE921FB54442D18#64⟩),
      (real (-1), real (-1), ⟨0xC002D97C7F3321D2#64⟩), (real 3, real (-4), ⟨0x4003FC176B7A8560#64⟩),
      (real (-4), real 3, ⟨0xBFEDAC670561BB4F#64⟩), (⟨0x0010000000000000#64⟩, real 1, ⟨0x0010000000000000#64⟩),
      (⟨0x8000000000000001#64⟩, real (-1), F64.neg Config.PI)].all (fun c =>
        [false, true].any fun away => enclosingAngle c.1 c.2.1 away == c.2.2) = true := by decide +kernel
theorem test_arctan2_on_the_axis :
    arctan2 Config.ZERO (real (-7)) = Config.PI ∧ arctan2 Config.ZERO (real 7) = Config.ZERO ∧
      arctan2 (F64.neg Config.ZERO) (real (-7)) = Config.PI := by decide +kernel
theorem test_hetgen :
    after (exec .hetgen { idle with het := [] }) (fun t => (t.het.length, t.het[0]?)) =
      some (128, some (Config.ONE, Config.ZERO)) := by decide +kernel
theorem test_s2ire :
    returned (exec (.s2ire 16384#16) idle) = some (.real ⟨0x3F5E005A010E0000#64⟩) ∧
      returned (exec (.s2ire 0#16) idle) = some (.real (real (-100))) := by decide +kernel
theorem test_s2ire_top :
    returned (exec (.s2ire 65533#16) idle) = some (.real (real 120)) ∧
      returned (exec (.s2ire 65535#16) idle) = some (.real ⟨0x405E005000F002D0#64⟩) := by decide +kernel
theorem test_ire2s :
    returned (exec (.ire2s ⟨0x401E000000000000#64⟩) idle) = some (.code 19456#16) ∧
      returned (exec (.ire2s ⟨0x405DFFEF9DB22D0E#64⟩) idle) = some (.code 65534#16) := by decide +kernel
theorem test_ire2s_clamps :
    returned (exec (.ire2s (real (-60))) idle) = some (.code 0#16) ∧
      returned (exec (.ire2s (real (-40))) idle) = some (.code 1#16) ∧
      returned (exec (.ire2s (real 120)) idle) = some (.code 65535#16) := by decide +kernel
theorem test_round_trip :
    ire2s (s2ire 1#16) = 2#16 ∧ ire2s (s2ire 65532#16) = 65533#16 ∧ ire2s (s2ire 65533#16) = 65535#16 ∧
      ire2s (s2ire 65535#16) = 65535#16 := by decide +kernel

/-! ### The Resampler (R150, R151, R261) -/

theorem test_cubic :
    returned (exec (.cubic (real 0) (real 100) (real 0) (real 0) ⟨0x3FD0000000000000#64⟩) idle) = some (.real ⟨0x4055AE0000000000#64⟩) ∧
      returned (exec (.cubic (real 10) (real 20) (real 30) (real 40) ⟨0xBFE0000000000000#64⟩) idle) = some (.real (real 15)) := by
  decide +kernel

/-- S[n] = 10·n for n < 64, all of it in the window (the examples of R151). -/
def ramp : State :=
  { idle with winHi := 64, samples := stream ((List.range 64).map fun n => BitVec.ofNat 16 (10 * n)) }

theorem test_scale :
    after (exec (.scale ⟨0x3FE0000000000000#64⟩ ⟨0x4012000000000000#64⟩ 4) ramp) (fun t => t.nl) =
      some [(0, real 5), (1, real 15), (2, real 25), (3, real 35)] := by decide +kernel
theorem test_scale_fault :
    after (exec (.scale (real 50) (real 66) 4) ramp) (fun t => (t.fault, t.nl)) =
      some (some ⟨.fBounds, 64⟩, [(0, real 500), (1, real 540), (2, real 580)]) := by decide +kernel

/-! ### Burst and phase (R160, R210, R211, R212) -/

/-- A line of 16384 through a pure gain: the magnitude is sqrt(16384² + 16384²), met first at sample 16. -/
def burstLine : State := { running with nl := Cells.run 140 (List.replicate 100 (real 16384)) }

theorem test_burst :
    returned (exec (.burst 0) burstLine) = some (.pair ⟨0x40D6A09E667F3BCD#64⟩ ⟨0x40D6A09E667F3BCD#64⟩) := by
  decide +kernel
theorem test_burst_skips_the_warm_up :
    returned (exec (.burst 0)
      { running with nl := Cells.run 140 (List.replicate 16 (real 9) ++ List.replicate 84 (real 0)) }) =
      some (.pair (real 0) (real 0)) := by decide +kernel
theorem test_wrap :
    returned (exec (.wrap (real 4)) idle) = some (.real ⟨0xC00243F6A8885A30#64⟩) ∧
      returned (exec (.wrap (F64.neg Config.PI)) idle) = some (.real Config.PI) := by decide +kernel
theorem test_wrap_more :
    returned (exec (.wrap ⟨0xC0117BB208443E79#64⟩) idle) = some (.real ⟨0x3FFE99252FFFBA7C#64⟩) ∧
      returned (exec (.wrap Config.PI) idle) = some (.real Config.PI) := by decide +kernel
theorem test_tgtupd_selects :
    after (exec (.tgtupd ⟨0xC006666666666666#64⟩) idle) (fun t => t.tgtPhase) = some halfPi ∧
      after (exec (.tgtupd ⟨0xC002666666666666#64⟩) idle) (fun t => t.tgtPhase) = some minusHalfPi ∧
      after (exec (.tgtupd minusThreeQuarterPi) idle) (fun t => t.tgtPhase) = some halfPi := by decide +kernel
theorem test_tgtupd_negates :
    after (exec (.tgtupd ⟨0x3FD3333333333333#64⟩) { idle with tgtPhase := halfPi }) (fun t => t.tgtPhase) = some minusHalfPi := by
  decide +kernel
/-- R212's worked example, a line of phase 0: both bounds move by -1.3·π/2. -/
theorem test_pcl_corrections :
    nextTarget Config.ZERO Config.ZERO = halfPi ∧
      nudge (real 1000) (phaseError Config.ZERO halfPi) = ⟨0x408F2FA9E96FA07C#64⟩ ∧
      nudge (real 3080) (phaseError Config.ZERO halfPi) = ⟨0x40A80BEA7A5BE81F#64⟩ := by decide +kernel
/-- The second read of the first output sample is refused: nothing measured, the target as it was (R264). -/
theorem test_pcl_fault :
    after (exec (.pcl (real 1000) (real 3080)) { running with winHi := 1000 }) (fun t => (t.fault, t.tgtPhase)) =
      some (some ⟨.fBounds, 1000⟩, Config.ZERO) := by decide +kernel

/-! ### The Line Tracker (R190 to R199): (line, linelen, count) → line' -/

/-- A dispatch at 2·line, with the interval from the reference at 1000. -/
def lineAfter (line2 : Int) (linelen : F64) (count : Nat) : Option Int :=
  after (exec (.dispatch (F64.add (real 1000) linelen) count) { running with line2 := line2 }) fun t => t.line2

theorem test_active_boundaries :
    classify 10 (real 1638) 91 = .active ∧ classify 10 (real 1638) 90 = .none ∧
      classify 10 ⟨0x409997999999999A#64⟩ 95 = .none ∧ classify 1048 (real 1850) 95 = .active := by decide +kernel
theorem test_clsActive_fault :
    after (exec (.clsActive (real 1820) 95) { running with winHi := 1000 }) (fun t => (t.fault, t.line2)) =
      some (some ⟨.fBounds, 1000⟩, 24) := by decide +kernel
theorem test_field2 : lineAfter (-2) (real 900) 100 = some 525 ∧ lineAfter (-2) (real 900) 80 = some (-2) ∧
    lineAfter (-2) (real 900) 160 = some (-2) ∧ lineAfter (-2) (real 1000) 100 = some (-2) := by decide +kernel
theorem test_newframe : lineAfter (-2) (real 1850) 60 = some 2 ∧ lineAfter 1041 (real 1850) 60 = some 2 ∧
    lineAfter 1040 (real 1850) 60 = some 1042 ∧ lineAfter (-2) (real 1850) 80 = some (-2) := by decide +kernel
theorem test_vsync : lineAfter (-4) (real 1820) 134 = some (-2) ∧ lineAfter (-4) (real 1820) 80 = some (-4) ∧
    lineAfter (-4) (real 1800) 134 = some (-4) := by decide +kernel
theorem test_half : lineAfter 10 (real 900) 100 = some 11 ∧ lineAfter 10 (real 800) 100 = some 10 ∧
    lineAfter 10 (real 1000) 100 = some 10 := by decide +kernel
theorem test_skip : lineAfter 10 (real 1820) 90 = some 12 ∧ lineAfter 10 ⟨0x409A920000000000#64⟩ 50 = some 12 ∧
    lineAfter 10 (real 1700) 50 = some 10 := by decide +kernel
theorem test_none : lineAfter 10 (real 1200) 50 = some 10 ∧ lineAfter (-2) (real 1820) 134 = some (-2) := by
  decide +kernel
theorem test_newframe_emits :
    after (exec .clsNewframe { running with fbDirty := true, fb := [(0, Config.ONE)] })
      (fun t => (t.sink, t.fb, t.fbDirty)) = some ([[(0, Config.ONE)]], [], false) := by decide +kernel
theorem test_phresync :
    (after (exec .phresync { running with line2 := 545, tgtPhase := halfPi }) fun t => t.tgtPhase) =
      some Config.ZERO ∧
    (after (exec .phresync { running with line2 := 546, tgtPhase := halfPi }) fun t => t.tgtPhase) =
      some halfPi := by decide +kernel

/-! ### The Frame Assembler (R230 to R234) -/

theorem test_maprow : (([2, 18, 20, 21, 22, 522, 523, 524, 542, 544, 545, 546, 547, 548, 1048, 1050] : List Int).map
    fun l => maprow l) = [none, none, some 0, some 0, some 2, some 502, some 502, none, none, none, none, some 1,
      some 1, some 3, some 503, none] := by decide
theorem test_execMaprow : returned (exec (.maprow 546) idle) = some (.row (some 1)) := by decide
theorem test_lvladj :
    returned (exec (.lvladj (real 0) ⟨0x40A054CCCCCCCCCD#64⟩) idle) = some (.real ⟨0x3FF0113404EA4A8D#64⟩) ∧
      returned (exec (.lvladj ⟨0xC0005616905F83B6#64⟩ (real 2080)) idle) = some (.real ⟨0x3FF00360BA265BE7#64⟩) := by
  decide +kernel
/-- R232's example: the value stored for 16384 between 2820.13 and 4899.74. -/
theorem test_compensate :
    compensate Config.ref (lvladj Config.ref ⟨0x40A608428F5C28F6#64⟩ ⟨0x40B323BD70A3D70A#64⟩) (real 16384) = ⟨0x40CFFE8D60E94EE2#64⟩ := by
  decide +kernel
theorem test_asmline_decode_only :
    after (exec (.asmline (real 0) (real 2080)) { running with line2 := 18 }) (fun t => (t.fb, t.fbDirty)) =
      some ([], false) := by decide +kernel
theorem test_emit :
    after (exec .emit { idle with fb := [(1685, Config.ONE)] }) (fun t => t.sink) =
      some [[(1685, Config.ONE)]] := by decide +kernel
/-- The parameter decides the order on the wire: the second frame's element (1, 0) is 1. -/
theorem test_wire_order :
    (State.wireByte { idle with sink := [[], [(1685, Config.ONE)]] } (6807400 + 8 * 1685 + 6) = some 0xF0#8 ∧
      State.wireByte { State.ofConfig { Config.ref with sinkOrder := .big } with sink := [[], [(1685, Config.ONE)]] }
        (6807400 + 8 * 1685) = some 0x3F#8 ∧
      State.wireByte { idle with sink := [[]] } 6807400 = none) := by decide +kernel
theorem test_frame_bytes :
    frameByte .little [(1685, Config.ONE)] (8 * 1685 + 6) = 0xF0#8 ∧
      frameByte .big [(1685, Config.ONE)] (8 * 1685) = 0x3F#8 ∧ frameBytes = 6807400 := by decide +kernel

/-! ### The sync detector, RESET and PROCESS (R171, R172, R250, R251) -/

/-- R171's example at the crossing: the filter sees 4096 after 16384, at sample 100, from f_prev = 16384. -/
def edge : State :=
  { idle with
    winHi := 200, scanPos := 100, samples := stream (List.replicate 100 16384#16 ++ List.replicate 20 4096#16)
    fPrev := real 16384, sf := ⟨[real 16384], [], true⟩ }

theorem test_step_above : after (exec .step edge) (fun t => (t.fPrev, t.below, t.scanPos)) =
    some (real 10240, false, 101) := by decide +kernel
theorem test_step_crossing :
    (after (exec .step { edge with scanPos := 101, fPrev := real 10240, sf := ⟨[real 4096], [], true⟩ })
      fun t => (t.xpt, t.below, t.count)) = some (⟨0x4059155555555555#64⟩, true, 1) := by decide +kernel
theorem test_reset :
    (after (exec .reset { running with fault := some ⟨.fBounds, 7⟩, scanPos := 9 })
      fun t => (t.fault, t.line2, t.scanPos)) = some (none, -4, 0) := by decide +kernel
theorem test_process_scans_to_the_lookahead :
    (after (exec (.process 0 515) idle) fun t => (t.ret, t.scanPos, t.winHi)) =
      some (.consumed 3, 3, 515) := by decide +kernel
theorem test_process_keeps_the_next_line :
    (after (exec (.process 0 0) { running with winHi := 0, scanPos := 2488, prevCrosspoint := ⟨0x409E015555555555#64⟩ })
      fun t => t.ret) = some (.consumed 1912) := by decide +kernel
/-- The host has RESET and PROCESS only, PROCESS with integers of any size. -/
theorem test_host_issue :
    (after (idle.hostIssue (.process 1 2)) fun t => t.hostQueue) = some [0x01#8, 0x01#8, 0x02#8] ∧
      (after (idle.hostIssue (.process (2 ^ 64) 0)) fun t => decode t.hostQueue) =
        some (.ok (.process (2 ^ 64) 0, [])) ∧
      idle.hostIssue .emit = .refused (.hostProtocol .notHostOperation) :=
  ⟨by decide +kernel, by decide +kernel, rfl⟩
theorem test_word_order :
    (({ idle with samples := [(0, 0x34#8), (1, 0x12#8)] } : State).streamCode 0) = 0x1234#16 ∧
      ({ State.ofConfig { Config.ref with sampleOrder := .big } with samples := [(0, 0x12#8), (1, 0x34#8)] } :
        State).streamCode 0 = 0x1234#16 := by decide +kernel

/-! ### Witnesses: for every statement with hypotheses, states and operands that meet them -/

theorem idle_accepts : idle.Accepts := ⟨rfl, rfl⟩

/-- An empty queue, a queued operation, queued bytes that are no operation. -/
theorem witness_StepRunsTheQueuedOperation :
    idle.hostQueue = [] ∧
      decode ({ idle with hostQueue := [0x26#8, 0x21#8] } : State).hostQueue = .ok (.clsNone, [0x21#8]) ∧
      decode ({ idle with hostQueue := [0x3F#8] } : State).hostQueue = .error (.reservedSelector 0x3F#8) := by
  decide +kernel
/-- The reserved selectors next to the assigned ranges. -/
theorem witness_ReservedSelectorsNameNoOperation :
    0x02#8 ∉ assignedSelectors ∧ 0x0F#8 ∉ assignedSelectors ∧ 0x28#8 ∉ assignedSelectors ∧
      0x3F#8 ∉ assignedSelectors ∧ 0xFF#8 ∉ assignedSelectors := by decide
theorem witness_DecodeEncodeRoundTrip :
    (Instr.scale Config.ZERO Config.ONE 1).wellFormed = true ∧
      (Instr.scale Config.ZERO Config.ONE (2 ^ 64)).wellFormed = true := by decide
theorem witness_DecodedOperationsAreCanonical :
    decode [0x33#8, 0x34#8, 0x12#8, 0x10#8] = .ok (.s2ire 0x1234#16, [0x10#8]) := by decide
/-- A faulted block, with RESET and with another operation. -/
theorem witness_FaultedBlockAcceptsOnlyReset :
    ({ idle with fault := some ⟨.fBounds, 7⟩ } : State).constructed = true ∧
      ({ idle with fault := some ⟨.fBounds, 7⟩ } : State).fault = some ⟨.fBounds, 7⟩ ∧ Instr.step ≠ .reset := by
  decide +kernel
theorem witness_UnconstructedBlockAcceptsOnlyReset :
    idle.unconstructed.constructed = false ∧ Instr.clsNone ≠ .reset := by decide +kernel
/-- The sample at `scan_pos` reads 0, below SYNC_THRESHOLD under the baseline filter or above it. -/
def below : State := { idle with winHi := 10, sf := ⟨[Config.ZERO], [], true⟩ }
def above : State :=
  { idle with winHi := 10, cfg := { Config.ref with syncThreshold := Config.ZERO }, xpt := real 3, xptValid := true }

/-- An NL of which elements 130 to 238 are written, on a line with a row. -/
def partLine : State :=
  { idle with line2 := 20, nl := Cells.run 130 (List.replicate 109 Config.ONE), het := List.replicate 128 (Config.ONE, Config.ZERO) }
/-- The first and the last NL index with no value, the first that does not exist on either side; the last element
of a window as its least unwritten one; SF not cleared, and a run that ends with no crossing. -/
theorem witness_ReadsWithoutAValueAreRefused :
    (idle.Accepts ∧ ({ idle with line2 := 20 } : State).Accepts) ∧
      idle.prevValid = false ∧ (idle.filter .fi).cleared = false ∧
      Cells.find idle.nl 140 = none ∧ Cells.find idle.nl 2079 = none ∧ 2079 < idle.cfg.scaleTgt ∧
      idle.cfg.scaleTgt ≤ 2080 ∧ Cells.find idle.nl 2080 = none ∧ (-141 : Int) + 140 < 0 ∧
      rowOf ({ idle with line2 := 20 } : State).line2 = some 0 ∧ 130 < idle.cfg.scaleTgt ∧
      Cells.find idle.nl 130 = none := ⟨⟨idle_accepts, rfl, rfl⟩, by decide +kernel⟩
theorem witness_ReadsWithoutAValueAreRefused_windows :
    partLine.Accepts ∧ partLine.cfg.hetIndex = .windowRelative ∧ 100 ≤ partLine.het.length ∧
      rowOf partLine.line2 = some 0 ∧ (0 : Int) + 140 + (99 : Nat) = (239 : Nat) ∧ Cells.find partLine.nl 239 = none ∧
      (∀ j < 99, partLine.readNl ((0 : Int) + 140 + (j : Nat)) = .ok Config.ONE) ∧
      (∀ j < 109, partLine.readNl ((130 + j : Nat) : Int) = .ok Config.ONE) :=
  ⟨⟨rfl, rfl⟩, rfl, by decide +kernel⟩
theorem witness_ReadsWithoutAValueAreRefused_step :
    ({ below with sf := FilterState.uncleared Config.ref.syncCoef } : State).Accepts ∧
      below.inWindow below.scanPos = true ∧ (FilterState.uncleared Config.ref.syncCoef).cleared = false ∧
      SampleReady { above with below := true, count := 17, xptValid := false } ∧
      F64.lt (filtered above) above.cfg.syncThreshold = false := ⟨⟨rfl, rfl⟩, rfl, rfl, ⟨rfl, rfl⟩, by decide +kernel⟩
/-- The states that accept operations, for the statements with no other hypothesis on the state. -/
theorem witness_FclrSetsTheDelayLine : idle.Accepts := idle_accepts
theorem witness_FfeedComputesTheDirectForm : idle.Accepts ∧ (idle.filter .sf).cleared = true := ⟨⟨rfl, rfl⟩, rfl⟩
theorem witness_HetgenWritesTheTable : idle.Accepts := idle_accepts
theorem witness_S2ireConverts : idle.Accepts := idle_accepts
theorem witness_Ire2sClampsAndTruncates : idle.Accepts := idle_accepts
theorem witness_CubicEvaluatesTheNestedPolynomial : idle.Accepts := idle_accepts
theorem witness_WrapSubtractsWholeTurns : idle.Accepts := idle_accepts
theorem witness_TgtupdSelectsOrNegatesTheTarget : idle.Accepts := idle_accepts
theorem witness_LineOutcomesWriteLineOnly : idle.Accepts := idle_accepts
theorem witness_LvladjComputesTheStretch : idle.Accepts := idle_accepts
theorem witness_EmitAppendsTheFrame :
    idle.Accepts ∧ completes (exec .emit { idle with sink := [[]] }) = true ∧ 504 < 505 ∧ 1684 < 1685 ∧ 7 < 8 :=
  ⟨idle_accepts, by decide +kernel, by decide, by decide, by decide⟩
/-- A frame in progress and none. -/
theorem witness_NewframeEmitsAndStartsAFreshFrame :
    idle.Accepts ∧ idle.fbDirty = false ∧ ({ idle with fbDirty := true } : State).Accepts :=
  ⟨idle_accepts, rfl, rfl, rfl⟩
/-- Lines 271.5, 272, 272.5 and 273. -/
theorem witness_PhresyncUnsetsTheTargetOnLine272 : ∀ l ∈ ([543, 544, 545, 546] : List Int),
    ({ idle with line2 := l } : State).Accepts := fun _ _ => ⟨rfl, rfl⟩
/-- Lines 10 and 261, 273 and 524 have a row; two lines with one row do not exist among them. -/
theorem witness_MaprowMapsTheActiveLines :
    idle.Accepts ∧ rowOf (2 * 10) = some 0 ∧ rowOf (2 * 261) = some 502 ∧ rowOf (2 * 273) = some 1 ∧
      rowOf (2 * 524) = some 503 := ⟨idle_accepts, by decide, by decide, by decide, by decide⟩
/-- 1 + 2^-53 and 1 - 2^-54 are ties. -/
theorem witness_AdditionRoundsToNearest :
    Config.ONE.finite = true ∧ (⟨0x3CA0000000000000#64⟩ : F64).finite = true ∧
      F64.add Config.ONE ⟨0x3CA0000000000000#64⟩ = Config.ONE ∧
      F64.sub Config.ONE ⟨0x3C90000000000000#64⟩ = Config.ONE ∧ Config.ONE.fraction % 2 = 0 := by decide +kernel
/-- 1/3 and the root of 2 are inexact. -/
theorem witness_ProductQuotientAndRootRoundToNearest :
    (real 3).finite = true ∧ (F64.mul (real 3) (real 3)).finite = true ∧ (F64.div Config.ONE (real 3)).finite = true ∧
      (real 3).toFixed ≠ 0 ∧ 0 ≤ (real 2).toFixed ∧ (real 2).finite = true := by decide +kernel
theorem witness_WrapOfEqualAnglesIsZero : idle.Accepts ∧ Config.PI.finite = true :=
  ⟨idle_accepts, by decide +kernel⟩

/-! #### The Resampler and the detector -/

/-- A block on a settled line: codes 0, burst filters that hold their baseline, at which the magnitude is π/2, and
the target at -π/2, so that PCL moves neither bound of the line from 1000 to 3080. -/
def settled : State :=
  { State.ofConfig { Config.ref with
      burstCoef := ⟨Config.ZERO, [], [F64.neg Config.ONE]⟩, burstBaseline := ⟨0x3FF1C5831ADD62E4#64⟩ } with
    prevValid := true, prevCrosspoint := real 1000, line2 := 24, winHi := 100000, tgtPhase := minusHalfPi
    het := List.replicate 128 (Config.ONE, Config.ZERO) }

/-- Where output sample i of that line is read. -/
def settledPosition (i : Nat) : F64 := sourcePosition (real 1000) (perSample (real 1000) (real 3080) 2080) i

theorem settled_indices :
    ((List.range 2080).all fun i =>
      let n := sourceIndex (settledPosition i)
      decide (1 ≤ n) && decide (n + 2 < 100000)) = true := by decide +kernel

theorem settled_span : SpanReadable settled (real 1000) (real 3080) settled.cfg.scaleTgt := by
  intro i hi d hd
  have h := List.all_eq_true.1 settled_indices i (List.mem_range.2 hi)
  simp only [Bool.and_eq_true, decide_eq_true_eq] at h
  have hp : sourcePosition (real 1000) (perSample (real 1000) (real 3080) settled.cfg.scaleTgt) i =
      settledPosition i := rfl
  rw [hp]
  simp only [State.inWindow, Bool.and_eq_true, decide_eq_true_eq]
  exact ⟨Nat.zero_le _, by show _ < 100000; omega⟩

theorem settled_measured (off : Nat) (h : off = 0 ∨ off = 1820) :
    measured settled (lineOf settled (real 1000) (real 3080)) off = halfPi := by
  have hi : burstInput settled.het (lineOf settled (real 1000) (real 3080)) off = fun i =>
      F64.mul (if off + 140 + i < 2080 then resampledValue settled (settledPosition (off + 140 + i))
        else Config.ZERO) (settled.het.getD i (Config.ZERO, Config.ZERO)).1 := by
    funext i
    rw [burstInput, lineOf, resampledLine, List.getD_eq_getElem?_getD, List.getElem?_map,
      show settled.cfg.scaleTgt = 2080 from rfl]
    by_cases hk : off + 140 + i < 2080
    · rw [List.getElem?_range hk, if_pos hk]; rfl
    · rw [List.getElem?_eq_none (by simpa using hk), if_neg hk]; rfl
  rw [measured, hi]
  rcases h with rfl | rfl <;> decide +kernel

theorem settled_begin : pclBegin settled (real 1000) (real 3080) = real 1000 := by
  rw [pclBegin, pclTarget, settled_measured 0 (.inl rfl)]
  decide +kernel

theorem settled_end : pclEnd settled (real 1000) (real 3080) = real 3080 := by
  rw [pclEnd, pclTarget, settled_begin, settled_measured 0 (.inl rfl), settled_measured 1820 (.inr rfl)]
  decide +kernel

theorem settled_passes : PassesReadable settled (real 1000) (real 3080) := by
  rw [PassesReadable, settled_end, settled_begin]
  exact ⟨settled_span, settled_span, settled_span⟩

theorem settled_ready : settled.Accepts ∧ DetectorReady settled :=
  ⟨⟨rfl, rfl⟩, rfl, rfl, by decide +kernel, by decide +kernel⟩

theorem witness_PclCorrectsBothBounds : settled.Accepts ∧ DetectorReady settled ∧
    PassesReadable settled (real 1000) (real 3080) := ⟨settled_ready.1, settled_ready.2, settled_passes⟩

/-- Line 12 with a row, and line 9 without one. -/
theorem witness_ClsActiveDecodesOneLine :
    settled.Accepts ∧ settled.prevValid = true ∧ DetectorReady settled ∧
      real 3080 = F64.add settled.prevCrosspoint (F64.mul (real 1820) settled.cfg.ext) ∧
      PassesReadable settled settled.prevCrosspoint (real 3080) ∧ rowOf settled.line2 = some 4 ∧ rowOf 18 = none :=
  ⟨settled_ready.1, rfl, settled_ready.2, by decide +kernel, settled_passes, by decide, by decide⟩

theorem witness_DispatchOfAnActiveLineCompletes :
    settled.prevValid = true ∧ real 1820 = F64.sub (real 2820) settled.prevCrosspoint ∧
      selectedOutcome settled.line2 (real 1820) 95 = .clsActive (real 1820) 95 ∧
      real 3080 = F64.add settled.prevCrosspoint (F64.mul (real 1820) settled.cfg.ext) ∧
      PassesReadable settled settled.prevCrosspoint (real 3080) :=
  ⟨rfl, by decide +kernel, by decide +kernel, by decide +kernel, settled_passes⟩

theorem witness_ScaleWritesTheResampledLine :
    ramp.Accepts ∧ 4 ≤ ramp.cfg.scaleTgt ∧
      ∀ i < 4, ReadsLieInWindow ramp (positionOf ⟨0x3FE0000000000000#64⟩ ⟨0x4012000000000000#64⟩ 4 i) :=
  ⟨⟨rfl, rfl⟩, by decide, by decide +kernel⟩
/-- The last of four reads refused at element 3, above the window; the first refused at element 0, below it. -/
theorem witness_ScaleFaultsAtTheFirstRefusedRead :
    (ramp.Accepts ∧ 3 < 4 ∧ 3 ≤ ramp.cfg.scaleTgt) ∧
    ((∀ j < 3, ReadsLieInWindow ramp (positionOf (real 50) (real 66) 4 j)) ∧
      (∀ e < 3, ramp.inWindow
        (indexOf (positionOf (real 50) (real 66) 4 3) - 1 + e) = true) ∧
      ramp.inWindow (indexOf (positionOf (real 50) (real 66) 4 3) - 1 + 3) = false) ∧
    ({ ramp with winLo := 2 } : State).inWindow
      (indexOf (positionOf (real 0) (real 4) 4 0) - 1 + 0) = false :=
  ⟨⟨⟨rfl, rfl⟩, by decide, by decide⟩, by decide +kernel⟩
/-- One element more than NL has, all read around one position. -/
theorem witness_ScaleBeyondNlStops :
    settled.Accepts ∧ settled.cfg.scaleTgt < 2081 ∧ ∀ j ≤ settled.cfg.scaleTgt,
      ReadsLieInWindow settled (positionOf (real 1000) (real 1000) 2081 j) := by
  refine ⟨settled_ready.1, by decide, ?_⟩
  have hf : ((List.range 2081).all fun i => (F64.ofNat i).finite && !(F64.ofNat i).sign) = true := by
    decide +kernel
  have hp : perSample (real 1000) (real 1000) 2081 = Config.ZERO := by decide +kernel
  have h0 : Config.ZERO.finite = true ∧ Config.ZERO.significand = 0 ∧ Config.ZERO.sign = false ∧
      F64.ofParts false 0 = Config.ZERO ∧ F64.add (real 1000) Config.ZERO = real 1000 := by decide +kernel
  have ht : ReadsLieInWindow settled (real 1000) := by decide +kernel
  intro j hj
  have h := List.all_eq_true.1 hf j (List.mem_range.2 (Nat.lt_succ_of_le hj))
  simp only [Bool.and_eq_true, Bool.not_eq_true'] at h
  rw [show positionOf (real 1000) (real 1000) 2081 j =
    F64.add (real 1000) (F64.mul (F64.ofNat j) (perSample (real 1000) (real 1000) 2081)) from rfl, hp, show F64.mul (F64.ofNat j) Config.ZERO = Config.ZERO by
    simp [F64.mul, F64.mulFinite, h.1, h.2, h0.1, h0.2.1, h0.2.2.1, h0.2.2.2.1], h0.2.2.2.2]
  exact ht

theorem burstLine_reads : ∀ i < 100,
    burstLine.readNl ((0 + 140 + i : Nat) : Int) =
      .ok ((List.replicate 240 (real 16384)).getD (0 + 140 + i) Config.ZERO) := by decide +kernel
theorem witness_BurstMeasuresOneArmTwice :
    burstLine.Accepts ∧ DetectorReady burstLine ∧ ∀ i < 100,
      burstLine.readNl ((0 + 140 + i : Nat) : Int) =
        .ok ((List.replicate 240 (real 16384)).getD (0 + 140 + i) Config.ZERO) :=
  ⟨⟨rfl, rfl⟩, ⟨rfl, rfl, by decide +kernel, by decide +kernel⟩, burstLine_reads⟩

/-! #### The Line Tracker -/

/-- The two overlaps, guards 1 and 6 and guards 3 and 6, and an interval at which no guard holds. -/
theorem witness_GuardsOverlapOnlyWithSkip :
    (real 1820).finite = true ∧ guardHolds 20 (real 1820) 100 1 ∧ guardHolds 20 (real 1820) 100 6 ∧
      (real 1850).finite = true ∧ guardHolds 1042 (real 1850) 60 3 ∧ guardHolds 1042 (real 1850) 60 6 ∧
      classify 20 (real 1200) 50 = .none :=
  ⟨by decide +kernel, show guardActive _ _ _ = true by decide +kernel, show guardSkip _ _ = true by decide +kernel,
    by decide +kernel, show guardNewframe _ _ _ = true by decide +kernel,
    show guardSkip _ _ = true by decide +kernel, by decide +kernel⟩

theorem running_accepts (l : Int) : ({ running with line2 := l } : State).Accepts ∧
    ({ running with line2 := l } : State).prevValid = true := ⟨⟨rfl, rfl⟩, rfl⟩

/-- The outcome selected on a line at an interval from the reference at 1000. -/
def selected (line2 : Int) (xpt : F64) (count : Nat) : Instr :=
  selectedOutcome line2 (F64.sub xpt ({ running with line2 := line2 } : State).prevCrosspoint) count

/-- An outcome that returns, and one that takes a fault (an empty window). -/
theorem witness_DispatchIsTheSelectedOutcomeThenResync :
    running.Accepts ∧ running.prevValid = true ∧ selected 24 (real 1900) 50 = .clsHalf ∧
      completes (exec (selected 24 (real 1900) 50) running) = true ∧
      faults (exec (selected 24 (real 2820) 95) { running with winHi := 0 }) = true :=
  ⟨⟨rfl, rfl⟩, rfl, by decide +kernel, by decide +kernel, by decide +kernel⟩
/-- The six outcomes, at the counts next to their bounds. -/
theorem witness_DispatchWithoutDecodeCompletes :
    (∀ l, ({ running with line2 := l } : State).Accepts ∧ ({ running with line2 := l } : State).prevValid = true) ∧
      selected (-2) (real 1900) 81 = .clsField2 ∧ selected (-2) (real 1900) 159 = .clsField2 ∧
      selected (-2) (real 2850) 79 = .clsNewframe ∧ selected 1041 (real 2850) 79 = .clsNewframe ∧
      selected (-4) (real 2820) 81 = .clsVsync ∧ selected 543 (real 1900) 81 = .clsHalf ∧
      selected 542 (real 2820) 90 = .clsSkip ∧ selected 544 (real 2200) 90 = .clsNone :=
  ⟨running_accepts, by decide +kernel⟩

/-! #### The Frame Assembler -/

/-- A line of NL written from 130 to 1814, all ones. -/
def assembled : State := { idle with line2 := 20, nl := Cells.run 130 (List.replicate 1685 Config.ONE) }

theorem witness_AsmlineWritesItsRow :
    idle.Accepts ∧ rowOf idle.line2 = none ∧ assembled.Accepts ∧ rowOf assembled.line2 = some 0 ∧
      ∀ x : Nat, 130 ≤ x → x < 1815 → assembled.readNl x = .ok Config.ONE := by
  refine ⟨idle_accepts, by decide, ⟨rfl, rfl⟩, by decide, fun x h1 h2 => State.readNl_of_find ?_⟩
  rw [assembled, Cells.find_run]
  have h : x - 130 < 1685 := by omega
  rw [if_pos h1, List.getElem?_replicate, if_pos h]

/-! #### STEP and PROCESS -/

/-- Each clause: a crossing, a run that goes on, nothing, a run of 16, an accepted run of 17. -/
theorem witness_StepTracksOneSample :
    (∀ b n, ({ below with below := b, count := n } : State).Accepts ∧ SampleReady { below with below := b, count := n }) ∧
      (∀ b n, ({ above with below := b, count := n } : State).Accepts ∧ SampleReady { above with below := b, count := n }) ∧
      F64.lt (filtered below) below.cfg.syncThreshold = true ∧ F64.lt (filtered above) above.cfg.syncThreshold = false ∧
      ({ above with below := true, count := 16 } : State).count ≤ 16 ∧
      16 < ({ above with below := true, count := 17 } : State).count ∧ above.prevValid = false ∧
      above.xptValid = true := by
  refine ⟨fun _ _ => ⟨⟨rfl, rfl⟩, rfl, rfl⟩, fun _ _ => ⟨⟨rfl, rfl⟩, rfl, rfl⟩, ?_⟩
  decide +kernel

/-- A run of 17 with its crossing 1200 samples, or a line, after the reference. -/
def closing (xpt : F64) : State :=
  { above with below := true, count := 95, xpt := xpt, prevValid := true, prevCrosspoint := Config.ZERO, line2 := 24 }

/-- A dispatch with no fault, and one whose line lies outside the window. -/
theorem witness_StepDispatchesAnAcceptedCrossing :
    (∀ xpt, (closing xpt).Accepts ∧ SampleReady (closing xpt) ∧ (closing xpt).below = true ∧ 16 < (closing xpt).count ∧
      (closing xpt).xptValid = true ∧ (closing xpt).prevValid = true) ∧
    F64.lt (filtered (closing (real 1200))) (closing (real 1200)).cfg.syncThreshold = false ∧
    F64.lt (filtered (closing (real 1820))) (closing (real 1820)).cfg.syncThreshold = false ∧
    completes (exec (.dispatch (real 1200) 95)
      { closing (real 1200) with sf := fedSync (closing (real 1200)), below := false }) = true ∧
    faults (exec (.dispatch (real 1820) 95)
      { closing (real 1820) with sf := fedSync (closing (real 1820)), below := false }) = true := by
  refine ⟨fun _ => ⟨⟨rfl, rfl⟩, ⟨rfl, rfl⟩, rfl, by show 16 < 95; decide, rfl, rfl⟩, ?_⟩
  decide +kernel

theorem witness_StepOutsideTheWindowFaults : idle.Accepts ∧ idle.inWindow idle.scanPos = false :=
  ⟨idle_accepts, by decide +kernel⟩

/-- The block after PROCESS 0, 515, which scanned three samples. -/
def processed : State := nextState (exec (.process 0 515) idle)

/-- A first call that starts at 1, a window longer than CHUNK_MAX, a call past what was consumed. -/
theorem witness_ProcessRefusesABrokenProtocol :
    idle.Accepts ∧ ¬ LawfulCall idle 1 0 ∧ ¬ LawfulCall idle 0 8193 ∧
      processed.Accepts ∧ ¬ LawfulCall processed 4 600 := by
  have h : processed.constructed = true ∧ processed.fault = none ∧ processed.lastConsumed = some 3 ∧
      processed.winLo = 0 := by decide +kernel
  refine ⟨idle_accepts, ?_, ?_, ⟨h.1, h.2.1⟩, ?_⟩
  · simp [LawfulCall, idle, State.ofConfig]
  · simp [LawfulCall, idle, State.ofConfig, Config.ref]
  · simp [LawfulCall, h.2.2.1, h.2.2.2]
theorem idle_lawful (n : Nat) (h : n ≤ 8192) : LawfulCall idle 0 n := ⟨h, rfl⟩
/-- The longest window that scans nothing. -/
theorem witness_ProcessThatScansNothingCompletes :
    idle.Accepts ∧ LawfulCall idle 0 512 ∧ 0 + 512 ≤ idle.scanPos + idle.cfg.lookahead :=
  ⟨idle_accepts, idle_lawful _ (by decide), by decide⟩
theorem witness_ProcessIsStepsUntilTheLookahead :
    idle.Accepts ∧ LawfulCall idle 0 515 ∧ 0 + 515 ≤ idle.scanPos + 515 ∧
      (scanned 515 { idle with winLo := 0, winHi := 0 + 515, ret := .none }).isSome = true :=
  ⟨idle_accepts, idle_lawful _ (by decide), by decide, by decide +kernel⟩
theorem processed_next : exec (.process 0 515) idle = .next processed ∧ processed.fault = none :=
  eq_next (by decide +kernel)
theorem witness_ConsumedIsAtMostLen :
    exec (.process 0 515) idle = .next processed ∧ processed.fault = none ∧ idle.scanPos ≤ 0 + 515 :=
  ⟨processed_next.1, processed_next.2, by decide⟩
theorem witness_StepDoesNotDependOnTheWindow :
    completes (exec .step below) = true ∧ completes (exec .step { below with winLo := 0, winHi := 1 }) = true := by
  decide +kernel
/-- Windows [0, 515) and then [3, 523), against [0, 523). -/
theorem witness_ProcessIsChunkInvariant :
    (exec (.process 0 515) idle = .next processed ∧ processed.fault = none) ∧
      completes (exec (.process 3 520) processed) = true ∧ 0 + 523 = 3 + 520 ∧
      completes (exec (.process 0 523) idle) = true :=
  ⟨processed_next, by decide +kernel, by decide, by decide +kernel⟩

/-! #### Invariants, frames, safety -/

theorem idle_inv : idle.Inv where
  cfgValid := by decide +kernel
  samplesWf := rfl
  nlWf := rfl
  nlRange := fun _ h => nomatch h
  fbOk := ⟨rfl, fun _ h => nomatch h⟩
  sinkOk := fun _ h => nomatch h
  cleanIsFresh := fun _ => rfl
  target := .inl rfl
  openRun := fun h => nomatch h
  sfFits := ⟨rfl, rfl⟩
  fiFits := ⟨rfl, rfl⟩
  fqFits := ⟨rfl, rfl⟩
  sfCleared := rfl
  hetLength := by simp [idle, State.ofConfig, hetTable]

/-- The invariant does not read the queue: it holds with an operation queued, and the step answers. -/
theorem witness_StepKeepsInv :
    ({ idle with hostQueue := [0x21#8] } : State).Inv ∧
      completes (step { idle with hostQueue := [0x21#8] }) = true := ⟨{ idle_inv with }, by decide +kernel⟩
/-- After reset, and with a reference crossing. -/
theorem witness_TheBlockNeverReadsAnItemWithoutAValue :
    idle.Inv ∧ idle.Accepts ∧ LawfulCall idle 0 0 ∧
      ({ idle with prevValid := true } : State).Inv ∧ ({ idle with prevValid := true } : State).Accepts :=
  ⟨idle_inv, idle_accepts, idle_lawful _ (by decide), { idle_inv with }, rfl, rfl⟩
/-- A legal line under each of the four operations. -/
theorem witness_LineStaysLegal :
    LegalLine running.line2 ∧ completes (exec .reset running) = true ∧ completes (exec .step running) = true ∧
      completes (exec (.process 0 0) running) = true ∧
      completes (exec (.dispatch (real 2200) 50) running) = true :=
  ⟨.inr (.inr (by decide)), by decide +kernel⟩
/-- A dispatch from each of the three clauses. -/
theorem witness_DispatchMovesLineAsR199Says :
    completes (exec (.dispatch (real 2820) 81) { running with line2 := -4 }) = true ∧
      completes (exec (.dispatch (real 1900) 81) { running with line2 := -2 }) = true ∧
      completes (exec (.dispatch (real 2820) 90) { running with line2 := 0 }) = true := by decide +kernel
theorem witness_Row504IsNeverWritten :
    completes (exec .clsNewframe running) = true ∧ 1684 < 1685 ∧
      frameElement running.fb 504 1684 = Config.FB_FILL := by decide +kernel
theorem witness_NoOperationWritesTheStream : completes (exec (.fclr .fq Config.ONE) ramp) = true := by decide +kernel
/-- An operation that is no STEP, a STEP that takes no fault, a STEP that takes one. -/
theorem witness_DetectorRegistersBelongToStep :
    completes (exec .clsHalf running) = true ∧ completes (exec .step running) = true ∧
      faults (exec .step idle) = true ∧ Instr.clsHalf ≠ .reset ∧ Instr.step ≠ .reset := by decide +kernel
theorem witness_SinkOnlyGrows : completes (exec .emit running) = true ∧ Instr.emit ≠ .reset := by decide +kernel
theorem witness_OnlyRefusedReadsFault :
    after (exec (.scale (real 50) (real 66) 4) ramp) (fun t => t.fault) = some (some ⟨.fBounds, 64⟩) := by
  decide +kernel
/-- A fault of each of the three operations. -/
theorem witness_FaultLeavesTheLineUndone :
    faults (exec .step idle) = true ∧ faults (exec (.dispatch (real 2820) 95) { running with winHi := 0 }) = true ∧
      faults (exec (.clsActive (real 1820) 95) { running with winHi := 0 }) = true := by decide +kernel
/-- A sample not presented yet, one presented with the same code, one presented with another. -/
theorem witness_DeliveredSamplesReadBack :
    ramp.winHi ≤ 64 ∧ ramp.streamCode 63 = 630#16 ∧ Memory.wf ramp.samples = true ∧ 63 < ramp.winHi ∧
      ramp.streamCode 63 ≠ 631#16 := by decide +kernel
theorem witness_HostIssuesOnlyResetAndProcess :
    idle.hostQueue = [] ∧ Instr.emit ≠ .reset ∧ ∀ lo len, Instr.emit ≠ .process lo len :=
  ⟨rfl, by decide, by simp⟩

end Sys2Proof.Tests
end

section
/-! PROOFS of the numerics and the port (family 00_scope).  The machine rounds an integer `m` with a bit for what lies
below it; the proofs go by three steps: dropping bits rounds to the nearest multiple of the last bit kept, no real
lies closer than such a multiple, and each operation hands `F64.round` its exact result. -/

namespace Sys2Proof

/-! ### Rounding to nearest, ties to even, on the real numbers -/

/-- `k` is an integer nearest `x`, the even one if two are equally near (R10). -/
def NearestEven (x : ℝ) (k : ℕ) : Prop := |k - x| ≤ 1 / 2 ∧ (|k - x| = 1 / 2 → Even k)

theorem nearestEven_self (k : ℕ) : NearestEven k k := by
  rw [NearestEven, sub_self, abs_zero]
  norm_num

/-- No integer is nearer, and one that is equally near is the same or an odd neighbour. -/
theorem NearestEven.nearest {x : ℝ} {k : ℕ} (h : NearestEven x k) (j : ℤ) :
    |k - x| ≤ |j - x| ∧ (|k - x| = |j - x| → j = k ∨ Even k) := by
  obtain ⟨hle, heven⟩ := h
  by_cases hj : j = k
  · exact ⟨by rw [hj, Int.cast_natCast], fun _ => .inl hj⟩
  · have hone : (1 : ℝ) ≤ |(j : ℝ) - k| := by exact_mod_cast Int.one_le_abs (sub_ne_zero.2 hj)
    have htri : |(j : ℝ) - k| ≤ |j - x| + |k - x| := by
      rw [abs_sub_comm (k : ℝ) x]; exact abs_sub_le _ _ _
    exact ⟨by linarith, fun he => .inr (heven (by linarith))⟩

/-- The same on the multiples of a positive unit. -/
theorem NearestEven.nearest_multiple {X u : ℝ} {k : ℕ} (h : NearestEven (X / u) k) (hu : 0 < u) (j : ℤ) :
    |k * u - X| ≤ |j * u - X| ∧ (|k * u - X| = |j * u - X| → j = k ∨ Even k) := by
  have hscale (i : ℝ) : |i * u - X| = |i - X / u| * u := by
    rw [← abs_of_pos hu, ← abs_mul, abs_of_pos hu, sub_mul, div_mul_cancel₀ _ hu.ne']
  obtain ⟨hle, heq⟩ := h.nearest j
  rw [hscale, hscale]
  exact ⟨mul_le_mul_of_nonneg_right hle hu.le, fun he => heq (mul_right_cancel₀ hu.ne' he)⟩

/-- A natural number below the exact value is none above the rounded one. -/
theorem NearestEven.le_of_le {x : ℝ} {k n : ℕ} (h : NearestEven x k) (hn : n ≤ x) : n ≤ k := by
  have hk := (abs_le.1 h.1).1
  have hlt : (n : ℝ) < k + 1 := by linarith
  exact Nat.lt_succ_iff.1 (by exact_mod_cast hlt)

/-- A natural number above the exact value is none below the rounded one. -/
theorem NearestEven.ge_of_ge {x : ℝ} {k n : ℕ} (h : NearestEven x k) (hn : x ≤ n) : k ≤ n := by
  have hk := (abs_le.1 h.1).2
  have hlt : (k : ℝ) < n + 1 := by linarith
  exact Nat.lt_succ_iff.1 (by exact_mod_cast hlt)

/-- A value at most half a unit above `q` units rounds to `q`. -/
theorem nearestEven_down {half f : ℝ} {q : ℕ} (hhalf : 0 < half) (h0 : 0 ≤ f) (hf : f ≤ half)
    (heven : f = half → Even q) : NearestEven ((2 * half * q + f) / (2 * half)) q := by
  have hdist : |q - (2 * half * q + f) / (2 * half)| = f / (2 * half) := by
    rw [show (q : ℝ) - (2 * half * q + f) / (2 * half) = -(f / (2 * half)) by field_simp; ring,
      abs_neg, abs_of_nonneg (by positivity)]
  rw [NearestEven, hdist, div_le_iff₀ (by positivity), div_eq_iff (by positivity)]
  exact ⟨by linarith, fun h => heven (by linarith)⟩

/-- A value at least half a unit above `q` units rounds to `q + 1`. -/
theorem nearestEven_up {half f : ℝ} {q : ℕ} (hhalf : 0 < half) (hf : half ≤ f) (h2 : f ≤ 2 * half)
    (hodd : f = half → Odd q) : NearestEven ((2 * half * q + f) / (2 * half)) (q + 1) := by
  have hdist : |((q + 1 : ℕ) : ℝ) - (2 * half * q + f) / (2 * half)| = (2 * half - f) / (2 * half) := by
    rw [show ((q + 1 : ℕ) : ℝ) - (2 * half * q + f) / (2 * half) = (2 * half - f) / (2 * half) by
      push_cast; field_simp; ring, abs_of_nonneg (div_nonneg (by linarith) (by positivity))]
  rw [NearestEven, hdist, div_le_iff₀ (by positivity), div_eq_iff (by positivity)]
  exact ⟨by linarith, fun h => (hodd (by linarith)).add_one⟩

/-- Rounding by a remainder `r` of whole bits, with `sticky` for what lies below them: up above the half, down below
it, to the even neighbour at a tie. -/
theorem nearestEven_of_remainder {q r half : ℕ} {f : ℝ} {sticky : Bool} (hhalf : 0 < half) (hr : r < 2 * half)
    (hlo : r ≤ f) (hhi : f < r + 1) (hsticky : sticky = true ↔ r < f) :
    NearestEven ((2 * half * q + f) / (2 * half))
      (if half < r ∨ r = half ∧ (sticky = true ∨ q % 2 = 1) then q + 1 else q) := by
  have hhalf' : (0 : ℝ) < half := by exact_mod_cast hhalf
  have h0 : (0 : ℝ) ≤ r := r.cast_nonneg
  split
  · rename_i hup
    have hge : (half : ℝ) ≤ r := by exact_mod_cast (show half ≤ r by omega)
    have hr' : (r : ℝ) + 1 ≤ 2 * half := by exact_mod_cast hr
    refine nearestEven_up hhalf' (by linarith) (by linarith) fun htie => Nat.odd_iff.2 ?_
    have hs : ¬ sticky = true := by rw [hsticky]; linarith
    have hhalfr : ¬ half < r := fun h => by
      have : (half : ℝ) < r := by exact_mod_cast h
      linarith
    tauto
  · rename_i hdown
    rcases Nat.lt_or_ge r half with hlt | hge
    · have hlt' : (r : ℝ) + 1 ≤ half := by exact_mod_cast hlt
      exact nearestEven_down hhalf' (by linarith) (by linarith) fun htie => by linarith
    · obtain rfl : r = half := by omega
      have hs : ¬ r < f := fun h => hdown (.inr ⟨rfl, .inl (hsticky.2 h)⟩)
      exact nearestEven_down hhalf' (by linarith) (by linarith) fun _ => Nat.even_iff.2 (by omega)

/-! ### The rounding step of the machine -/

/-- The exponent `F64.round` rounds at. -/
def roundExponent (m : Nat) (e : Int) : Int := max (e + (Nat.log2 m : Int) - 52) (-1074)

/-- That exponent counted from the least one, 2^-1074. -/
def roundUnit (m : Nat) (e : Int) : Nat := (roundExponent m e + 1074).toNat

/-- `m` without its low `k` bits, rounded by them and by what lies below `m`. -/
def dropBits (m k : Nat) (sticky : Bool) : Nat :=
  let q := m >>> k
  let r := m % 2 ^ k
  let half := 2 ^ (k - 1)
  if half < r || (r == half && (sticky || q % 2 == 1)) then q + 1 else q

/-- The significand `F64.round` keeps. -/
def roundKept (m : Nat) (e : Int) (sticky : Bool) : Nat :=
  if roundExponent m e ≤ e then m <<< (e - roundExponent m e).toNat
  else dropBits m (roundExponent m e - e).toNat sticky

/-- The magnitude `F64.round` forms from exponent and significand. -/
def roundMagnitude (m : Nat) (e : Int) (sticky : Bool) : Nat :=
  roundUnit m e * 2 ^ 52 + roundKept m e sticky

theorem F64.round_eq (negative : Bool) (m : Nat) (e : Int) (sticky : Bool) :
    F64.round negative m e sticky =
      if 2047 * 2 ^ 52 ≤ roundMagnitude m e sticky then F64.infinity negative
      else F64.ofParts negative (roundMagnitude m e sticky) := rfl

/-- What `m` and `sticky` say of an exact value `x`: it is `m`, or lies strictly between `m` and `m + 1`, and then
`m` has bits to spare. -/
inductive Truncates (x : ℝ) (m : Nat) : Bool → Prop where
  | equal (heq : x = m) : Truncates x m false
  | between (hlo : m < x) (hhi : x < m + 1) (hbits : 2 ^ 53 ≤ m) : Truncates x m true

section
variable {x : ℝ} {m : Nat} {e : Int} {sticky : Bool}

theorem Truncates.le (h : Truncates x m sticky) : (m : ℝ) ≤ x := by
  cases h with
  | equal heq => exact heq.ge
  | between hlo _ _ => exact hlo.le

theorem Truncates.lt (h : Truncates x m sticky) : x < m + 1 := by
  cases h with
  | equal heq => rw [heq]; exact lt_add_one _
  | between _ hhi _ => exact hhi

theorem Truncates.eq (h : Truncates x m false) : x = m := by
  cases h with
  | equal heq => exact heq

theorem Truncates.sticky_iff (h : Truncates x m sticky) : sticky = true ↔ (m : ℝ) < x := by
  cases h with
  | equal heq => simp [heq]
  | between hlo _ _ => simp [hlo]

/-- Dropping bits rounds the exact value to the nearest multiple of the last bit kept. -/
theorem dropBits_nearestEven {k : Nat} (hk : 0 < k) (hx : Truncates x m sticky) :
    NearestEven (x / 2 ^ k) (dropBits m k sticky) := by
  obtain ⟨n, rfl⟩ : ∃ n, k = n + 1 := ⟨k - 1, by omega⟩
  have hsplit : m = 2 * 2 ^ n * (m >>> (n + 1)) + m % 2 ^ (n + 1) := by
    rw [← pow_succ', Nat.shiftRight_eq_div_pow, Nat.div_add_mod]
  have hr : m % 2 ^ (n + 1) < 2 * 2 ^ n := by
    rw [← pow_succ']; exact Nat.mod_lt _ (by positivity)
  simp only [dropBits, Nat.add_sub_cancel, Bool.or_eq_true, Bool.and_eq_true, decide_eq_true_eq, beq_iff_eq]
  generalize m >>> (n + 1) = q at *
  generalize m % 2 ^ (n + 1) = r at *
  obtain ⟨f, rfl⟩ : ∃ f, x = 2 * 2 ^ n * q + f := ⟨_, (add_sub_cancel _ _).symm⟩
  have hm : (m : ℝ) = 2 * 2 ^ n * q + r := by rw [hsplit]; push_cast; ring
  have hhi := hx.lt
  have hsticky := hx.sticky_iff
  rw [hm] at hhi hsticky
  rw [pow_succ']
  have hround := nearestEven_of_remainder (half := 2 ^ n) (r := r) (f := f) (q := q) (by positivity) hr
    (by linarith [hx.le]) (by linarith) (hsticky.trans (add_lt_add_iff_left _))
  simpa only [Nat.cast_pow, Nat.cast_ofNat] using hround

theorem neg1074_le_roundExponent (m : Nat) (e : Int) : -1074 ≤ roundExponent m e := le_max_right _ _

/-- The last bit kept is above the last bit there is, if bits were lost before. -/
theorem Truncates.lt_roundExponent (h : Truncates x m true) : e < roundExponent m e := by
  cases h with
  | between _ _ hbits =>
    have hlog : 53 ≤ Nat.log2 m := (Nat.le_log2 (by omega)).2 hbits
    rw [roundExponent]
    omega

/-- The significand kept is the exact value rounded at the exponent chosen. -/
theorem roundKept_nearestEven (hx : Truncates x m sticky) :
    NearestEven (x * 2 ^ (e - roundExponent m e)) (roundKept m e sticky) := by
  rw [roundKept]
  split
  · rename_i hle
    have heq : x = m := by
      cases sticky with
      | false => exact hx.eq
      | true => exact absurd (hx.lt_roundExponent (e := e)) (by omega)
    have hkept : x * 2 ^ (e - roundExponent m e) = (m <<< (e - roundExponent m e).toNat : ℕ) := by
      rw [heq, Nat.shiftLeft_eq, Nat.cast_mul, Nat.cast_pow, Nat.cast_ofNat, ← zpow_natCast,
        Int.toNat_of_nonneg (by omega)]
    rw [hkept]
    exact nearestEven_self _
  · rename_i hgt
    have hdrop : x * 2 ^ (e - roundExponent m e) = x / 2 ^ (roundExponent m e - e).toNat := by
      rw [← zpow_natCast, Int.toNat_of_nonneg (by omega), div_eq_mul_inv, ← zpow_neg, neg_sub]
    rw [hdrop]
    exact dropBits_nearestEven (by omega) hx

/-- The value lies below the 54-bit numbers at the exponent chosen. -/
theorem Truncates.scaled_le (hx : Truncates x m sticky) : x * 2 ^ (e - roundExponent m e) ≤ (2 ^ 53 : ℕ) := by
  have hm : x ≤ 2 ^ (Nat.log2 m + 1) := hx.lt.le.trans (by exact_mod_cast Nat.lt_log2_self)
  have he : e + (Nat.log2 m : Int) - 52 ≤ roundExponent m e := le_max_left _ _
  calc x * 2 ^ (e - roundExponent m e) ≤ 2 ^ (Nat.log2 m + 1) * 2 ^ (e - roundExponent m e) := by gcongr
    _ = 2 ^ ((Nat.log2 m + 1 : ℕ) + (e - roundExponent m e)) := by
      rw [zpow_add₀ two_ne_zero, zpow_natCast]
    _ ≤ 2 ^ (53 : ℤ) := zpow_le_zpow_right₀ one_le_two (by push_cast; omega)
    _ = (2 ^ 53 : ℕ) := by norm_num

/-- Above the least exponent the value has 53 bits at the exponent chosen. -/
theorem Truncates.le_scaled (hx : Truncates x m sticky) (hm : m ≠ 0) (he : roundExponent m e ≠ -1074) :
    (2 ^ 52 : ℕ) ≤ x * 2 ^ (e - roundExponent m e) := by
  have hlog : (2 : ℝ) ^ Nat.log2 m ≤ x := le_trans (by exact_mod_cast Nat.log2_self_le hm) hx.le
  have htop : e + (Nat.log2 m : Int) - 52 = roundExponent m e := by rw [roundExponent] at he ⊢; omega
  calc ((2 ^ 52 : ℕ) : ℝ) = 2 ^ ((Nat.log2 m : ℤ) + (e - roundExponent m e)) := by
        rw [show (Nat.log2 m : ℤ) + (e - roundExponent m e) = (52 : ℕ) by push_cast; omega, zpow_natCast]
        norm_num
    _ = 2 ^ Nat.log2 m * 2 ^ (e - roundExponent m e) := by rw [zpow_add₀ two_ne_zero, zpow_natCast]
    _ ≤ x * 2 ^ (e - roundExponent m e) := by gcongr

end

/-! ### The values of the reals -/

/-- -1 for a negative sign, else 1. -/
def signFactor (negative : Bool) : Int := if negative then -1 else 1

theorem signFactor_mul_self (negative : Bool) : signFactor negative * signFactor negative = 1 := by
  cases negative <;> rfl

theorem signFactor_bne (p q : Bool) : signFactor (p != q) = signFactor p * signFactor q := by
  cases p <;> cases q <;> rfl

theorem signFactor_mul_natAbs (i : Int) : signFactor (decide (i < 0)) * (i.natAbs : Int) = i := by
  by_cases h : i < 0
  · rw [decide_eq_true h, show signFactor true = -1 from rfl]; omega
  · rw [decide_eq_false h, show signFactor false = 1 from rfl]; omega

theorem abs_signFactor (negative : Bool) : |((signFactor negative : Int) : ℝ)| = 1 := by
  cases negative <;> simp [signFactor]

theorem F64.signed_eq (a : F64) : a.signed = signFactor a.sign * a.significand := by
  cases h : a.sign <;> simp [F64.signed, signFactor, h]

theorem F64.neg1074_le_scale (a : F64) : -1074 ≤ a.scale := by
  rw [F64.scale]; split <;> omega

theorem F64.fraction_lt (a : F64) : a.fraction < 2 ^ 52 := Nat.mod_lt _ (by norm_num)

theorem F64.significand_lt (a : F64) : a.significand < 2 ^ 53 := by
  have := a.fraction_lt
  rw [F64.significand]; split <;> omega

theorem F64.finite_iff (a : F64) : a.finite = true ↔ a.magnitude < 2047 * 2 ^ 52 := by
  rw [F64.finite, decide_eq_true_iff, F64.exponent, Nat.div_lt_iff_lt_mul (by norm_num)]

theorem F64.ofParts_sign {negative : Bool} {m : Nat} (h : m < 2 ^ 63) : (F64.ofParts negative m).sign = negative := by
  cases negative <;> simp only [F64.ofParts, F64.sign, BitVec.toNat_ofNat] <;> simp <;> omega

theorem F64.infinity_not_finite (negative : Bool) : (F64.infinity negative).finite = false := by
  cases negative <;> decide

theorem zpow_add_count (z : Int) : (2 : ℝ) ^ (z + 1074) = 2 ^ z * 2 ^ 1074 := by
  rw [zpow_add₀ two_ne_zero, ← zpow_natCast]
  rfl

/-- The exact value in counts of 2^-1074, as a real number. -/
theorem F64.toFixed_cast (a : F64) :
    (a.toFixed : ℝ) = signFactor a.sign * (a.significand * (2 ^ a.scale * 2 ^ 1074)) := by
  have h := a.neg1074_le_scale
  rw [F64.toFixed, F64.signed_eq, ← zpow_add_count]
  push_cast
  rw [mul_assoc, ← zpow_natCast, Int.toNat_of_nonneg (by omega)]

/-- A real is a multiple of a given power of two, or smaller than 2^52 times it. -/
theorem F64.dvd_or_abs_lt (a : F64) (p : Nat) :
    (2 : Int) ^ p ∣ a.toFixed ∨ |(a.toFixed : ℝ)| < 2 ^ 52 * 2 ^ p := by
  by_cases hp : p ≤ (a.scale + 1074).toNat
  · exact .inl ((pow_dvd_pow 2 hp).mul_left _)
  · right
    have hs : (a.significand : ℝ) < 2 ^ 53 := by exact_mod_cast a.significand_lt
    have hle : (2 : ℝ) ^ ((a.scale + 1074).toNat + 1) ≤ 2 ^ p := pow_le_pow_right₀ one_le_two (by omega)
    rw [F64.toFixed, F64.signed_eq]
    push_cast
    rw [abs_mul, abs_mul, abs_signFactor, one_mul, abs_of_nonneg (Nat.cast_nonneg _), abs_of_pos (by positivity)]
    calc (a.significand : ℝ) * 2 ^ (a.scale + 1074).toNat < 2 ^ 53 * 2 ^ (a.scale + 1074).toNat := by gcongr
      _ = 2 ^ 52 * 2 ^ ((a.scale + 1074).toNat + 1) := by ring
      _ ≤ 2 ^ 52 * 2 ^ p := by gcongr

section
variable {negative : Bool} {p k : Nat}

theorem F64.ofParts_finite (h : p * 2 ^ 52 + k < 2047 * 2 ^ 52) :
    (F64.ofParts negative (p * 2 ^ 52 + k)).finite = true := by
  rw [F64.finite_iff, Machine.F64.ofParts_magnitude (by omega)]
  exact h

theorem F64.ofParts_fraction (h : p * 2 ^ 52 + k < 2 ^ 63) :
    (F64.ofParts negative (p * 2 ^ 52 + k)).fraction % 2 = k % 2 := by
  rw [F64.fraction, Machine.F64.ofParts_magnitude h]
  omega

/-- Exponent and significand put together: the significand counts 2^`p`, also where it carries into the exponent. -/
theorem F64.ofParts_toFixed (h : p * 2 ^ 52 + k < 2 ^ 63) (hk : k ≤ 2 ^ 53) (hp : p = 0 ∨ 2 ^ 52 ≤ k) :
    (F64.ofParts negative (p * 2 ^ 52 + k)).toFixed = signFactor negative * (k * 2 ^ p) := by
  have hmag := Machine.F64.ofParts_magnitude (negative := negative) h
  rw [F64.toFixed, F64.signed_eq, F64.ofParts_sign h, mul_assoc, F64.scale, F64.significand, F64.fraction,
    F64.exponent, hmag]
  congr 1
  rcases Nat.lt_or_ge k (2 ^ 52) with hlt | hge
  · obtain rfl : p = 0 := by omega
    have he : (0 * 2 ^ 52 + k) / 2 ^ 52 = 0 := by omega
    have hf : (0 * 2 ^ 52 + k) % 2 ^ 52 = k := by omega
    rw [he, hf, if_pos rfl, if_pos rfl]
    rfl
  · rcases Nat.lt_or_ge k (2 ^ 53) with hlt | hge
    · have he : (p * 2 ^ 52 + k) / 2 ^ 52 = p + 1 := by omega
      have hf : 2 ^ 52 + (p * 2 ^ 52 + k) % 2 ^ 52 = k := by omega
      rw [he, hf, if_neg (by omega), if_neg (by omega), show ((p + 1 : ℕ) - 1075 + 1074 : Int).toNat = p by omega]
    · have he : (p * 2 ^ 52 + k) / 2 ^ 52 = p + 2 := by omega
      have hf : 2 ^ 52 + (p * 2 ^ 52 + k) % 2 ^ 52 = 2 ^ 52 := by omega
      obtain rfl : k = 2 ^ 53 := by omega
      rw [he, hf, if_neg (by omega), if_neg (by omega),
        show ((p + 2 : ℕ) - 1075 + 1074 : Int).toNat = p + 1 by omega, pow_succ]
      push_cast
      ring

end

/-! ### What `F64.round` answers -/

section
variable {negative : Bool} {x : ℝ} {m : Nat} {e : Int} {sticky : Bool}

theorem two_pow_roundUnit (m : Nat) (e : Int) : (2 : ℝ) ^ roundUnit m e = 2 ^ (roundExponent m e + 1074) := by
  have h := neg1074_le_roundExponent m e
  rw [roundUnit, ← zpow_natCast, Int.toNat_of_nonneg (by omega)]

/-- The exact value, in units of the significand kept. -/
theorem scaled_eq (x : ℝ) (m : Nat) (e : Int) :
    x * 2 ^ (e + 1074) / 2 ^ roundUnit m e = x * 2 ^ (e - roundExponent m e) := by
  rw [two_pow_roundUnit, mul_div_assoc, ← zpow_sub₀ two_ne_zero, add_sub_add_right_eq_sub]

theorem Truncates.roundKept_le (hx : Truncates x m sticky) : roundKept m e sticky ≤ 2 ^ 53 :=
  (roundKept_nearestEven hx).ge_of_ge hx.scaled_le

/-- The significand kept has 53 bits, or counts the least value there is. -/
theorem Truncates.le_roundKept (hx : Truncates x m sticky) (hm : m ≠ 0) :
    roundUnit m e = 0 ∨ 2 ^ 52 ≤ roundKept m e sticky := by
  by_cases he : roundExponent m e = -1074
  · exact .inl (by rw [roundUnit, he]; rfl)
  · exact .inr ((roundKept_nearestEven hx).le_of_le (hx.le_scaled hm he))

/-- Below the overflow bound the answer is finite and is the significand kept, with its sign and unit. -/
theorem F64.round_toFixed (hm : m ≠ 0) (hx : Truncates x m sticky)
    (h : roundMagnitude m e sticky < 2047 * 2 ^ 52) :
    (F64.round negative m e sticky).finite = true ∧
      (F64.round negative m e sticky).toFixed =
        signFactor negative * (roundKept m e sticky * 2 ^ roundUnit m e) ∧
      (F64.round negative m e sticky).fraction % 2 = roundKept m e sticky % 2 := by
  rw [F64.round_eq, if_neg (by omega)]
  rw [roundMagnitude] at h ⊢
  exact ⟨F64.ofParts_finite h, F64.ofParts_toFixed (by omega) hx.roundKept_le (hx.le_roundKept hm),
    F64.ofParts_fraction (by omega)⟩

theorem roundMagnitude_lt_of_finite (h : (F64.round negative m e sticky).finite = true) :
    roundMagnitude m e sticky < 2047 * 2 ^ 52 := by
  by_contra hge
  rw [F64.round_eq, if_pos (by omega), F64.infinity_not_finite] at h
  cases h

/-- The significand kept is nearest among all the reals, those with a smaller unit included. -/
theorem NearestEven.nearest_real {X : ℝ} {p k : ℕ} (h : NearestEven (X / 2 ^ p) k)
    (hX : p = 0 ∨ 2 ^ 52 * 2 ^ p ≤ X) {v : ℤ} (hv : 2 ^ p ∣ v ∨ |(v : ℝ)| < 2 ^ 52 * 2 ^ p) :
    |k * 2 ^ p - X| ≤ |v - X| ∧ (|k * 2 ^ p - X| = |v - X| → v = k * 2 ^ p ∨ Even k) := by
  have hdvd (hv : (2 : ℤ) ^ p ∣ v) :
      |k * 2 ^ p - X| ≤ |v - X| ∧ (|k * 2 ^ p - X| = |v - X| → v = k * 2 ^ p ∨ Even k) := by
    obtain ⟨j, rfl⟩ := hv
    have hj := h.nearest_multiple (by positivity) j
    rw [mul_comm ((2 : ℤ) ^ p) j]
    push_cast
    exact ⟨hj.1, fun he => (hj.2 he).imp_left fun hjk => by rw [hjk]⟩
  rcases hv with hv | hv
  · exact hdvd hv
  · rcases hX with rfl | hX
    · exact hdvd (by rw [pow_zero]; exact one_dvd v)
    · have hnear := (h.nearest_multiple (by positivity) (2 ^ 52)).1
      have hbelow : |((2 ^ 52 : ℤ) : ℝ) * 2 ^ p - X| = X - 2 ^ 52 * 2 ^ p := by
        rw [Int.cast_pow, Int.cast_ofNat, abs_sub_comm, abs_of_nonneg (by linarith)]
      have hv' := (abs_lt.1 hv).2
      have hfar : |(v : ℝ) - X| = X - v := by rw [abs_sub_comm, abs_of_nonneg (by linarith)]
      rw [hbelow] at hnear
      rw [hfar]
      exact ⟨by linarith, fun he => absurd he (by linarith)⟩

/-- A distance does not change when both ends change their sign. -/
theorem abs_signFactor_mul_sub (negative : Bool) (v X : ℝ) :
    |v - signFactor negative * X| = |signFactor negative * v - X| := by
  have hsign : (signFactor negative : ℝ) * signFactor negative = 1 := by exact_mod_cast signFactor_mul_self negative
  calc |v - signFactor negative * X| = |(signFactor negative : ℝ) * (v - signFactor negative * X)| := by
        rw [abs_mul, abs_signFactor, one_mul]
    _ = |signFactor negative * v - X| := by rw [mul_sub, ← mul_assoc, hsign, one_mul]

/-- A finite answer of `F64.round` is its exact operand rounded to nearest, ties to even (R10). -/
theorem F64.round_roundedToNearest (hm : m ≠ 0) (hx : Truncates x m sticky)
    (hfinite : (F64.round negative m e sticky).finite = true) :
    Claims.RoundedToNearest (F64.round negative m e sticky)
      fun c => |(c.toFixed : ℝ) - signFactor negative * (x * 2 ^ (e + 1074))| := by
  obtain ⟨-, hfixed, hfraction⟩ :=
    F64.round_toFixed (negative := negative) hm hx (roundMagnitude_lt_of_finite hfinite)
  have hsign := signFactor_mul_self negative
  have hkept : NearestEven (x * 2 ^ (e + 1074) / 2 ^ roundUnit m e) (roundKept m e sticky) := by
    rw [scaled_eq]; exact roundKept_nearestEven hx
  have hX : roundUnit m e = 0 ∨ (2 : ℝ) ^ 52 * 2 ^ roundUnit m e ≤ x * 2 ^ (e + 1074) := by
    by_cases he : roundExponent m e = -1074
    · exact .inl (by rw [roundUnit, he]; rfl)
    · right
      rw [← le_div_iff₀ (by positivity), scaled_eq]
      exact_mod_cast hx.le_scaled hm he
  intro c _
  have hc : (2 : ℤ) ^ roundUnit m e ∣ signFactor negative * c.toFixed ∨
      |((signFactor negative * c.toFixed : ℤ) : ℝ)| < 2 ^ 52 * 2 ^ roundUnit m e :=
    (c.dvd_or_abs_lt (roundUnit m e)).imp (fun h => h.mul_left _) fun h => by
      rwa [Int.cast_mul, abs_mul, abs_signFactor, one_mul]
  obtain ⟨hle, heq⟩ := hkept.nearest_real hX hc
  have hr : (signFactor negative : ℝ) * ((F64.round negative m e sticky).toFixed : ℝ) =
      roundKept m e sticky * 2 ^ roundUnit m e := by
    rw [hfixed, ← Int.cast_mul, ← mul_assoc, hsign]
    push_cast
    ring
  rw [Int.cast_mul] at hle heq
  simp only [abs_signFactor_mul_sub, hr]
  refine ⟨hle, fun he => (heq he).imp (fun h => ?_) fun h => ?_⟩
  · rw [hfixed, ← h, ← mul_assoc, hsign, one_mul]
  · rw [hfraction]; exact Nat.even_iff.1 h

end

/-! ### Negation, zeros and exact conversions -/

theorem F64.neg_magnitude (a : F64) : a.neg.magnitude = a.magnitude := by
  rw [F64.magnitude, F64.neg, BitVec.toNat_xor, Nat.xor_mod_two_pow]
  simp [F64.magnitude]

theorem F64.neg_sign (a : F64) : a.neg.sign = !a.sign := by
  have hlt := a.bits.isLt
  have hbit : a.neg.bits.toNat / 2 ^ 63 = 1 - a.bits.toNat / 2 ^ 63 := by
    rw [F64.neg, BitVec.toNat_xor, Nat.xor_div_two_pow]
    have htop : a.bits.toNat / 2 ^ 63 = 0 ∨ a.bits.toNat / 2 ^ 63 = 1 := by omega
    rcases htop with h | h <;> rw [h] <;> rfl
  rw [F64.sign, F64.sign, ← decide_not, decide_eq_decide]
  omega

theorem F64.neg_finite (a : F64) : a.neg.finite = a.finite := by
  rw [Bool.eq_iff_iff, F64.finite_iff, F64.finite_iff, F64.neg_magnitude]

theorem F64.neg_toFixed (a : F64) : a.neg.toFixed = -a.toFixed := by
  have hexponent : a.neg.exponent = a.exponent := by rw [F64.exponent, F64.neg_magnitude, F64.exponent]
  have hfraction : a.neg.fraction = a.fraction := by rw [F64.fraction, F64.neg_magnitude, F64.fraction]
  have hsignificand : a.neg.significand = a.significand := by
    rw [F64.significand, hexponent, hfraction, F64.significand]
  have hscale : a.neg.scale = a.scale := by rw [F64.scale, hexponent, F64.scale]
  rw [F64.toFixed, F64.toFixed, F64.signed_eq, F64.signed_eq, F64.neg_sign, hsignificand, hscale]
  cases a.sign <;> simp [signFactor]

theorem F64.ofParts_zero_toFixed (negative : Bool) : (F64.ofParts negative 0).toFixed = 0 := by
  simpa using F64.ofParts_toFixed (negative := negative) (p := 0) (k := 0) (by norm_num) (by norm_num) (.inl rfl)

theorem F64.toFixed_eq_zero_iff (a : F64) : a.toFixed = 0 ↔ a.significand = 0 := by
  rw [F64.toFixed, F64.signed_eq]
  cases a.sign <;> simp [signFactor]

/-- A value that is represented exactly is its own rounding. -/
theorem roundedToNearest_of_exact {r : F64} {X : ℝ} (h : (r.toFixed : ℝ) = X) :
    Claims.RoundedToNearest r fun c => |(c.toFixed : ℝ) - X| := by
  intro c _
  simp only [h, sub_self, abs_zero]
  refine ⟨abs_nonneg _, fun he => .inl ?_⟩
  have hc : (c.toFixed : ℝ) = r.toFixed := by rw [h]; exact sub_eq_zero.1 (abs_eq_zero.1 he.symm)
  exact_mod_cast hc

theorem F64.zero_roundedToNearest (negative : Bool) {X : ℝ} (h : X = 0) :
    Claims.RoundedToNearest (F64.ofParts negative 0) fun c => |(c.toFixed : ℝ) - X| :=
  roundedToNearest_of_exact (by rw [F64.ofParts_zero_toFixed, h, Int.cast_zero])

/-- A natural number of at most 53 bits becomes a real exactly (R9). -/
theorem F64.ofNat_toFixed {n : Nat} (h : n < 2 ^ 53) :
    (F64.ofNat n).finite = true ∧ (F64.ofNat n).toFixed = (n : Int) * 2 ^ 1074 := by
  rcases Nat.eq_zero_or_pos n with rfl | hpos
  · exact ⟨by decide, by rw [Nat.cast_zero, zero_mul]; exact F64.ofParts_zero_toFixed false⟩
  · have hlog : Nat.log2 n < 53 := (Nat.log2_lt (by omega)).2 h
    have hexp : roundExponent n 0 = (Nat.log2 n : Int) - 52 := by rw [roundExponent]; omega
    have hunit : roundUnit n 0 = Nat.log2 n + 1022 := by rw [roundUnit, hexp]; omega
    have hkept : roundKept n 0 false = n * 2 ^ (52 - Nat.log2 n) := by
      rw [roundKept, if_pos (by omega), hexp, Nat.shiftLeft_eq,
        show (0 - ((Nat.log2 n : Int) - 52)).toNat = 52 - Nat.log2 n by omega]
    have hx : Truncates n n false := .equal rfl
    have hmag : roundMagnitude n 0 false < 2047 * 2 ^ 52 := by
      have := hx.roundKept_le (e := 0)
      rw [roundMagnitude, hunit]
      omega
    obtain ⟨hfinite, hfixed, -⟩ := F64.round_toFixed (negative := false) (by omega) hx hmag
    have hround : F64.ofNat n = F64.round false n 0 false := by
      rw [F64.ofNat, F64.ofInt, if_neg (by omega), Int.natAbs_natCast, decide_eq_false (by omega)]
    rw [hround, hfixed, hkept, hunit, show signFactor false = 1 from rfl, one_mul]
    refine ⟨hfinite, ?_⟩
    rw [Nat.cast_mul, Nat.cast_pow, Nat.cast_ofNat, mul_assoc, ← pow_add,
      show 52 - Nat.log2 n + (Nat.log2 n + 1022) = 1074 by omega]

/-! ### The arithmetic operations round once -/

/-- The sum of two reals in units of the smaller scale. -/
def F64.alignedSum (a b : F64) : Int :=
  a.signed * 2 ^ (a.scale - min a.scale b.scale).toNat + b.signed * 2 ^ (b.scale - min a.scale b.scale).toNat

theorem F64.addFinite_eq (a b : F64) :
    F64.addFinite a b =
      if F64.alignedSum a b = 0 then F64.ofParts (a.sign && b.sign) 0
      else F64.round (decide (F64.alignedSum a b < 0)) (F64.alignedSum a b).natAbs (min a.scale b.scale) false := rfl

/-- A significand in units of a smaller scale has the same value. -/
theorem F64.toFixed_eq_aligned (a : F64) {e : Int} (h : e ≤ a.scale) :
    (a.toFixed : ℝ) = (a.signed * 2 ^ (a.scale - e).toNat : Int) * 2 ^ (e + 1074) := by
  have hs := a.neg1074_le_scale
  rw [F64.toFixed]
  push_cast
  rw [mul_assoc, ← zpow_natCast, ← zpow_natCast, ← zpow_add₀ two_ne_zero, Int.toNat_of_nonneg (by omega),
    Int.toNat_of_nonneg (by omega)]
  congr 2
  ring

theorem F64.alignedSum_value (a b : F64) :
    (a.toFixed : ℝ) + b.toFixed = F64.alignedSum a b * 2 ^ (min a.scale b.scale + 1074) := by
  rw [F64.toFixed_eq_aligned a (min_le_left a.scale b.scale), F64.toFixed_eq_aligned b (min_le_right a.scale b.scale),
    ← add_mul, ← Int.cast_add, F64.alignedSum]

theorem F64.addFinite_roundedToNearest {a b : F64} (h : (F64.addFinite a b).finite = true) :
    Claims.RoundedToNearest (F64.addFinite a b) fun c => |(c.toFixed : ℝ) - (a.toFixed + b.toFixed)| := by
  rw [F64.addFinite_eq] at h ⊢
  split at h
  · rename_i h0
    rw [if_pos h0]
    exact F64.zero_roundedToNearest _ (by rw [F64.alignedSum_value, h0, Int.cast_zero, zero_mul])
  · rename_i h0
    rw [if_neg h0]
    have hexact : (a.toFixed : ℝ) + b.toFixed = signFactor (decide (F64.alignedSum a b < 0)) *
        ((F64.alignedSum a b).natAbs * 2 ^ (min a.scale b.scale + 1074)) := by
      rw [F64.alignedSum_value, ← mul_assoc, ← Int.cast_natCast (F64.alignedSum a b).natAbs, ← Int.cast_mul,
        signFactor_mul_natAbs]
    rw [hexact]
    exact F64.round_roundedToNearest (Int.natAbs_ne_zero.2 h0) (.equal rfl) h

/-- The exact product: the product of the significands at the sum of the scales. -/
theorem F64.product_value (a b : F64) :
    (a.toFixed : ℝ) * b.toFixed / 2 ^ 1074 = signFactor (a.sign != b.sign) *
      ((a.significand * b.significand : ℕ) * 2 ^ (a.scale + b.scale + 1074)) := by
  have hcount : (2 : ℝ) ^ 1074 ≠ 0 := by positivity
  rw [F64.toFixed_cast, F64.toFixed_cast, signFactor_bne, zpow_add_count, zpow_add₀ two_ne_zero]
  generalize (2 : ℝ) ^ 1074 = count at *
  push_cast
  field_simp

theorem F64.mulFinite_roundedToNearest {a b : F64} (h : (F64.mulFinite a b).finite = true) :
    Claims.RoundedToNearest (F64.mulFinite a b)
      fun c => |(c.toFixed : ℝ) - (a.toFixed : ℝ) * b.toFixed / 2 ^ 1074| := by
  rw [F64.product_value]
  unfold F64.mulFinite at h ⊢
  by_cases h0 : a.significand * b.significand = 0
  · simp only [if_pos h0]
    exact F64.zero_roundedToNearest _ (by rw [h0, Nat.cast_zero, zero_mul, mul_zero])
  · simp only [if_neg h0] at h ⊢
    exact F64.round_roundedToNearest h0 (.equal rfl) h

/-- A quotient with a remainder bit says where the exact quotient lies. -/
theorem truncates_div {n d : Nat} (hd : 0 < d) (h : 2 ^ 53 ≤ n / d) :
    Truncates ((n : ℝ) / d) (n / d) (n % d != 0) := by
  have hd' : (0 : ℝ) < d := by exact_mod_cast hd
  have hn : (n : ℝ) = d * (n / d : ℕ) + (n % d : ℕ) := by exact_mod_cast (Nat.div_add_mod n d).symm
  by_cases hr : n % d = 0
  · have hs : (n % d != 0) = false := by simp [hr]
    rw [hs]
    refine .equal ?_
    rw [div_eq_iff hd'.ne', hn, hr, Nat.cast_zero, add_zero, mul_comm]
  · have hs : (n % d != 0) = true := by simp [hr]
    have hpos : (0 : ℝ) < (n % d : ℕ) := by exact_mod_cast Nat.pos_of_ne_zero hr
    have hlt : ((n % d : ℕ) : ℝ) < d := by exact_mod_cast Nat.mod_lt n hd
    rw [hs]
    exact .between (by rw [lt_div_iff₀ hd']; linarith) (by rw [div_lt_iff₀ hd']; linarith) h

/-- The machine's quotient of two significands has bits to spare. -/
theorem F64.quotient_bits {a b : F64} (ha : a.significand ≠ 0) (hb : 0 < b.significand) :
    2 ^ 53 ≤ a.significand <<< 108 / b.significand := by
  have hlt := b.significand_lt
  rw [Nat.le_div_iff_mul_le hb, Nat.shiftLeft_eq]
  omega

/-- The exact quotient: the quotient of the significands, the first with 108 bits put to it, at the difference of the
scales. -/
theorem F64.quotient_value {a b : F64} (hb : b.significand ≠ 0) :
    (a.toFixed : ℝ) * (2 : ℝ) ^ 1074 / b.toFixed = signFactor (a.sign != b.sign) *
      (((a.significand <<< 108 : ℕ) : ℝ) / b.significand * 2 ^ (a.scale - b.scale - 108 + 1074)) := by
  have hb0 : (b.significand : ℝ) ≠ 0 := by exact_mod_cast hb
  have hcount : (2 : ℝ) ^ 1074 ≠ 0 := by positivity
  have hsign : (signFactor b.sign : ℝ) * signFactor b.sign = 1 := by exact_mod_cast signFactor_mul_self b.sign
  have hsign0 : (signFactor b.sign : ℝ) ≠ 0 := left_ne_zero_of_mul_eq_one hsign
  have hshift : ((a.significand <<< 108 : ℕ) : ℝ) = a.significand * 2 ^ (108 : ℤ) := by
    rw [Nat.shiftLeft_eq]; norm_num
  rw [F64.toFixed_cast, F64.toFixed_cast, signFactor_bne, zpow_add_count, zpow_sub₀ two_ne_zero,
    zpow_sub₀ two_ne_zero, hshift]
  generalize (2 : ℝ) ^ 1074 = count at *
  push_cast
  field_simp
  linear_combination -(signFactor a.sign : ℝ) * a.significand * hsign

theorem F64.divFinite_roundedToNearest {a b : F64} (hb : b.toFixed ≠ 0) (h : (F64.divFinite a b).finite = true) :
    Claims.RoundedToNearest (F64.divFinite a b)
      fun c => |(c.toFixed : ℝ) - (a.toFixed : ℝ) * 2 ^ 1074 / b.toFixed| := by
  have hb' : b.significand ≠ 0 := fun h0 => hb (b.toFixed_eq_zero_iff.2 h0)
  have hpos : 0 < b.significand := Nat.pos_of_ne_zero hb'
  unfold F64.divFinite at h ⊢
  simp only [if_neg hb'] at h ⊢
  by_cases ha : a.significand = 0
  · simp only [if_pos ha]
    exact F64.zero_roundedToNearest _ (by rw [a.toFixed_eq_zero_iff.2 ha, Int.cast_zero, zero_mul, zero_div])
  · simp only [if_neg ha] at h ⊢
    have hbits := F64.quotient_bits ha hpos
    rw [F64.quotient_value hb']
    exact F64.round_roundedToNearest (Nat.ne_of_gt (lt_of_lt_of_le (by norm_num) hbits))
      (truncates_div hpos hbits) h

/-- Each settled digit keeps the root between the two bounds. -/
theorem isqrtFrom_bounds {n bits r : Nat} (hlo : r * r ≤ n) (hhi : n < (r + 2 ^ bits) * (r + 2 ^ bits)) :
    isqrtFrom n bits r * isqrtFrom n bits r ≤ n ∧
      n < (isqrtFrom n bits r + 1) * (isqrtFrom n bits r + 1) := by
  induction bits generalizing r with
  | zero => exact ⟨hlo, hhi⟩
  | succ bits ih =>
    rw [isqrtFrom]
    split
    · rename_i hle
      exact ih hle (by rwa [add_assoc, ← mul_two, ← pow_succ])
    · rename_i hgt
      exact ih hlo (not_le.1 hgt)

/-- The root found bit by bit is the integer square root. -/
theorem isqrt_eq_sqrt (n : Nat) : isqrt n = Nat.sqrt n := by
  refine Nat.eq_sqrt.2 (isqrtFrom_bounds (by omega) ?_)
  calc n < 2 ^ (Nat.log2 n + 1) := Nat.lt_log2_self
    _ ≤ 2 ^ ((Nat.log2 n / 2 + 1) + (Nat.log2 n / 2 + 1)) := Nat.pow_le_pow_right (by norm_num) (by omega)
    _ = (0 + 2 ^ (Nat.log2 n / 2 + 1)) * (0 + 2 ^ (Nat.log2 n / 2 + 1)) := by rw [pow_add, Nat.zero_add]

/-- An integer root with a remainder bit says where the exact root lies. -/
theorem truncates_sqrt {n : Nat} (h : 2 ^ 53 ≤ isqrt n) :
    Truncates (Real.sqrt n) (isqrt n) (isqrt n * isqrt n != n) := by
  by_cases hr : isqrt n * isqrt n = n
  · rw [show (isqrt n * isqrt n != n) = false by simp [hr]]
    refine .equal ?_
    rw [Real.sqrt_eq_iff_mul_self_eq (by positivity) (by positivity)]
    exact_mod_cast hr.symm
  · rw [show (isqrt n * isqrt n != n) = true by simp [hr]]
    have hlt : isqrt n * isqrt n < n :=
      lt_of_le_of_ne (by rw [isqrt_eq_sqrt]; exact Nat.sqrt_le n) hr
    refine .between ?_ ?_ h
    · rw [Real.lt_sqrt (by positivity), sq]
      exact_mod_cast hlt
    · rw [isqrt_eq_sqrt]
      exact Real.real_sqrt_lt_nat_sqrt_succ

/-- The integer whose root the machine takes: the significand, with an even power of two left to it. -/
def F64.radicand (a : F64) : Nat := (a.significand <<< (a.scale % 2).toNat) <<< 110

theorem F64.sqrtPositive_eq (a : F64) :
    F64.sqrtPositive a = F64.round false (isqrt a.radicand) ((a.scale - a.scale % 2) / 2 - 55)
      (isqrt a.radicand * isqrt a.radicand != a.radicand) := rfl

theorem F64.radicand_eq (a : F64) : a.radicand = a.significand * 2 ^ (a.scale % 2).toNat * 2 ^ 110 := by
  have hshift : ∀ n k : ℕ, n <<< k = n * 2 ^ k := Nat.shiftLeft_eq
  unfold F64.radicand
  rw [hshift, hshift]

theorem F64.isqrt_radicand_bounds {a : F64} (ha : a.significand ≠ 0) :
    2 ^ 53 ≤ isqrt a.radicand ∧ isqrt a.radicand < 2 ^ 82 := by
  have hlt := a.significand_lt
  have hodd : (a.scale % 2).toNat = 0 ∨ (a.scale % 2).toNat = 1 := by omega
  rw [isqrt_eq_sqrt, Nat.le_sqrt, Nat.sqrt_lt, F64.radicand_eq]
  rcases hodd with h | h <;> rw [h] <;> omega

theorem F64.scale_le_of_finite {a : F64} (h : a.finite = true) : a.scale ≤ 971 := by
  have hexp : a.exponent < 2047 := of_decide_eq_true h
  rw [F64.scale]; split <;> omega

/-- The root has about half the exponent of its radicand, so that it never overflows. -/
theorem F64.sqrtPositive_finite {a : F64} (ha : a.significand ≠ 0) (hf : a.finite = true) :
    (F64.sqrtPositive a).finite = true := by
  obtain ⟨hlo, hhi⟩ := F64.isqrt_radicand_bounds ha
  have hne : isqrt a.radicand ≠ 0 := by omega
  have hx := truncates_sqrt hlo
  have hscale := F64.scale_le_of_finite hf
  have hlog : Nat.log2 (isqrt a.radicand) < 82 := (Nat.log2_lt hne).2 hhi
  have hexp : roundExponent (isqrt a.radicand) ((a.scale - a.scale % 2) / 2 - 55) ≤ 459 := by
    rw [roundExponent]; omega
  have hkept := hx.roundKept_le (e := (a.scale - a.scale % 2) / 2 - 55)
  rw [F64.sqrtPositive_eq]
  refine (F64.round_toFixed hne hx ?_).1
  rw [roundMagnitude, roundUnit]
  omega

/-- The radicand and the exponent that is halved make up the value. -/
theorem F64.sqrt_toFixed {a : F64} (hs : a.sign = false) :
    Real.sqrt ((a.toFixed : ℝ) * 2 ^ 1074) =
      Real.sqrt a.radicand * 2 ^ ((a.scale - a.scale % 2) / 2 - 55 + 1074) := by
  have hvalue : (a.toFixed : ℝ) * 2 ^ 1074 =
      a.radicand * (2 ^ ((a.scale - a.scale % 2) / 2 - 55 + 1074)) ^ 2 := by
    have hodd : ((2 : ℝ) ^ (a.scale % 2).toNat) = 2 ^ (a.scale % 2) := by
      rw [← zpow_natCast, Int.toNat_of_nonneg (by omega)]
    have hscale : (2 : ℝ) ^ a.scale =
        2 ^ (a.scale % 2) * 2 ^ ((a.scale - a.scale % 2) / 2) * 2 ^ ((a.scale - a.scale % 2) / 2) := by
      rw [← zpow_add₀ two_ne_zero, ← zpow_add₀ two_ne_zero]
      congr 1
      omega
    rw [F64.toFixed_cast, hs, F64.radicand_eq, zpow_add_count, zpow_sub₀ two_ne_zero, hscale]
    generalize (2 : ℝ) ^ 1074 = count
    push_cast
    rw [hodd, show signFactor false = 1 from rfl]
    norm_num
    ring
  rw [hvalue, Real.sqrt_mul (by positivity), Real.sqrt_sq (by positivity)]

theorem F64.sign_eq_false_of_nonneg {a : F64} (h : 0 ≤ a.toFixed) (ha : a.significand ≠ 0) : a.sign = false := by
  by_contra hs
  have hpos : 0 < (a.significand : Int) * 2 ^ (a.scale + 1074).toNat := by positivity
  rw [F64.toFixed, F64.signed_eq, Bool.eq_true_of_not_eq_false hs, show signFactor true = -1 from rfl] at h
  linarith

theorem F64.sqrt_roundedToNearest {a : F64} (hf : a.finite = true) (h : 0 ≤ a.toFixed) :
    (F64.sqrt a).finite = true ∧
      Claims.RoundedToNearest (F64.sqrt a) fun c => |(c.toFixed : ℝ) - Real.sqrt ((a.toFixed : ℝ) * 2 ^ 1074)| := by
  by_cases ha : a.significand = 0
  · have h0 := a.toFixed_eq_zero_iff.2 ha
    rw [F64.sqrt, if_pos hf, if_pos ha]
    exact ⟨hf, roundedToNearest_of_exact (by simp [h0])⟩
  · have hs := F64.sign_eq_false_of_nonneg h ha
    have hfinite := F64.sqrtPositive_finite ha hf
    have hlo := (F64.isqrt_radicand_bounds ha).1
    have hroot : F64.sqrt a = F64.sqrtPositive a := by
      rw [F64.sqrt, if_pos hf, if_neg ha, if_neg (by rw [hs]; decide)]
    rw [hroot]
    refine ⟨hfinite, ?_⟩
    rw [F64.sqrtPositive_eq] at hfinite ⊢
    have hround := F64.round_roundedToNearest (by omega) (truncates_sqrt hlo) hfinite
    simpa only [F64.sqrt_toFixed hs, show signFactor false = 1 from rfl, Int.cast_one, one_mul] using hround

theorem F64.add_eq_addFinite {a b : F64} (ha : a.finite = true) (hb : b.finite = true) :
    F64.add a b = F64.addFinite a b := by
  rw [F64.add, ha, hb, Bool.and_self, if_pos rfl]

theorem F64.sub_eq_addFinite {a b : F64} (ha : a.finite = true) (hb : b.finite = true) :
    F64.sub a b = F64.addFinite a b.neg := by
  rw [F64.sub, ha, hb, Bool.and_self, if_pos rfl]

theorem F64.mul_eq_mulFinite {a b : F64} (ha : a.finite = true) (hb : b.finite = true) :
    F64.mul a b = F64.mulFinite a b := by
  rw [F64.mul, ha, hb, Bool.and_self, if_pos rfl]

theorem F64.div_eq_divFinite {a b : F64} (ha : a.finite = true) (hb : b.finite = true) :
    F64.div a b = F64.divFinite a b := by
  rw [F64.div, ha, hb, Bool.and_self, if_pos rfl]

/-! ### The obligations about the numerics -/

/-- Settles O15: the sum is handed to `F64.round` exactly, and a difference is the sum with the negated operand. -/
theorem additionRoundsToNearest : Obligations.AdditionRoundsToNearest := by
  intro a b ha hb
  refine ⟨fun h => ?_, fun h => ?_⟩
  · rw [F64.add_eq_addFinite ha hb] at h ⊢
    exact F64.addFinite_roundedToNearest h
  · rw [F64.sub_eq_addFinite ha hb] at h ⊢
    have hsub := F64.addFinite_roundedToNearest h
    rw [F64.neg_toFixed, Int.cast_neg, ← sub_eq_add_neg] at hsub
    exact hsub

/-- Settles O16: a code has at most 53 bits. -/
theorem codesConvertExactly : Obligations.CodesConvertExactly :=
  fun code => F64.ofNat_toFixed (code.isLt.trans (by norm_num))

/-- Settles O60: product exactly, quotient and root with a bit for their remainder. -/
theorem productQuotientAndRootRoundToNearest : Obligations.ProductQuotientAndRootRoundToNearest := by
  intro a b ha hb
  refine ⟨fun h => ?_, fun hb0 h => ?_, fun h => F64.sqrt_roundedToNearest ha h⟩
  · rw [F64.mul_eq_mulFinite ha hb] at h ⊢
    exact F64.mulFinite_roundedToNearest h
  · rw [F64.div_eq_divFinite ha hb] at h ⊢
    exact F64.divFinite_roundedToNearest hb0 h

end Sys2Proof

/-! ### The port -/

namespace Sys2Proof.Machine

theorem step_of_empty {s : State} (h : s.hostQueue = []) : step s = .next s := by
  rw [step, if_pos h]

theorem hostQueue_ne_nil_of_decode_ok {s : State} {i : Instr} {rest : List Byte}
    (h : decode s.hostQueue = .ok (i, rest)) : s.hostQueue ≠ [] := by
  intro h0
  rw [h0] at h
  cases h

theorem step_of_decode_ok {s : State} {i : Instr} {rest : List Byte} (h : decode s.hostQueue = .ok (i, rest)) :
    step s = exec i (s.setQueue rest) := by
  rw [step, if_neg (hostQueue_ne_nil_of_decode_ok h), State.fetch, h]

theorem step_of_decode_error {s : State} {e : DecodeError} (hne : s.hostQueue ≠ [])
    (h : decode s.hostQueue = .error e) : step s = .refused (.badOperation e) := by
  rw [step, if_neg hne, State.fetch, h]

/-- Settles O1, by what the port holds: nothing, an operation, or bytes that are none. -/
theorem stepRunsTheQueuedOperation : Obligations.StepRunsTheQueuedOperation :=
  fun _ => ⟨step_of_empty, fun _ _ => step_of_decode_ok, fun _ => step_of_decode_error⟩

end Sys2Proof.Machine
end

section
/-! PROOFS about the state (family 10_state).  What an operation can do to the state is said once: a chain of single
writes, each with what the machine guarantees of the value written, and sorted by the part of the block that makes
it.  An invariant or a frame then needs one look at each kind of write. -/

namespace Sys2Proof.Machine

/-! ### The states a body leaves -/

/-- Every state the body leaves satisfies `P`, whether it returns or raises F_BOUNDS. -/
def Res.Leaves {α : Type} (P : State → Prop) : Res α → Prop
  | .ok _ t => P t
  | .raised t => P t
  | .stopped _ => True

theorem Res.leaves_iff {α : Type} {P : State → Prop} {r : Res α} :
    r.Leaves P ↔ (∀ v t, r = .ok v t → P t) ∧ ∀ t, r = .raised t → P t := by
  cases r <;> simp [Res.Leaves]

theorem Res.Leaves.mono {α : Type} {P Q : State → Prop} {r : Res α} (h : r.Leaves P) (hPQ : ∀ t, P t → Q t) :
    r.Leaves Q := by
  cases r with
  | ok v t => exact hPQ t h
  | raised t => exact hPQ t h
  | stopped w => trivial

theorem Res.Leaves.andThen {α β : Type} {P Q : State → Prop} {r : Res α} {k : α → State → Res β}
    (h : r.Leaves P) (hraise : ∀ t, P t → Q t) (hk : ∀ v t, r = .ok v t → P t → (k v t).Leaves Q) :
    (r.andThen k).Leaves Q := by
  cases r with
  | ok v t => exact hk v t rfl h
  | raised t => exact hraise t h
  | stopped w => trivial

/-! ### The writes of the block -/

/-- Who makes a write: the line's datapath with the Line Tracker, an outcome CLS.* queued by itself (log entry 9), the
run and the reference of the sync detector, its scan registers, the host's PROCESS. -/
inductive Writer where
  | line
  | unguarded
  | detector
  | scan
  | process

/-- One write of the state by an operation other than RESET, with what is sure of the value written. -/
inductive Write : Writer → State → State → Prop
  | ret (s : State) (r : Result) : Write .line s (s.setRet r)
  | fault (s : State) (n : Nat) : Write .line s (s.raise n)
  | target (s : State) (a : F64) (legal : LegalTarget s.tgtPhase → LegalTarget a) :
      Write .line s (s.setTgtPhase a)
  | nl (s : State) (vals : List F64) (room : vals.length ≤ s.cfg.scaleTgt) :
      Write .line s (s.setNl (Cells.write none s.nl 0 vals))
  | filter (s : State) (f : FilterId) (st : FilterState)
      (fits : (s.filter f).fits (coefOf s.cfg f) → st.fits (coefOf s.cfg f))
      (cleared : (s.filter f).cleared = true → st.cleared = true) : Write .line s (s.setFilter f st)
  | het (s : State) : Write .line s (s.setHet (hetTable s.cfg))
  | row (s : State) (row : Nat) (vals : List F64) (below504 : row < 504) (cols : vals.length = Config.FB_COLS) :
      Write .line s ((s.setFb (writeRow s.fb row vals)).setFbDirty true)
  | fresh (s : State) : Write .line s ((s.setFb freshFrame).setFbDirty false)
  | emit (s : State) : Write .line s (emit s)
  | line2 (s : State) (l : Int) (legal : LegalLine s.line2 → LegalLine l) : Write .line s (s.setLine2 l)
  | line2Unguarded (s : State) (l : Int) : Write .unguarded s (s.setLine2 l)
  | openRun (s : State) (x : F64) : Write .detector s (s.openRun x)
  | extendRun (s : State) : Write .detector s s.extendRun
  | closeRun (s : State) : Write .detector s s.closeRun
  | reference (s : State) (x : F64) : Write .detector s (s.acceptCrossing x)
  | scan (s : State) (f : F64) (n : Nat) : Write .scan s (s.advanceScan f n)
  | window (s : State) (lo hi : Nat) : Write .process s (s.setWindow lo hi)
  | consumed (s : State) (n : Nat) : Write .process s (s.setConsumed n)

/-- `t` comes from `s` by writes of the writers in `ws`. -/
def Changes (ws : List Writer) : State → State → Prop :=
  Relation.ReflTransGen fun a b => ∃ w ∈ ws, Write w a b

section
variable {ws : List Writer}

theorem Changes.refl (s : State) : Changes ws s s := Relation.ReflTransGen.refl

theorem Changes.trans {s t u : State} (h : Changes ws s t) (h' : Changes ws t u) : Changes ws s u :=
  Relation.ReflTransGen.trans h h'

theorem Write.changes {w : Writer} {s t : State} (h : Write w s t) (hw : w ∈ ws) : Changes ws s t :=
  Relation.ReflTransGen.single ⟨w, hw, h⟩

theorem Changes.mono {ws' : List Writer} {s t : State} (h : Changes ws s t) (hws : ws ⊆ ws') : Changes ws' s t :=
  Relation.ReflTransGen.mono (fun _ _ ⟨w, hw, hab⟩ => ⟨w, hws hw, hab⟩) _ _ h

/-- What every write of the writers keeps, a chain of such writes keeps. -/
theorem Changes.keeps {P : State → Prop} {s t : State} (h : Changes ws s t)
    (hw : ∀ w ∈ ws, ∀ a b, Write w a b → P a → P b) (hs : P s) : P t := by
  induction h with
  | refl => exact hs
  | tail _ hab ih =>
    obtain ⟨w, hmem, hab⟩ := hab
    exact hw w hmem _ _ hab ih

/-- Bodies run one after the other change what each of them changes. -/
theorem Res.Leaves.changes_andThen {α β : Type} {s : State} {r : Res α} {k : α → State → Res β}
    (h : r.Leaves (Changes ws s)) (hk : ∀ v t, r = .ok v t → (k v t).Leaves (Changes ws t)) :
    (r.andThen k).Leaves (Changes ws s) :=
  h.andThen (fun _ ht => ht) fun v t hr ht => (hk v t hr).mono fun _ hu => ht.trans hu

end

/-! ### The writes of the datapath -/

theorem FilterState.clear_fits (spec : FilterSpec) (level : F64) : (FilterState.clear spec level).fits spec :=
  ⟨List.length_replicate, List.length_replicate⟩

theorem FilterState.uncleared_fits (spec : FilterSpec) : (FilterState.uncleared spec).fits spec :=
  ⟨List.length_replicate, List.length_replicate⟩

theorem shiftIn_length {n : Nat} {v : F64} {line : List F64} (h : line.length = n) :
    (shiftIn n v line).length = n := by
  rw [shiftIn, List.length_take, List.length_cons, h]
  omega

theorem FilterState.advance_fits {spec : FilterSpec} {f : FilterState} (h : f.fits spec) (v : F64) :
    (f.advance spec v).fits spec :=
  ⟨shiftIn_length h.1, shiftIn_length h.2⟩

/-- BURST's loop keeps the lengths of both delay lines and that they are cleared. -/
theorem burstFrom_filters {s : State} {off : Int} {k i : Nat} {acc acc' : BurstAcc}
    (h : burstFrom s off k i acc = .ok acc')
    (hfi : acc.fi.fits s.cfg.burstCoef ∧ acc.fi.cleared = true)
    (hfq : acc.fq.fits s.cfg.burstCoef ∧ acc.fq.cleared = true) :
    (acc'.fi.fits s.cfg.burstCoef ∧ acc'.fi.cleared = true) ∧
      (acc'.fq.fits s.cfg.burstCoef ∧ acc'.fq.cleared = true) := by
  induction k generalizing i acc with
  | zero =>
    cases h
    exact ⟨hfi, hfq⟩
  | succ k ih =>
    simp only [burstFrom] at h
    split at h
    · cases h
    · split at h
      · cases h
      · exact ih h ⟨FilterState.advance_fits hfi.1 _, hfi.2⟩ ⟨FilterState.advance_fits hfq.1 _, hfq.2⟩

theorem burstRun_filters {s : State} {off : Int} {acc : BurstAcc} (h : burstRun s off = .ok acc) :
    (acc.fi.fits s.cfg.burstCoef ∧ acc.fi.cleared = true) ∧
      (acc.fq.fits s.cfg.burstCoef ∧ acc.fq.cleared = true) :=
  burstFrom_filters h ⟨FilterState.clear_fits _ _, rfl⟩ ⟨FilterState.clear_fits _ _, rfl⟩

theorem fclr_changes (f : FilterId) (level : F64) (s : State) : Changes [.line] s (fclr f level s) :=
  (Write.filter s f _ (fun _ => FilterState.clear_fits _ _) fun _ => rfl).changes (by simp)

theorem ffeed_changes (f : FilterId) (v : F64) (s : State) : (ffeed f v s).Leaves (Changes [.line] s) := by
  rcases ffeed_cases f v s with ⟨-, he⟩ | ⟨-, he⟩ <;> rw [he]
  · exact (Write.filter s f _ (fun h => FilterState.advance_fits h v) fun h => h).changes (by simp)
  · trivial

/-- The values SCALE writes have room in NL, those it wrote before a refused read too. -/
theorem scale_changes (start stop : F64) (n : Nat) (s : State) :
    (scale start stop n s).Leaves (Changes [.line] s) := by
  rcases scale_cases s start stop n with ⟨-, hn, he⟩ | ⟨j, -, m, hj, -, -, -, he⟩ | ⟨-, he⟩ <;> rw [he]
  · exact (Write.nl s (resampledLine s start stop n) (by simpa using hn)).changes (by simp)
  · have hlen : ((resampledLine s start stop n).take j).length ≤ s.cfg.scaleTgt :=
      (List.length_take_le _ _).trans hj
    exact ((Write.nl s _ hlen).changes (by simp)).trans ((Write.fault _ m).changes (by simp))
  · trivial

theorem burst_changes (off : Int) (s : State) : (burst off s).Leaves (Changes [.line] s) := by
  rcases burst_cases off s with ⟨acc, hrun, he⟩ | ⟨w, -, he⟩ <;> rw [he]
  · obtain ⟨⟨hfi, hci⟩, hfq, hcq⟩ := burstRun_filters hrun
    have hi := Write.filter s .fi acc.fi (fun _ => hfi) fun _ => hci
    have hq := Write.filter (s.setFilter .fi acc.fi) .fq acc.fq (fun _ => hfq) fun _ => hcq
    exact (hi.changes (by simp)).trans (hq.changes (by simp))
  · trivial

/-- TGTUPD moves between the three legal targets (R211). -/
theorem nextTarget_legal {tgt : F64} (phase1 : F64) (h : LegalTarget tgt) : LegalTarget (nextTarget tgt phase1) := by
  have hzero : F64.eqv Config.ZERO Config.ZERO = true := by decide
  have hneg : F64.neg (F64.neg Config.HALF_PI) = Config.HALF_PI := by decide +kernel
  unfold nextTarget
  split
  · split
    · exact .inr (.inr rfl)
    · exact .inr (.inl rfl)
  · rename_i hset
    rcases h with rfl | rfl | rfl
    · exact absurd hzero hset
    · exact .inr (.inr rfl)
    · exact .inr (.inl hneg)

theorem tgtupd_changes (phase1 : F64) (s : State) : Changes [.line] s (tgtupd phase1 s) :=
  (Write.target s _ (nextTarget_legal phase1)).changes (by simp)

theorem pclFirstPass_changes (start stop : F64) (s : State) :
    (pclFirstPass start stop s).Leaves (Changes [.line] s) :=
  (scale_changes start stop _ s).changes_andThen fun _ s1 _ =>
    (burst_changes 0 s1).changes_andThen fun m s2 _ => tgtupd_changes m.2 s2

theorem pclSecondPass_changes (start stop : F64) (s : State) :
    (pclSecondPass start stop s).Leaves (Changes [.line] s) :=
  (scale_changes start stop _ s).changes_andThen fun _ s1 _ =>
    (burst_changes 0 s1).changes_andThen fun _ s2 _ =>
      (burst_changes _ s2).changes_andThen fun _ s3 _ => Changes.refl s3

theorem pcl_changes (start stop : F64) (s : State) : (pcl start stop s).Leaves (Changes [.line] s) :=
  (pclFirstPass_changes start stop s).changes_andThen fun start' s1 _ =>
    (pclSecondPass_changes start' stop s1).changes_andThen fun stop' s2 _ =>
      (scale_changes start' stop' _ s2).changes_andThen fun _ s3 _ => Changes.refl s3

theorem asmline_changes (start stop : F64) (s : State) : (asmline start stop s).Leaves (Changes [.line] s) := by
  rcases asmline_cases start stop s with ⟨-, he⟩ | ⟨row, vals, hrow, -, hlen, he⟩ | ⟨row, w, -, -, he⟩ <;> rw [he]
  · exact Changes.refl s
  · exact (Write.row s row vals (maprow_lt hrow) hlen).changes (by simp)
  · trivial

/-! ### The writes of the Line Tracker -/

/-- `line` moves to a legal value from a legal one, or it is an outcome queued by itself that moves it. -/
theorem setLine2_changes {ws : List Writer} {s : State} {l : Int} (hline : .line ∈ ws)
    (h : .unguarded ∈ ws ∨ (LegalLine s.line2 → LegalLine l)) : Changes ws s (s.setLine2 l) := by
  rcases h with h | h
  · exact (Write.line2Unguarded s l).changes h
  · exact (Write.line2 s l h).changes hline

/-- From a legal line that is a number, -2 and -1 being none, each step up is legal (R46). -/
theorem legalLine_add {l d : Int} (h : 0 ≤ l) (hd : 0 ≤ d) (hl : LegalLine l) : LegalLine (l + d) := by
  rcases hl with rfl | rfl | hl
  · exact absurd h (by decide)
  · exact absurd h (by decide)
  · exact .inr (.inr (by omega))

/-- CLS.ACTIVE, CLS.HALF and CLS.SKIP move `line` up from where it is (R190, R194, R195). -/
def Cls.movesUp : Cls → Bool
  | .active | .half | .skip => true
  | _ => false

/-- The guards of the outcomes that move `line` up ask that it is a number (R99). -/
theorem line2_nonneg_of_movesUp {line2 : Int} {linelen : F64} {count : Nat}
    (h : (classify line2 linelen count).movesUp = true) : 0 ≤ line2 := by
  have hactive : guardActive line2 linelen count = true → 0 ≤ line2 := by simp +contextual [guardActive]
  have hhalf : guardHalf line2 linelen = true → 0 ≤ line2 := by simp +contextual [guardHalf]
  have hskip : guardSkip line2 linelen = true → 0 ≤ line2 := by simp +contextual [guardSkip]
  unfold classify at h
  split at h
  · exact hactive ‹_›
  · split at h
    · cases h
    · split at h
      · cases h
      · split at h
        · cases h
        · split at h
          · exact hhalf ‹_›
          · split at h
            · exact hskip ‹_›
            · cases h

theorem clsNewframe_changes (s : State) : Changes [.line] s (clsNewframe s) := by
  have hstart : ∀ u : State, Changes [.line] u
      ((((u.setFb freshFrame).setFbDirty false).setTgtPhase Config.ZERO).setLine2 2) := fun u =>
    ((Write.fresh u).changes (by simp)).trans (((Write.target _ _ fun _ => .inl rfl).changes (by simp)).trans
      (setLine2_changes (by simp) (.inr fun _ => .inr (.inr (by decide)))))
  unfold clsNewframe
  cases s.fbDirty with
  | false => exact hstart s
  | true => exact ((Write.emit s).changes (by simp)).trans (hstart (emit s))

theorem phresync_changes (s : State) : Changes [.line] s (phresync s) := by
  unfold phresync
  split
  · exact (Write.target s _ fun _ => .inl rfl).changes (by simp)
  · exact Changes.refl s

section
variable {ws : List Writer} {s : State} (hline : .line ∈ ws)
include hline

theorem Changes.ofLine {t : State} (h : Changes [.line] s t) : Changes ws s t :=
  h.mono (by simpa using hline)

theorem clsActive_changes (linelen : F64) (h : .unguarded ∈ ws ∨ 0 ≤ s.line2) :
    (clsActive linelen s).Leaves (Changes ws s) := by
  unfold clsActive
  cases s.readPrev with
  | error w => trivial
  | ok prev =>
    refine ((pcl_changes _ _ s).mono fun _ => Changes.ofLine hline).changes_andThen fun b s1 h1 => ?_
    refine ((asmline_changes _ _ s1).mono fun _ => Changes.ofLine hline).changes_andThen fun _ s2 h2 => ?_
    have hl : s2.line2 = s.line2 := by
      obtain ⟨_, _, _, _, _, rfl⟩ := pcl_effect (.inl h1)
      rcases asmline_cases b.1 b.2 _ with ⟨-, he⟩ | ⟨row, vals, -, -, -, he⟩ | ⟨row, w, -, -, he⟩ <;>
        rw [he] at h2 <;> cases h2 <;> rfl
    exact setLine2_changes hline (h.imp_right fun h0 => legalLine_add (by omega) (by omega))

theorem runOutcome_changes (c : Cls) (linelen : F64) (h : .unguarded ∈ ws ∨ (c.movesUp = true → 0 ≤ s.line2)) :
    (runOutcome c linelen s).Leaves (Changes ws s) := by
  cases c with
  | active => exact clsActive_changes hline linelen (h.imp_right fun h0 => h0 rfl)
  | field2 => exact setLine2_changes hline (.inr fun _ => .inr (.inr (by decide)))
  | newframe => exact (clsNewframe_changes s).ofLine hline
  | vsync => exact setLine2_changes hline (.inr fun _ => .inr (.inl rfl))
  | half => exact setLine2_changes hline (h.imp_right fun h0 => legalLine_add (h0 rfl) (by omega))
  | skip => exact setLine2_changes hline (h.imp_right fun h0 => legalLine_add (h0 rfl) (by omega))
  | none => exact Changes.refl s

end

theorem dispatch_changes (xpt : F64) (count : Nat) (s : State) :
    (dispatch xpt count s).Leaves (Changes [.line] s) := by
  unfold dispatch
  cases s.readPrev with
  | error w => trivial
  | ok prev =>
    exact (runOutcome_changes (by simp) _ _ (.inr line2_nonneg_of_movesUp)).changes_andThen
      fun _ s1 _ => phresync_changes s1

/-! ### The writes of the sequencer and of the host -/

/-- What an accepted crossing, a completed run and the tracking of one sample write: the line and the run and
reference registers, and no scan register. -/
theorem acceptCrossing_changes (xpt : F64) (s : State) :
    (acceptCrossing xpt s).Leaves (Changes [.line, .detector] s) := by
  have hdispatch : (if s.prevValid then dispatch xpt s.count s else .ok () s : Res Unit).Leaves
      (Changes [.line, .detector] s) := by
    split
    · exact (dispatch_changes xpt _ s).mono fun _ h => h.mono (by simp)
    · exact Changes.refl s
  exact hdispatch.changes_andThen fun _ s1 _ => (Write.reference s1 xpt).changes (by simp)

theorem completeRun_changes (s : State) : (completeRun s).Leaves (Changes [.line, .detector] s) := by
  unfold completeRun
  split
  · cases s.readXpt with
    | error w => trivial
    | ok xpt => exact acceptCrossing_changes xpt s
  · exact Changes.refl s

theorem trackCrossing_changes (n : Nat) (f : F64) (s : State) :
    (trackCrossing n f s).Leaves (Changes [.line, .detector] s) := by
  unfold trackCrossing
  split
  · split
    · exact (Write.extendRun s).changes (by simp)
    · exact (Write.openRun s _).changes (by simp)
  · split
    · exact (completeRun_changes s.closeRun).mono fun _ h => ((Write.closeRun s).changes (by simp)).trans h
    · exact Changes.refl s

theorem stepOp_changes (s : State) : (stepOp s).Leaves (Changes [.line, .detector, .scan] s) := by
  simp only [stepOp]
  cases s.readSample s.scanPos with
  | none => exact (Write.fault s _).changes (by simp)
  | some c =>
    refine ((ffeed_changes .sf _ s).mono fun _ h => h.mono (by simp)).changes_andThen fun f s1 _ => ?_
    refine ((trackCrossing_changes _ f s1).mono fun _ h => h.mono (by simp)).changes_andThen fun _ s2 _ => ?_
    exact (Write.scan s2 f _).changes (by simp)

theorem processLoop_changes (k : Nat) (s : State) :
    (processLoop k s).Leaves (Changes [.line, .detector, .scan] s) := by
  induction k generalizing s with
  | zero => exact Changes.refl s
  | succ k ih =>
    simp only [processLoop]
    split
    · exact (stepOp_changes s).changes_andThen fun _ s1 _ => ih s1
    · exact Changes.refl s

theorem process_changes (lo len : Nat) (s : State) :
    (process lo len s).Leaves (Changes [.line, .detector, .scan, .process] s) := by
  simp only [process]
  cases protocolBreach lo len s with
  | some v => trivial
  | none =>
    refine Res.Leaves.mono (P := Changes _ (s.setWindow lo (lo + len))) ?_ fun _ h =>
      ((Write.window s lo (lo + len)).changes (by simp)).trans h
    refine ((processLoop_changes _ _).mono fun _ h => h.mono (by simp)).changes_andThen fun _ s1 _ => ?_
    exact (Write.consumed s1 _).changes (by simp)

/-! ### What an operation can do -/

/-- Who writes in an operation other than RESET. -/
def writersOf : Instr → List Writer
  | .process _ _ => [.line, .detector, .scan, .process]
  | .step => [.line, .detector, .scan]
  | .clsActive _ _ | .clsHalf | .clsSkip => [.line, .unguarded]
  | _ => [.line]

theorem line_mem_writersOf (i : Instr) : .line ∈ writersOf i := by
  cases i <;> simp [writersOf]

/-- The body of an operation: what `exec` runs behind the gate, for every operation but RESET. -/
def bodyOf : Instr → State → Res Result
  | .reset, s => .ok .none s
  | .process lo len, s => (process lo len s).andThen fun n s => .ok (.consumed n) s
  | .step, s => (stepOp s).andThen fun _ s => .ok .none s
  | .dispatch xpt count, s => (dispatch xpt count s).andThen fun _ s => .ok .none s
  | .clsActive linelen _, s => (clsActive linelen s).andThen fun _ s => .ok .none s
  | .clsField2, s => .ok .none (clsField2 s)
  | .clsNewframe, s => .ok .none (clsNewframe s)
  | .clsVsync, s => .ok .none (clsVsync s)
  | .clsHalf, s => .ok .none (clsHalf s)
  | .clsSkip, s => .ok .none (clsSkip s)
  | .clsNone, s => .ok .none (clsNone s)
  | .phresync, s => .ok .none (phresync s)
  | .fclr f level, s => .ok .none (fclr f level s)
  | .ffeed f v, s => (ffeed f v s).andThen fun out s => .ok (.real out) s
  | .hetgen, s => .ok .none (hetgen s)
  | .s2ire code, s => .ok (.real (s2ire code)) s
  | .ire2s ire, s => .ok (.code (ire2s ire)) s
  | .cubic y0 y1 y2 y3 t, s => .ok (.real (cubic y0 y1 y2 y3 t)) s
  | .scale start stop n, s => (scale start stop n s).andThen fun _ s => .ok .none s
  | .burst off, s => (burst off s).andThen fun r s => .ok (.pair r.1 r.2) s
  | .wrap d, s => .ok (.real (wrap d)) s
  | .tgtupd phase1, s => .ok .none (tgtupd phase1 s)
  | .pcl start stop, s => (pcl start stop s).andThen fun r s => .ok (.pair r.1 r.2) s
  | .maprow line2, s => .ok (.row (maprow line2)) s
  | .lvladj start stop, s => .ok (.real (lvladj s.cfg start stop)) s
  | .asmline start stop, s => (asmline start stop s).andThen fun _ s => .ok .none s
  | .emit, s => .ok .none (emit s)

theorem exec_reset (s : State) : exec .reset s = .next s.restart := rfl

theorem exec_eq_operate {i : Instr} (hi : i ≠ .reset) (s : State) : exec i s = operate s (bodyOf i) := by
  cases i with
  | reset => exact absurd rfl hi
  | _ => rfl

/-- The result an operation hands over adds no write. -/
theorem Res.Leaves.changes_ok {α β : Type} {ws : List Writer} {s : State} {r : Res α} (v : α → β)
    (h : r.Leaves (Changes ws s)) : (r.andThen fun a u => .ok (v a) u).Leaves (Changes ws s) :=
  h.changes_andThen fun _ u _ => Changes.refl u

theorem bodyOf_changes (i : Instr) (s : State) : (bodyOf i s).Leaves (Changes (writersOf i) s) := by
  have hline := line_mem_writersOf i
  cases i with
  | process lo len => exact (process_changes lo len s).changes_ok _
  | step => exact (stepOp_changes s).changes_ok _
  | dispatch xpt count => exact (dispatch_changes xpt count s).changes_ok _
  | clsActive linelen count => exact (clsActive_changes hline linelen (.inl (by simp [writersOf]))).changes_ok _
  | clsField2 => exact setLine2_changes (l := 525) hline (.inr fun _ => .inr (.inr (by decide)))
  | clsNewframe => exact clsNewframe_changes s
  | clsVsync => exact setLine2_changes hline (.inr fun _ => .inr (.inl rfl))
  | clsHalf => exact setLine2_changes hline (.inl (by simp [writersOf]))
  | clsSkip => exact setLine2_changes hline (.inl (by simp [writersOf]))
  | phresync => exact phresync_changes s
  | fclr f level => exact fclr_changes f level s
  | ffeed f v => exact (ffeed_changes f v s).changes_ok _
  | hetgen => exact (Write.het s).changes hline
  | scale start stop n => exact (scale_changes start stop n s).changes_ok _
  | burst off => exact (burst_changes off s).changes_ok _
  | tgtupd phase1 => exact tgtupd_changes phase1 s
  | pcl start stop => exact (pcl_changes start stop s).changes_ok _
  | asmline start stop => exact (asmline_changes start stop s).changes_ok _
  | emit => exact (Write.emit s).changes hline
  | reset | clsNone | s2ire | ire2s | cubic | wrap | maprow | lvladj => exact Changes.refl s

/-- Every next state of an operation other than RESET comes by the writes of its writers. -/
theorem exec_changes {i : Instr} {s t : State} (h : exec i s = .next t) (hi : i ≠ .reset) :
    Changes (writersOf i) s t := by
  have hret : ∀ (u : State) (r : Result), Changes (writersOf i) u (u.setRet r) := fun u r =>
    (Write.ret u r).changes (line_mem_writersOf i)
  obtain ⟨hok, hraised⟩ := Res.leaves_iff.1 (bodyOf_changes i (s.setRet .none))
  rw [exec_eq_operate hi] at h
  obtain ⟨-, ⟨v, u, hb, rfl⟩ | hb⟩ := operate_eq_next.1 h
  · exact (hret s .none).trans ((hok v u hb).trans (hret u v))
  · exact (hret s .none).trans (hraised t hb)

end Sys2Proof.Machine
end

section
/-! ### What each write keeps, and the obligations that follow -/

namespace Sys2Proof.Machine

/-! #### The invariant -/

/-- A row below 504 lists nothing from row 504 on (R47). -/
theorem writeRow_frameOk {m : RealCells} {row : Nat} {vals : List F64} (h : FrameOk m) (hrow : row < 504)
    (hlen : vals.length = Config.FB_COLS) : FrameOk (writeRow m row vals) := by
  refine ⟨writeRow_wf h.1 row vals, fun c hc => ?_⟩
  rcases Cells.mem_write hc with hc | ⟨-, hc⟩
  · exact h.2 c hc
  · have hcols : Config.FB_COLS = 1685 := rfl
    simp only [frameAddress, hlen, hcols] at hc ⊢
    omega

theorem freshFrame_ok : FrameOk freshFrame := ⟨rfl, nofun⟩

theorem Write.keeps_inv {w : Writer} {s t : State} (h : Write w s t) (hs : s.Inv) : t.Inv := by
  cases h with
  | target _ a legal => exact { hs with target := legal hs.target }
  | nl _ vals room =>
    refine { hs with nlWf := Cells.write_wf hs.nlWf 0 vals, nlRange := fun c hc => ?_ }
    rcases Cells.mem_write hc with hc | ⟨-, hc⟩
    · exact hs.nlRange c hc
    · exact lt_of_lt_of_le hc (by simpa using room)
  | filter _ f st fits cleared =>
    cases f with
    | sf => exact { hs with sfFits := fits hs.sfFits, sfCleared := cleared hs.sfCleared }
    | fi => exact { hs with fiFits := fits hs.fiFits }
    | fq => exact { hs with fqFits := fits hs.fqFits }
  | het => exact { hs with hetLength := by simp [hetTable] }
  | row _ row vals below504 cols =>
    exact { hs with fbOk := writeRow_frameOk hs.fbOk below504 cols, cleanIsFresh := nofun }
  | fresh => exact { hs with fbOk := freshFrame_ok, cleanIsFresh := fun _ => rfl }
  | emit =>
    refine { hs with sinkOk := fun f hf => ?_ }
    rcases List.mem_append.1 hf with hf | hf
    · exact hs.sinkOk f hf
    · exact (List.mem_singleton.1 hf) ▸ hs.fbOk
  | openRun _ x => exact { hs with openRun := fun _ => ⟨rfl, le_rfl⟩ }
  | extendRun => exact { hs with openRun := fun hb => ⟨(hs.openRun hb).1, Nat.le_add_left 1 _⟩ }
  | closeRun => exact { hs with openRun := nofun }
  | ret | fault | line2 | line2Unguarded | reference | scan | window | consumed => exact { hs with }

theorem Changes.keeps_inv {ws : List Writer} {s t : State} (h : Changes ws s t) (hs : s.Inv) : t.Inv :=
  h.keeps (fun _ _ _ _ hab => hab.keeps_inv) hs

/-- The table of R45 satisfies the invariant under a valid configuration. -/
theorem ofConfig_inv {c : Params} (hc : c.valid = true) : (State.ofConfig c).Inv where
  cfgValid := hc
  samplesWf := Memory.wf_nil
  nlWf := rfl
  nlRange := nofun
  fbOk := freshFrame_ok
  sinkOk := nofun
  cleanIsFresh := fun _ => rfl
  target := .inl rfl
  openRun := nofun
  sfFits := FilterState.clear_fits _ _
  fiFits := FilterState.uncleared_fits _
  fqFits := FilterState.uncleared_fits _
  sfCleared := rfl
  hetLength := by simp [State.ofConfig, hetTable]

theorem restart_inv {s : State} (h : s.Inv) : s.restart.Inv :=
  { ofConfig_inv h.cfgValid with samplesWf := h.samplesWf }

theorem exec_keeps_inv {i : Instr} {s t : State} (h : exec i s = .next t) (hs : s.Inv) : t.Inv := by
  by_cases hi : i = .reset
  · subst hi
    cases h
    exact restart_inv hs
  · exact (exec_changes h hi).keeps_inv hs

/-- Settles O48: a step is idle or executes the operation at the head of the queue, and every write of an operation
keeps the invariant. -/
theorem stepKeepsInv : Obligations.StepKeepsInv := by
  intro s t hs h
  by_cases hq : s.hostQueue = []
  · rw [step_of_empty hq] at h
    cases h
    exact hs
  · cases hd : decode s.hostQueue with
    | error e =>
      rw [step_of_decode_error hq hd] at h
      cases h
    | ok r =>
      rw [step_of_decode_ok hd] at h
      exact exec_keeps_inv h { hs with }

theorem Params.build_valid {p q : Params} (h : Params.build p = .ok q) : q.valid = true := by
  unfold Params.build at h
  split at h
  · cases h
  · cases h
    rw [Params.valid, ‹p.problem = none›, Option.isNone_none]

/-- An open choice that breaks a constraint is replaced by REF (log entry 2). -/
theorem Config.params_valid : Config.params.valid = true := by
  have href : Config.ref.valid = true := by decide +kernel
  unfold Config.params
  split
  · exact Params.build_valid ‹_›
  · exact href

/-- Settles O47: the machine's configuration is valid. -/
theorem invHoldsAtReset : Obligations.InvHoldsAtReset := ofConfig_inv Config.params_valid

/-! #### RESET -/

/-- The machine forms an angle of the table as R126 does. -/
theorem hetEntry_eq_tableEntry (k : Nat) : hetEntry k = Claims.tableEntry k := by
  have htwoPi : Config.TWO_PI = Claims.twoPi := by decide +kernel
  rw [hetEntry, htwoPi]
  rfl

/-- Settles O6: RESET builds the table of R45 and keeps the host's items. -/
theorem resetLeavesTheResetTable : Obligations.ResetLeavesTheResetTable := by
  intro s
  have hhet : s.restart.het = (List.range s.cfg.hetLen).map hetEntry := rfl
  refine ⟨s.restart, rfl, ⟨rfl, rfl, rfl, rfl, rfl, rfl, rfl, rfl, rfl, rfl, rfl, rfl⟩, ⟨rfl, rfl, fun k hk => ?_⟩,
    ⟨rfl, rfl, rfl, rfl, rfl⟩, fun row col => frameElement_fresh row col, ⟨?_, fun k hk => ?_⟩,
    ⟨rfl, rfl, rfl, rfl, rfl, rfl⟩⟩
  · have hnl : s.restart.nl = [] := rfl
    have hcfg : s.restart.cfg = s.cfg := rfl
    simp [State.readNl, hnl, hcfg, hk]
  · simp [hhet]
  · simp [hhet, hk, hetEntry_eq_tableEntry]

/-! #### `line` -/

theorem Write.keeps_legalLine {w : Writer} {s t : State} (h : Write w s t) (hw : w ≠ .unguarded)
    (hs : LegalLine s.line2) : LegalLine t.line2 := by
  cases h with
  | line2 _ l legal => exact legal hs
  | line2Unguarded _ l => exact absurd rfl hw
  | filter _ f st fits cleared => simpa using hs
  | _ => exact hs

theorem exec_keeps_legalLine {i : Instr} {s t : State} (h : exec i s = .next t) (hi : i ≠ .reset)
    (hw : .unguarded ∉ writersOf i) (hs : LegalLine s.line2) : LegalLine t.line2 :=
  (exec_changes h hi).keeps (P := fun u => LegalLine u.line2)
    (fun _ hmem _ _ hab => hab.keeps_legalLine fun he => hw (he ▸ hmem)) hs

/-- Settles O50: none of the four operations moves `line` with no guard tested. -/
theorem lineStaysLegal : Obligations.LineStaysLegal := by
  intro s t i hi hs h
  rcases hi with rfl | rfl | ⟨lo, len, rfl⟩ | ⟨xpt, count, rfl⟩
  · cases h
    exact .inl rfl
  · exact exec_keeps_legalLine h nofun (by simp [writersOf]) hs
  · exact exec_keeps_legalLine h nofun (by simp [writersOf]) hs
  · exact exec_keeps_legalLine h nofun (by simp [writersOf]) hs

/-! #### Row 504 of FB -/

theorem Write.keeps_row504 {w : Writer} {s t : State} {col : Nat} (h : Write w s t) (hcol : col < Config.FB_COLS)
    (hs : frameElement s.fb 504 col = Config.FB_FILL) : frameElement t.fb 504 col = Config.FB_FILL := by
  cases h with
  | row _ row vals below504 cols =>
    show frameElement (writeRow s.fb row vals) 504 col = _
    rw [frameElement_writeRow s.fb row vals cols 504 col hcol, if_neg (by omega), hs]
  | fresh => exact frameElement_fresh 504 col
  | filter _ f st fits cleared => simpa using hs
  | _ => exact hs

/-- Settles O52: ASMLINE's rows are below 504, and a fresh frame holds FB_FILL. -/
theorem row504IsNeverWritten : Obligations.Row504IsNeverWritten := by
  intro i s t col h hcol hs
  by_cases hi : i = .reset
  · subst hi
    cases h
    exact frameElement_fresh 504 col
  · exact (exec_changes h hi).keeps (P := fun u => frameElement u.fb 504 col = Config.FB_FILL)
      (fun _ _ _ _ hab => hab.keeps_row504 hcol) hs

/-! #### The host's items -/

/-- The stream, the configuration and the queue are the same. -/
structure SameHostItems (s t : State) : Prop where
  samples : t.samples = s.samples
  cfg : t.cfg = s.cfg
  hostQueue : t.hostQueue = s.hostQueue

theorem SameHostItems.trans {s t u : State} (h : SameHostItems s t) (h' : SameHostItems t u) : SameHostItems s u :=
  ⟨h'.samples.trans h.samples, h'.cfg.trans h.cfg, h'.hostQueue.trans h.hostQueue⟩

theorem Write.sameHostItems {w : Writer} {s t : State} (h : Write w s t) : SameHostItems s t := by
  cases h with
  | filter _ f st fits cleared => cases f <;> exact ⟨rfl, rfl, rfl⟩
  | _ => exact ⟨rfl, rfl, rfl⟩

theorem exec_sameHostItems {i : Instr} {s t : State} (h : exec i s = .next t) : SameHostItems s t := by
  by_cases hi : i = .reset
  · subst hi
    cases h
    exact ⟨rfl, rfl, rfl⟩
  · exact (exec_changes h hi).keeps (P := SameHostItems s) (fun _ _ _ _ hab hs => hs.trans hab.sameHostItems)
      ⟨rfl, rfl, rfl⟩

/-- A code of the stream is a function of the bytes and of SAMPLE_BYTE_ORDER (R61). -/
theorem SameHostItems.streamCode {s t : State} (h : SameHostItems s t) (n : Nat) :
    t.streamCode n = s.streamCode n := by
  simp only [State.streamCode, State.sampleByte, h.samples, h.cfg]

/-- Settles O53: no write is to an item of the host, and RESET keeps them. -/
theorem noOperationWritesTheStream : Obligations.NoOperationWritesTheStream := by
  intro i s t h
  have hsame := exec_sameHostItems h
  exact ⟨hsame.samples, hsame.cfg, hsame.hostQueue, hsame.streamCode⟩

/-! #### The sync detector's registers -/

/-- The run's registers and the reference crossing are the same (R22 to R25). -/
structure SameDetector (s t : State) : Prop where
  below : t.below = s.below
  count : t.count = s.count
  xpt : t.xpt = s.xpt
  xptValid : t.xptValid = s.xptValid
  prevValid : t.prevValid = s.prevValid
  prevCrosspoint : t.prevCrosspoint = s.prevCrosspoint

/-- The scan registers are the same (R26, R27). -/
structure SameScan (s t : State) : Prop where
  fPrev : t.fPrev = s.fPrev
  scanPos : t.scanPos = s.scanPos

/-- The window is the same (R34). -/
structure SameWindow (s t : State) : Prop where
  winLo : t.winLo = s.winLo
  winHi : t.winHi = s.winHi

theorem SameDetector.trans {s t u : State} (h : SameDetector s t) (h' : SameDetector t u) : SameDetector s u :=
  ⟨h'.below.trans h.below, h'.count.trans h.count, h'.xpt.trans h.xpt, h'.xptValid.trans h.xptValid,
    h'.prevValid.trans h.prevValid, h'.prevCrosspoint.trans h.prevCrosspoint⟩

theorem SameScan.trans {s t u : State} (h : SameScan s t) (h' : SameScan t u) : SameScan s u :=
  ⟨h'.fPrev.trans h.fPrev, h'.scanPos.trans h.scanPos⟩

theorem SameWindow.trans {s t u : State} (h : SameWindow s t) (h' : SameWindow t u) : SameWindow s u :=
  ⟨h'.winLo.trans h.winLo, h'.winHi.trans h.winHi⟩

theorem Write.sameDetector {w : Writer} {s t : State} (h : Write w s t) (hw : w ≠ .detector) : SameDetector s t := by
  cases h with
  | openRun | extendRun | closeRun | reference => exact absurd rfl hw
  | filter _ f => cases f <;> exact ⟨rfl, rfl, rfl, rfl, rfl, rfl⟩
  | _ => exact ⟨rfl, rfl, rfl, rfl, rfl, rfl⟩

theorem Write.sameScan {w : Writer} {s t : State} (h : Write w s t) (hw : w ≠ .scan) : SameScan s t := by
  cases h with
  | scan => exact absurd rfl hw
  | filter _ f => cases f <;> exact ⟨rfl, rfl⟩
  | _ => exact ⟨rfl, rfl⟩

theorem Write.sameWindow {w : Writer} {s t : State} (h : Write w s t) (hw : w ≠ .process) : SameWindow s t := by
  cases h with
  | window | consumed => exact absurd rfl hw
  | filter _ f => cases f <;> exact ⟨rfl, rfl⟩
  | _ => exact ⟨rfl, rfl⟩

section
variable {ws : List Writer} {s t : State} (h : Changes ws s t)
include h

theorem Changes.sameDetector (hws : .detector ∉ ws) : SameDetector s t :=
  h.keeps (P := SameDetector s) (fun _ hmem _ _ hab hs => hs.trans (hab.sameDetector fun he => hws (he ▸ hmem)))
    ⟨rfl, rfl, rfl, rfl, rfl, rfl⟩

theorem Changes.sameScan (hws : .scan ∉ ws) : SameScan s t :=
  h.keeps (P := SameScan s) (fun _ hmem _ _ hab hs => hs.trans (hab.sameScan fun he => hws (he ▸ hmem))) ⟨rfl, rfl⟩

theorem Changes.sameWindow (hws : .process ∉ ws) : SameWindow s t :=
  h.keeps (P := SameWindow s) (fun _ hmem _ _ hab hs => hs.trans (hab.sameWindow fun he => hws (he ▸ hmem)))
    ⟨rfl, rfl⟩

end

/-- A STEP that raises F_BOUNDS has not reached the scan registers, which it writes last (R171, log entry 12). -/
theorem stepOp_raised_scanPos {s t : State} (h : stepOp s = .raised t) : t.scanPos = s.scanPos := by
  simp only [stepOp] at h
  cases hr : s.readSample s.scanPos with
  | none =>
    rw [hr] at h
    cases h
    rfl
  | some c =>
    simp only [hr, Res.andThen_eq_raised, reduceCtorEq, and_false, exists_false, or_false] at h
    have hfeed := Res.leaves_iff.1 (ffeed_changes .sf (F64.ofCode c) s)
    rcases h with h | ⟨f, s1, h1, h2⟩
    · exact ((hfeed.2 t h).sameScan (by simp)).scanPos
    · have htrack := (Res.leaves_iff.1 (trackCrossing_changes _ f s1)).2 t h2
      exact (((hfeed.1 f s1 h1).sameScan (by simp)).trans (htrack.sameScan (by simp))).scanPos

/-- A STEP moves `scan_pos` by one when it takes no fault and not at all when it takes one (R27, R264). -/
theorem execStep_scanPos {s t : State} (h : exec .step s = .next t) :
    (t.fault = none → t.scanPos = s.scanPos + 1) ∧ (t.fault ≠ none → t.scanPos = s.scanPos) := by
  rw [exec_eq_operate (by simp)] at h
  obtain ⟨⟨-, hfault⟩, ⟨v, u, hb, rfl⟩ | hb⟩ := operate_eq_next.1 h
  · obtain ⟨_, u', hstep, hu⟩ := Res.andThen_eq_ok.1 hb
    cases hu
    obtain ⟨-, hf, hn⟩ := stepOp_effect.1 _ hstep
    exact ⟨fun _ => hn, fun hne => absurd (hf.trans hfault) hne⟩
  · rcases Res.andThen_eq_raised.1 hb with hstep | ⟨_, _, -, hu⟩
    · obtain ⟨-, n, hn, -⟩ := stepOp_effect.2 hstep
      exact ⟨fun h0 => (Option.some_ne_none _ (hn.symm.trans h0)).elim, fun _ => (stepOp_raised_scanPos hstep :)⟩
    · cases hu

theorem process_not_mem_writersOf {i : Instr} (hi : ∀ lo len, i ≠ .process lo len) : .process ∉ writersOf i := by
  cases i with
  | process lo len => exact absurd rfl (hi lo len)
  | _ => simp [writersOf]

theorem detector_scan_not_mem_writersOf {i : Instr} (hi : ∀ lo len, i ≠ .process lo len) (hstep : i ≠ .step) :
    .detector ∉ writersOf i ∧ .scan ∉ writersOf i := by
  cases i with
  | process lo len => exact absurd rfl (hi lo len)
  | step => exact absurd rfl hstep
  | _ => simp [writersOf]

/-- Settles O54: by who writes in each operation. -/
theorem detectorRegistersBelongToStep : Obligations.DetectorRegistersBelongToStep := by
  intro i s t h hreset hprocess
  have hch := exec_changes h hreset
  have hwin := hch.sameWindow (process_not_mem_writersOf hprocess)
  refine ⟨⟨hwin.winLo, hwin.winHi⟩, fun hstep => ?_, ?_⟩
  · obtain ⟨hdet, hscan⟩ := detector_scan_not_mem_writersOf hprocess hstep
    have hd := hch.sameDetector hdet
    have hsc := hch.sameScan hscan
    exact ⟨hsc.scanPos, hd.below, hd.count, hd.xpt, hd.xptValid, hsc.fPrev, hd.prevValid, hd.prevCrosspoint⟩
  · rintro rfl
    exact execStep_scanPos h

/-! #### The sink -/

/-- The sink is as it was with zero or more frames appended (R37). -/
def SinkExtends (s t : State) : Prop := ∃ frames, t.sink = s.sink ++ frames

theorem SinkExtends.refl (s : State) : SinkExtends s s := ⟨[], (List.append_nil _).symm⟩

theorem SinkExtends.trans {s t u : State} (h : SinkExtends s t) (h' : SinkExtends t u) : SinkExtends s u := by
  obtain ⟨frames, hf⟩ := h
  obtain ⟨frames', hf'⟩ := h'
  exact ⟨frames ++ frames', by rw [hf', hf, List.append_assoc]⟩

theorem Write.sinkExtends {w : Writer} {s t : State} (h : Write w s t) : SinkExtends s t := by
  cases h with
  | emit => exact ⟨[s.fb], rfl⟩
  | filter _ f => cases f <;> exact SinkExtends.refl s
  | _ => exact SinkExtends.refl s

/-- Settles O55: EMIT appends, and nothing else writes the sink. -/
theorem sinkOnlyGrows : Obligations.SinkOnlyGrows := fun _ s _ h hi =>
  (exec_changes h hi).keeps (P := SinkExtends s) (fun _ _ _ _ hab hs => hs.trans hab.sinkExtends) (SinkExtends.refl s)

end Sys2Proof.Machine
end

section
/-! ### No operation of the block by itself reads an item without a value -/

namespace Sys2Proof.Machine

/-- The body does not stop, and a state it returns in satisfies `Q`. -/
def Res.Answers {α : Type} (Q : State → Prop) : Res α → Prop
  | .ok _ t => Q t
  | .raised _ => True
  | .stopped _ => False

theorem Res.Answers.andThen {α β : Type} {P Q : State → Prop} {r : Res α} {k : α → State → Res β}
    (h : r.Answers P) (hk : ∀ v t, P t → (k v t).Answers Q) : (r.andThen k).Answers Q := by
  cases r with
  | ok v t => exact hk v t h
  | raised t => trivial
  | stopped w => exact h

/-- A body that makes the block's writes and does not stop answers a state of the invariant. -/
theorem Res.Leaves.answers_inv {α : Type} {ws : List Writer} {s : State} {r : Res α} (h : r.Leaves (Changes ws s))
    (hs : s.Inv) (hstop : ∀ w, r ≠ .stopped w) : r.Answers State.Inv := by
  cases r with
  | ok v t => exact Changes.keeps_inv h hs
  | raised t => trivial
  | stopped w => exact hstop w rfl

/-- The result an operation hands over does not stop it. -/
theorem Res.Answers.returning {α β : Type} {Q : State → Prop} {r : Res α} (v : α → β) (h : r.Answers Q) :
    (r.andThen fun a t => .ok (v a) t).Answers Q :=
  h.andThen fun _ _ ht => ht

/-- An operation whose body does not stop has a next state. -/
theorem exec_answers {Q : State → Prop} {i : Instr} {s : State} (hi : i ≠ .reset) (ha : s.Accepts)
    (h : (bodyOf i (s.setRet .none)).Answers Q) : ∃ t, exec i s = .next t := by
  rw [exec_eq_operate hi, operate_ready ha.1 ha.2]
  cases hb : bodyOf i (s.setRet .none) with
  | ok v t => exact ⟨_, rfl⟩
  | raised t => exact ⟨_, rfl⟩
  | stopped w =>
    rw [hb] at h
    exact h.elim

/-! #### The line's datapath -/

/-- What R290 asks of the length of NL and of the table. -/
theorem Params.lengths_of_valid {p : Params} (h : p.valid = true) : 2060 ≤ p.scaleTgt ∧ p.minHetLen ≤ p.hetLen := by
  rw [Params.valid, Option.isNone_iff_eq_none] at h
  unfold Params.problem at h
  split at h
  · cases h
  · split at h
    · cases h
    · rename_i hscale
      split at h
      · cases h
      · rename_i hhet
        exact ⟨not_lt.1 hscale, not_lt.1 hhet⟩

/-- A state of the invariant whose NL holds a whole line. -/
structure LineReady (s : State) : Prop where
  inv : s.Inv
  written : ∀ k < s.cfg.scaleTgt, ∃ v, Cells.find s.nl k = some v

/-- The loop of PCL resamples whole lines: each SCALE fills NL or takes F_BOUNDS. -/
theorem scale_answers {s : State} (start stop : F64) (hs : s.Inv) :
    (scale start stop s.cfg.scaleTgt s).Answers LineReady := by
  have hleaves := scale_changes start stop s.cfg.scaleTgt s
  rcases scale_cases s start stop s.cfg.scaleTgt with ⟨-, -, he⟩ | ⟨_, _, m, _, _, _, _, he⟩ | ⟨hlt, -⟩
  · rw [he] at hleaves ⊢
    refine ⟨Changes.keeps_inv hleaves hs, fun k hk => ?_⟩
    have hk' : k < (resampledLine s start stop s.cfg.scaleTgt).length := by simpa using hk
    exact ⟨_, by rw [State.setNl_nl, Cells.find_write, if_pos (by omega), Nat.sub_zero,
      List.getElem?_eq_getElem hk']⟩
  · rw [he]
    trivial
  · exact absurd hlt (lt_irrefl _)

/-- Under either index map of R127 the table has every entry that BURST reads for one of the two windows. -/
theorem readHet_ok {s : State} (hs : s.Inv) {off i : Nat} (hoff : off ≤ Config.WIN2_OFFSET) (hi : i < Config.BW_LEN) :
    ∃ h, s.readHet (hetIndex s.cfg (off : Int) i) = .ok h := by
  have hread : ∀ k < s.cfg.hetLen, ∃ h, s.readHet ((k : Nat) : Int) = .ok h := fun k hk => by
    have hlen : k < s.het.length := hs.hetLength ▸ hk
    exact ⟨s.het[k], by simp [State.readHet, List.getElem?_eq_getElem hlen]⟩
  have hmin := (Params.lengths_of_valid hs.cfgValid).2
  unfold hetIndex
  cases hmap : s.cfg.hetIndex with
  | windowRelative =>
    simp only [Params.minHetLen, hmap] at hmin
    exact hread i (lt_of_lt_of_le hi hmin)
  | lineRelative =>
    simp only [Params.minHetLen, hmap] at hmin
    exact_mod_cast hread (off + Config.BW_START + i) (lt_of_lt_of_le (by omega) hmin)

theorem burst_answers {s : State} {off : Nat} (hs : LineReady s) (hoff : off ≤ Config.WIN2_OFFSET) :
    (burst (off : Int) s).Answers LineReady := by
  have hnl : WindowWritten s off := fun i hi => hs.written _ (by
    have htgt := (Params.lengths_of_valid hs.inv.cfgValid).1
    simp only [Config.WIN2_OFFSET, Config.BW_LEN, Config.BW_START] at hoff hi ⊢
    omega)
  obtain ⟨acc, hrun⟩ : ∃ acc, burstRun s (off : Int) = .ok acc :=
    burstFrom_ok hnl (fun i hi => readHet_ok hs.inv hoff hi) _ _ (by omega) _
  have hburst : burst (off : Int) s =
      .ok (acc.amp, acc.phase) ((s.setFilter .fi acc.fi).setFilter .fq acc.fq) := by rw [burst, hrun]
  have hleaves := burst_changes (off : Int) s
  rw [hburst] at hleaves ⊢
  exact ⟨Changes.keeps_inv hleaves hs.inv, hs.written⟩

theorem tgtupd_lineReady {s : State} (phase1 : F64) (hs : LineReady s) : LineReady (tgtupd phase1 s) :=
  ⟨(tgtupd_changes phase1 s).keeps_inv hs.inv, hs.written⟩

/-- Both windows are measured on whole lines. -/
theorem pcl_answers {s : State} (start stop : F64) (hs : s.Inv) : (pcl start stop s).Answers LineReady := by
  have hfirst : ∀ {u : State}, LineReady u → (burst 0 u).Answers LineReady := fun hu =>
    burst_answers (off := 0) hu (Nat.zero_le _)
  have hsecond : ∀ {u : State}, LineReady u → (burst (Config.WIN2_OFFSET : Int) u).Answers LineReady := fun hu =>
    burst_answers hu le_rfl
  refine Res.Answers.andThen (P := LineReady) ?_ fun start' s1 h1 =>
    Res.Answers.andThen (P := LineReady) ?_ fun stop' s2 h2 =>
      (scale_answers start' stop' h2.inv).andThen fun _ s3 h3 => h3
  · exact (scale_answers start stop hs).andThen fun _ s1 h1 => (hfirst h1).andThen fun m s2 h2 =>
      tgtupd_lineReady m.2 h2
  · exact (scale_answers start' stop h1.inv).andThen fun _ s2 h2 => (hfirst h2).andThen fun _ s3 h3 =>
      (hsecond h3).andThen fun _ s4 h4 => h4

theorem asmline_answers {s : State} (start stop : F64) (hs : LineReady s) :
    (asmline start stop s).Answers State.Inv := by
  refine (asmline_changes start stop s).answers_inv hs.inv fun w hw => ?_
  have htgt := (Params.lengths_of_valid hs.inv.cfgValid).1
  obtain ⟨vals, hvals, -⟩ : ∃ vals, activeRow s (lvladj s.cfg start stop) = .ok vals ∧ _ :=
    rowFrom_ok _ Config.FB_COLS Config.ACTIVE_START fun i hi => hs.written _ (by
      simp only [Config.FB_COLS, Config.ACTIVE_START] at hi ⊢
      omega)
  rcases asmline_cases start stop s with ⟨-, he⟩ | ⟨_, _, -, -, -, he⟩ | ⟨_, _, -, herr, -⟩
  · rw [he] at hw
    cases hw
  · rw [he] at hw
    cases hw
  · rw [hvals] at herr
    cases herr

/-! #### DISPATCH, STEP and PROCESS -/

theorem State.readPrev_of_valid {s : State} (h : s.prevValid = true) : s.readPrev = .ok s.prevCrosspoint := by
  rw [State.readPrev, if_pos h]

theorem State.readXpt_of_valid {s : State} (h : s.xptValid = true) : s.readXpt = .ok s.xpt := by
  rw [State.readXpt, if_pos h]

theorem clsActive_answers {s : State} (linelen : F64) (hs : s.Inv) (hp : s.prevValid = true) :
    (clsActive linelen s).Answers State.Inv := by
  rw [clsActive, State.readPrev_of_valid hp]
  exact (pcl_answers _ _ hs).andThen fun b s1 h1 => (asmline_answers b.1 b.2 h1).andThen fun _ s2 h2 =>
    (Write.line2Unguarded s2 _).keeps_inv h2

theorem runOutcome_answers {s : State} (c : Cls) (linelen : F64) (hs : s.Inv) (hp : s.prevValid = true) :
    (runOutcome c linelen s).Answers State.Inv := by
  have hleaves := runOutcome_changes (ws := [.line, .unguarded]) (s := s) (by simp) c linelen (.inl (by simp))
  cases c with
  | active => exact clsActive_answers linelen hs hp
  | _ => exact hleaves.answers_inv hs nofun

theorem dispatch_answers {s : State} (xpt : F64) (count : Nat) (hs : s.Inv) (hp : s.prevValid = true) :
    (dispatch xpt count s).Answers State.Inv := by
  rw [dispatch, State.readPrev_of_valid hp]
  exact (runOutcome_answers _ _ hs hp).andThen fun _ s1 h1 => (phresync_changes s1).keeps_inv h1

/-- STEP dispatches only with a reference crossing (R172). -/
theorem acceptCrossing_answers {s : State} (xpt : F64) (hs : s.Inv) : (acceptCrossing xpt s).Answers State.Inv := by
  have hdispatch : (if s.prevValid then dispatch xpt s.count s else .ok () s : Res Unit).Answers State.Inv := by
    split
    · exact dispatch_answers xpt _ hs ‹_›
    · exact hs
  exact hdispatch.andThen fun _ s1 h1 => (Write.reference s1 xpt).keeps_inv h1

theorem completeRun_answers {s : State} (hs : s.Inv) (hx : s.xptValid = true) :
    (completeRun s).Answers State.Inv := by
  rw [completeRun, State.readXpt_of_valid hx]
  split
  · exact acceptCrossing_answers s.xpt hs
  · exact hs

/-- A run that ends was open, and an open run has its crossing (R46). -/
theorem trackCrossing_answers {s : State} (n : Nat) (f : F64) (hs : s.Inv) :
    (trackCrossing n f s).Answers State.Inv := by
  unfold trackCrossing
  split
  · split
    · exact (Write.extendRun s).keeps_inv hs
    · exact (Write.openRun s _).keeps_inv hs
  · split
    · rename_i hbelow
      exact completeRun_answers ((Write.closeRun s).keeps_inv hs) (hs.openRun hbelow).1
    · exact hs

/-- SF is cleared at reset and stays so (R33). -/
theorem stepOp_answers {s : State} (hs : s.Inv) : (stepOp s).Answers State.Inv := by
  simp only [stepOp]
  cases s.readSample s.scanPos with
  | none => trivial
  | some c =>
    have hfeed : (ffeed .sf (F64.ofCode c) s).Answers State.Inv :=
      (ffeed_changes .sf _ s).answers_inv hs fun w => by
        rcases ffeed_cases .sf (F64.ofCode c) s with ⟨-, he⟩ | ⟨hc, -⟩
        · rw [he]
          nofun
        · exact absurd hs.sfCleared (by simpa using hc)
    exact hfeed.andThen fun f s1 h1 => (trackCrossing_answers _ f h1).andThen fun _ s2 h2 =>
      (Write.scan s2 f _).keeps_inv h2

theorem processLoop_answers {k : Nat} {s : State} (hs : s.Inv) : (processLoop k s).Answers State.Inv := by
  induction k generalizing s with
  | zero => exact hs
  | succ k ih =>
    simp only [processLoop]
    split
    · exact (stepOp_answers hs).andThen fun _ _ h1 => ih h1
    · exact hs

/-- A lawful call breaks none of the tested obligations (R251). -/
theorem protocolBreach_of_lawful {s : State} {lo len : Nat} (h : Claims.LawfulCall s lo len) :
    protocolBreach lo len s = none := by
  obtain ⟨hmax, hlast⟩ := h
  unfold protocolBreach
  cases hc : s.lastConsumed with
  | none =>
    simp only [hc] at hlast
    simp [hlast, hmax]
  | some consumed =>
    simp only [hc] at hlast
    obtain ⟨hlo, hpast, hhi⟩ := hlast
    exact (if_neg (not_lt.2 hlo)).trans ((if_neg (not_lt.2 hpast)).trans ((if_neg (not_lt.2 hhi)).trans
      (if_neg (not_lt.2 hmax))))

theorem process_answers {s : State} {lo len : Nat} (hs : s.Inv) (h : protocolBreach lo len s = none) :
    (process lo len s).Answers State.Inv := by
  rw [process, h]
  exact (processLoop_answers ((Write.window s lo (lo + len)).keeps_inv hs)).andThen fun _ s1 h1 =>
    (Write.consumed s1 _).keeps_inv h1

/-- Settles O49: each item the block reads has a value by then, by the invariant or by the SCALE before it. -/
theorem theBlockNeverReadsAnItemWithoutAValue : Obligations.TheBlockNeverReadsAnItemWithoutAValue := by
  intro s hs ha
  have hs' : (s.setRet .none).Inv := (Write.ret s .none).keeps_inv hs
  refine ⟨?_, fun lo len hl => ?_, fun start stop => ?_, fun hp xpt linelen count => ⟨?_, ?_⟩⟩
  · exact exec_answers nofun ha ((stepOp_answers hs').returning _)
  · have hbreach : protocolBreach lo len (s.setRet .none) = none := protocolBreach_of_lawful hl
    exact exec_answers nofun ha ((process_answers hs' hbreach).returning _)
  · exact exec_answers nofun ha ((pcl_answers start stop hs').returning _)
  · exact exec_answers nofun ha ((dispatch_answers xpt count hs' hp).returning _)
  · exact exec_answers nofun ha ((clsActive_answers linelen hs' hp).returning _)

end Sys2Proof.Machine
end

section
/-! ### A read of an item without a value is refused by its name -/

namespace Sys2Proof.Machine

/-- An accepted operation whose body begins with a part that stops ends with that stop. -/
theorem exec_of_stopped {α : Type} {i : Instr} {s : State} {r : Res α} {k : α → State → Res Result} {w : Stop}
    (ha : s.Accepts) (hr : r = .stopped w) (hi : i ≠ .reset) (hbody : bodyOf i (s.setRet .none) = r.andThen k) :
    exec i s = (Res.stopped w).outcome := by
  rw [exec_eq_operate hi, operate_ready ha.1 ha.2, hbody, hr, Res.stopped_andThen]

theorem Res.stopped_outcome_ite (c : Prop) [Decidable c] (r : Refusal) (f : Fault) :
    (Res.stopped (if c then .refusal r else .fault f)).outcome = if c then .refused r else .fault f := by
  split <;> rfl

/-! #### NL and the two windows over it -/

theorem State.readNl_of_unwritten {s : State} {k : Nat} (h : Cells.find s.nl k = none) :
    s.readNl (k : Int) =
      .error (if k < s.cfg.scaleTgt then .refusal (.noValue (.nl k)) else .fault (.nlAddress k)) := by
  have hpos : ¬ (k : Int) < 0 := by omega
  simp only [State.readNl, if_neg hpos, Int.toNat_natCast, h, apply_ite Except.error]

theorem State.readNl_of_neg {s : State} {k : Int} (h : k < 0) : s.readNl k = .error (.fault (.nlAddress k)) := by
  rw [State.readNl, if_pos h]

/-- BURST's loop stops at the first element it cannot read (R160). -/
theorem burstFrom_error {s : State} {off : Int} {w : Stop} {j k i : Nat} (acc : BurstAcc) (hjk : j < k)
    (hbefore : ∀ l < j, (∃ v, s.readNl (off + (Config.BW_START : Int) + (i + l : Nat)) = .ok v) ∧
      ∃ h, s.readHet (hetIndex s.cfg off (i + l)) = .ok h)
    (hread : s.readNl (off + (Config.BW_START : Int) + (i + j : Nat)) = .error w) :
    burstFrom s off k i acc = .error w := by
  induction j generalizing k i acc with
  | zero =>
    obtain ⟨k, rfl⟩ := Nat.exists_eq_add_one.2 hjk
    rw [Nat.add_zero] at hread
    simp only [burstFrom, hread]
  | succ j ih =>
    obtain ⟨k, rfl⟩ := Nat.exists_eq_add_one.2 (Nat.zero_lt_of_lt hjk)
    obtain ⟨⟨v, hv⟩, h, hh⟩ := hbefore 0 (Nat.succ_pos j)
    rw [Nat.add_zero] at hv hh
    simp only [burstFrom, hv, hh]
    refine ih _ (by omega) (fun l hl => ?_) ?_
    · rw [Nat.add_right_comm, Nat.add_assoc]
      exact hbefore (l + 1) (by omega)
    · rw [Nat.add_right_comm, Nat.add_assoc]
      exact hread

/-- ASMLINE's loop stops at the first element it cannot read (R232). -/
theorem rowFrom_error {s : State} {lvl : F64} {w : Stop} {j n x : Nat} (hjn : j < n)
    (hbefore : ∀ l < j, ∃ v, s.readNl (x + l : Nat) = .ok v) (hread : s.readNl (x + j : Nat) = .error w) :
    rowFrom s lvl n x = .error w := by
  induction j generalizing n x with
  | zero =>
    obtain ⟨n, rfl⟩ := Nat.exists_eq_add_one.2 hjn
    rw [Nat.add_zero] at hread
    simp only [rowFrom, hread]
  | succ j ih =>
    obtain ⟨n, rfl⟩ := Nat.exists_eq_add_one.2 (Nat.zero_lt_of_lt hjn)
    obtain ⟨v, hv⟩ := hbefore 0 (Nat.succ_pos j)
    rw [Nat.add_zero] at hv
    have hrest : rowFrom s lvl n (x + 1) = .error w := by
      refine ih (by omega) (fun l hl => ?_) ?_
      · rw [Nat.add_right_comm, Nat.add_assoc]
        exact hbefore (l + 1) (by omega)
      · rw [Nat.add_right_comm, Nat.add_assoc]
        exact hread
    simp only [rowFrom, hv, hrest]

/-- BURST stops at window sample `i` when the samples before it can be read and it cannot. -/
theorem execBurst_of_unreadable {s : State} {off : Int} {i : Nat} {w : Stop} (ha : s.Accepts)
    (hi : i < Config.BW_LEN)
    (hbefore : ∀ l < i, (∃ v, s.readNl (off + (Config.BW_START : Int) + (l : Nat)) = .ok v) ∧
      ∃ h, s.readHet (hetIndex s.cfg off l) = .ok h)
    (hread : s.readNl (off + (Config.BW_START : Int) + (i : Nat)) = .error w) :
    exec (.burst off) s = (Res.stopped w).outcome := by
  have hrun : burstRun (s.setRet .none) off = .error w := by
    refine burstFrom_error (j := i) _ hi (fun l hl => ?_) ?_
    · rw [Nat.zero_add]
      exact hbefore l hl
    · rw [Nat.zero_add]
      exact hread
  have hburst : burst off (s.setRet .none) = .stopped w := by rw [burst, hrun]
  exact exec_of_stopped ha hburst nofun rfl

/-- BURST stops at its first window sample when it cannot be read. -/
theorem execBurst_of_unreadable_first {s : State} {off : Int} {w : Stop} (ha : s.Accepts)
    (hread : s.readNl (off + 140) = .error w) : exec (.burst off) s = (Res.stopped w).outcome :=
  execBurst_of_unreadable (i := 0) ha (by decide) (fun _ hl => absurd hl (Nat.not_lt_zero _)) (by
    rw [Nat.cast_zero, add_zero]
    exact hread)

/-- The model's MAPROW is the text of R230: between the two ranges, lines 271 and 272 have a negative formula. -/
theorem maprow_eq_rowOf (line2 : Int) : maprow line2 = Claims.rowOf line2 := by
  unfold maprow validRow Claims.rowOf
  rw [show lineFloor line2 = line2 / 2 from rfl]
  generalize line2 / 2 = l
  by_cases hfirst : 10 ≤ l ∧ l < 262
  · rw [if_pos hfirst, if_pos hfirst, if_neg (by omega)]
  · rw [if_neg hfirst, if_neg hfirst]
    by_cases hsecond : 273 ≤ l ∧ l < 525
    · rw [if_pos (by omega), if_pos hsecond, if_neg (by omega)]
    · rw [if_neg hsecond]
      split
      · rw [if_pos (by omega)]
      · rfl

/-- ASMLINE on a line with a row stops at the first element of the active window it cannot read. -/
theorem execAsmline_of_unreadable {s : State} {start stop : F64} {row k : Nat} {w : Stop} (ha : s.Accepts)
    (hrow : Claims.rowOf s.line2 = some row) (hlo : 130 ≤ k) (hhi : k < 1815)
    (hbefore : ∀ j : Nat, 130 ≤ j → j < k → ∃ v, s.readNl j = .ok v) (hread : s.readNl k = .error w) :
    exec (.asmline start stop) s = (Res.stopped w).outcome := by
  have hmap : maprow (s.setRet .none).line2 = some row := (maprow_eq_rowOf _).trans hrow
  have hactive : activeRow (s.setRet .none) (lvladj (s.setRet .none).cfg start stop) = .error w := by
    refine rowFrom_error (j := k - 130) (by simp only [Config.FB_COLS]; omega) (fun l hl => ?_) ?_
    · exact hbefore (130 + l) (by omega) (by omega)
    · rw [Config.ACTIVE_START, Nat.add_sub_cancel' hlo]
      exact hread
  have hasmline : asmline start stop (s.setRet .none) = .stopped w := by
    simp only [asmline, hmap, hactive]
  exact exec_of_stopped ha hasmline nofun rfl

/-! #### The filters and the crossings -/

theorem accumulate_eq_foldl (acc : F64) (l : List (F64 × F64)) :
    accumulate acc l = l.foldl (fun acc c => F64.add acc (F64.mul c.1 c.2)) acc := by
  induction l generalizing acc with
  | nil => rfl
  | cons c l ih => exact ih _

theorem deaccumulate_eq_foldl (acc : F64) (l : List (F64 × F64)) :
    deaccumulate acc l = l.foldl (fun acc c => F64.sub acc (F64.mul c.1 c.2)) acc := by
  induction l generalizing acc with
  | nil => rfl
  | cons c l ih => exact ih _

/-- The model's filter output is the text of R122. -/
theorem FilterState.output_eq_directForm (spec : FilterSpec) (f : FilterState) (v : F64) :
    f.output spec v = Claims.directForm spec f v := by
  rw [FilterState.output, accumulate_eq_foldl, deaccumulate_eq_foldl]
  rfl

theorem FilterState.advance_eq_fed (spec : FilterSpec) (f : FilterState) (v : F64) :
    f.advance spec v = Claims.fed spec f v := by
  rw [FilterState.advance, FilterState.output_eq_directForm]
  rfl

theorem ffeed_of_uncleared {f : FilterId} {v : F64} {s : State} (h : (s.filter f).cleared = false) :
    ffeed f v s = .stopped (.refusal (.noValue (.filter f))) := by
  rcases ffeed_cases f v s with ⟨hc, -⟩ | ⟨-, he⟩
  · exact absurd (hc.symm.trans h) (by simp)
  · exact he

/-- STEP on a sample of the window feeds SF with it, tracks the filtered value and advances (R171). -/
theorem stepOp_of_inWindow {s : State} (h : s.inWindow s.scanPos = true) :
    stepOp s = (ffeed .sf (F64.ofCode (s.streamCode s.scanPos)) s).andThen fun f t =>
      (trackCrossing s.scanPos f t).andThen fun _ t => .ok () (t.advanceScan f s.scanPos) := by
  simp only [stepOp, State.readSample_of_inWindow h]

/-- STEP on a ready sample tracks the filtered value with SF fed (R97, R171). -/
theorem stepOp_of_ready {s : State} (h : Claims.SampleReady s) :
    stepOp s = (trackCrossing s.scanPos (Claims.filtered s) (s.setFilter .sf (Claims.fedSync s))).andThen
      fun _ t => .ok () (t.advanceScan (Claims.filtered s) s.scanPos) := by
  obtain ⟨hwin, hcleared⟩ := h
  have hfeed : ffeed .sf (F64.ofCode (s.streamCode s.scanPos)) s =
      .ok (Claims.filtered s) (s.setFilter .sf (Claims.fedSync s)) := by
    rcases ffeed_cases .sf (F64.ofCode (s.streamCode s.scanPos)) s with ⟨-, he⟩ | ⟨hc, -⟩
    · rw [he, FilterState.output_eq_directForm, FilterState.advance_eq_fed]
      rfl
    · exact absurd (hcleared.symm.trans hc) (by simp)
  rw [stepOp_of_inWindow hwin, hfeed]
  rfl

theorem stepOp_of_uncleared {s : State} (hwin : s.inWindow s.scanPos = true) (hsf : s.sf.cleared = false) :
    stepOp s = .stopped (.refusal (.noValue (.filter .sf))) := by
  rw [stepOp_of_inWindow hwin, ffeed_of_uncleared (f := .sf) hsf, Res.stopped_andThen]

/-- An accepted run that ends without its crossing is refused (R25). -/
theorem stepOp_of_unset {s : State} (h : Claims.SampleReady s)
    (hf : F64.lt (Claims.filtered s) s.cfg.syncThreshold = false) (hbelow : s.below = true)
    (hcount : Config.W_GATE < s.count) (hx : s.xptValid = false) :
    stepOp s = .stopped (.refusal (.noValue .xpt)) := by
  have hread : ((s.setFilter .sf (Claims.fedSync s)).closeRun).readXpt = .error (.refusal (.noValue .xpt)) := by
    simp [State.readXpt, hx]
  rw [stepOp_of_ready h, trackCrossing, if_neg (by simpa using hf), if_pos (by simpa using hbelow), completeRun,
    if_pos (by simpa using hcount), hread, Res.stopped_andThen]

theorem State.readPrev_of_invalid {s : State} (h : s.prevValid = false) :
    s.readPrev = .error (.refusal (.noValue .prevCrosspoint)) := by
  rw [State.readPrev, if_neg (by simp [h])]

theorem dispatch_of_no_reference {s : State} {xpt : F64} {count : Nat} (h : s.prevValid = false) :
    dispatch xpt count s = .stopped (.refusal (.noValue .prevCrosspoint)) := by
  rw [dispatch, State.readPrev_of_invalid h]

theorem clsActive_of_no_reference {s : State} {linelen : F64} (h : s.prevValid = false) :
    clsActive linelen s = .stopped (.refusal (.noValue .prevCrosspoint)) := by
  rw [clsActive, State.readPrev_of_invalid h]

/-- Settles O9: each clause is the operation's first read without a value. -/
theorem readsWithoutAValueAreRefused : Obligations.ReadsWithoutAValueAreRefused := by
  intro s ha
  refine ⟨fun xpt linelen count hp => ⟨?_, ?_⟩, fun f v hf => ?_, fun k hlo hhi hk => ?_, fun k hhi hk => ?_,
    fun off hoff => ?_, fun off i k hoff hi hmap hhet hbefore hk => ?_,
    fun start stop row k hrow hlo hhi hbefore hk => ?_, fun hwin hsf => ?_, fun hready hf hbelow hcount hx => ?_⟩
  · exact exec_of_stopped ha (dispatch_of_no_reference (s := s.setRet .none) hp) nofun rfl
  · exact exec_of_stopped ha (clsActive_of_no_reference (s := s.setRet .none) hp) nofun rfl
  · have hf' : ((s.setRet .none).filter f).cleared = false := by cases f <;> exact hf
    exact exec_of_stopped ha (ffeed_of_uncleared hf') nofun rfl
  · have hread := State.readNl_of_unwritten hk
    rw [if_pos hhi] at hread
    exact execBurst_of_unreadable_first ha (by rwa [sub_add_cancel])
  · have hread := State.readNl_of_unwritten hk
    rw [if_neg (not_lt.2 hhi)] at hread
    exact execBurst_of_unreadable_first ha (by rwa [sub_add_cancel])
  · exact execBurst_of_unreadable_first ha (State.readNl_of_neg hoff)
  · rw [← Res.stopped_outcome_ite]
    refine execBurst_of_unreadable ha hi (fun l hl => ⟨hbefore l hl, ?_⟩) ?_
    · have hlen : l < s.het.length := by omega
      exact ⟨s.het[l], by simp [hetIndex, hmap, State.readHet, List.getElem?_eq_getElem hlen]⟩
    · rw [← State.readNl_of_unwritten hk, ← hoff]
      rfl
  · rw [← Res.stopped_outcome_ite]
    exact execAsmline_of_unreadable ha hrow hlo hhi hbefore (State.readNl_of_unwritten hk)
  · exact exec_of_stopped ha (stepOp_of_uncleared (s := s.setRet .none) hwin hsf) nofun rfl
  · exact exec_of_stopped ha (stepOp_of_unset (s := s.setRet .none) hready hf hbelow hcount hx) nofun rfl

end Sys2Proof.Machine
end

section
/-! PROOFS about the memory (family 20_memory): what the host puts into the SAMPLE space, what it puts into the port,
and SCALE past the end of NL. -/

namespace Sys2Proof.Machine

/-! ### The delivery of a sample -/

@[simp] theorem bytesOfCode_length (order : ByteOrder) (c : Code) : (bytesOfCode order c).length = 2 := by
  cases order <;> rfl

theorem highByte_append_lowByte (c : Code) : c.extractLsb' 8 8 ++ c.extractLsb' 0 8 = c := by
  rw [BitVec.extractLsb'_append_extractLsb'_eq_extractLsb' (by rfl)]
  exact BitVec.extractLsb'_eq_self

/-- The two bytes of a code spell it in either byte order (R61). -/
theorem codeOfBytes_bytesOfCode (order : ByteOrder) (c : Code) :
    codeOfBytes order ((bytesOfCode order c)[0]'(by simp)) ((bytesOfCode order c)[1]'(by simp)) = c := by
  cases order <;> exact highByte_append_lowByte c

/-- The state with the code `c` put at index `n` of the stream. -/
def State.delivered (s : State) (n : Nat) (c : Code) : State :=
  s.setSamples (Cells.write (some Memory.fill) s.samples (2 * n) (bytesOfCode s.cfg.sampleOrder c))

@[simp] theorem State.delivered_cfg (s : State) (n : Nat) (c : Code) : (s.delivered n c).cfg = s.cfg := rfl

theorem State.hostDeliver_of_unchanged {s : State} {n : Nat} {c : Code} (h : s.winHi ≤ n ∨ s.streamCode n = c) :
    s.hostDeliver n c = .next (s.delivered n c) := by
  rw [State.hostDeliver, if_neg]
  · rfl
  · rintro ⟨hpresented, hchanged⟩
    exact h.elim (not_le.2 hpresented) hchanged

theorem State.hostDeliver_of_changed {s : State} {n : Nat} {c : Code} (hn : n < s.winHi) (hc : s.streamCode n ≠ c) :
    s.hostDeliver n c = .refused (.hostProtocol .sampleChanged) := by
  rw [State.hostDeliver, if_pos ⟨hn, hc⟩]

theorem State.delivered_sampleByte (s : State) (n : Nat) (c : Code) (a : Nat) :
    (s.delivered n c).sampleByte a =
      if h : 2 * n ≤ a ∧ a < 2 * n + 2 then
        (bytesOfCode s.cfg.sampleOrder c)[a - 2 * n]'(by rw [bytesOfCode_length]; omega)
      else s.sampleByte a := by
  simp only [State.sampleByte, State.delivered, State.setSamples_samples, Cells.readD_write, bytesOfCode_length]

theorem State.delivered_streamCode_same (s : State) (n : Nat) (c : Code) : (s.delivered n c).streamCode n = c := by
  have hbytes := codeOfBytes_bytesOfCode s.cfg.sampleOrder c
  simpa [State.streamCode, State.delivered_sampleByte] using hbytes

/-- The bytes of two samples are apart. -/
theorem State.delivered_streamCode_of_ne (s : State) {n m : Nat} (c : Code) (h : m ≠ n) :
    (s.delivered n c).streamCode m = s.streamCode m := by
  have hfirst : ¬ (2 * n ≤ 2 * m ∧ 2 * m < 2 * n + 2) := by omega
  have hsecond : ¬ (2 * n ≤ 2 * m + 1 ∧ 2 * m + 1 < 2 * n + 2) := by omega
  rw [State.streamCode, State.delivered_sampleByte, State.delivered_sampleByte, dif_neg hfirst, dif_neg hsecond,
    State.delivered_cfg, State.streamCode]

/-- Settles O58: the delivery writes the two bytes of its sample. -/
theorem deliveredSamplesReadBack : Obligations.DeliveredSamplesReadBack := by
  intro s n c
  refine ⟨fun h => ⟨s.delivered n c, State.hostDeliver_of_unchanged h, rfl, s.delivered_streamCode_same n c, ?_, ?_⟩,
    State.hostDeliver_of_changed⟩
  · exact fun m hm => s.delivered_streamCode_of_ne c hm
  · exact fun hwf => Memory.write_wf hwf _ _

/-! ### The host's operations -/

theorem hostInvokes_iff (i : Instr) : hostInvokes i = true ↔ i = .reset ∨ ∃ lo len, i = .process lo len := by
  cases i <;> simp [hostInvokes]

/-- The operations the host invokes decode from their encoding, with integers of any size (R11). -/
theorem decode_encode_of_hostInvokes {i : Instr} (h : hostInvokes i = true) (rest : List Byte) :
    decode (encode i ++ rest) = .ok (i, rest) := by
  rcases (hostInvokes_iff i).1 h with rfl | ⟨lo, len, rfl⟩
  · rfl
  · have hoperands : encode (.process lo len) ++ rest = 0x01#8 :: (natBytes lo ++ (natBytes len ++ rest)) := by
      simp [encode, Instr.selector, Instr.operandBytes]
    rw [hoperands]
    simp [decode, decodeOperands]

theorem step_of_issued {s : State} {i : Instr} (h : hostInvokes i = true) (hempty : s.hostQueue = []) :
    step (s.setQueue (s.hostQueue ++ encode i)) = exec i s := by
  have hdecode : decode (s.setQueue (s.hostQueue ++ encode i)).hostQueue = .ok (i, []) := by
    simpa [hempty] using decode_encode_of_hostInvokes h []
  have hrestored : (s.setQueue (s.hostQueue ++ encode i)).setQueue [] = s := by
    rw [← hempty]
    rfl
  rw [step_of_decode_ok hdecode, hrestored]

/-- Settles O59: by whether the host invokes the operation. -/
theorem hostIssuesOnlyResetAndProcess : Obligations.HostIssuesOnlyResetAndProcess := by
  intro s i
  rcases s.hostIssue_cases i with ⟨hinvokes, hissue⟩ | ⟨hinvokes, hissue⟩
  · refine ⟨fun _ => ⟨_, hissue, rfl, step_of_issued hinvokes⟩, fun hreset hprocess => ?_⟩
    rcases (hostInvokes_iff i).1 hinvokes with hi | ⟨lo, len, hi⟩
    · exact absurd hi hreset
    · exact absurd hi (hprocess lo len)
  · refine ⟨fun hi => ?_, fun _ _ => hissue⟩
    exact absurd ((hostInvokes_iff i).2 hi) (Bool.eq_false_iff.1 hinvokes)

/-! ### SCALE past the end of NL -/

/-- Of what SCALE can do, only the stop is left: NL is too short to end, and no read is refused before its end. -/
theorem scale_beyond_nl {s : State} {start stop : F64} {n : Nat} (hn : s.cfg.scaleTgt < n)
    (hreads : ∀ j ≤ s.cfg.scaleTgt, TapsReadable s (sourcePosition start (perSample start stop n) j)) :
    scale start stop n s = .stopped (.fault (.nlAddress s.cfg.scaleTgt)) := by
  rcases scale_cases s start stop n with ⟨-, hfits, -⟩ | ⟨j, -, m, hj, -, hrefused, -⟩ | ⟨-, hstop⟩
  · exact absurd hfits (not_le.2 hn)
  · exact absurd (hreads j hj) (sampleAt_error hrefused).2
  · exact hstop

/-- Settles O20: SCALE stops at the first index past NL. -/
theorem scaleBeyondNlStops : Obligations.ScaleBeyondNlStops := fun s _ _ _ ha hn hreads =>
  exec_of_stopped ha (scale_beyond_nl (s := s.setRet .none) hn hreads) nofun rfl

end Sys2Proof.Machine
end

section
/-! PROOFS about the encoding (family 30_encoding): the operand bytes of every operation read back, what decodes is its
own encoding, and the decode table of R99 with the operation DISPATCH makes of it. -/

namespace Sys2Proof

/-! ### What reading an operand can do -/

section
variable {α : Type} {bs : List Byte} {v : α}

/-- Eight bytes spell a number that fits the 64 bits of a real. -/
theorem withReal_eq_ok {k : F64 → List Byte → Except DecodeError α} (h : withReal bs k = .ok v) :
    ∃ a rest, bs = realBytes a ++ rest ∧ k a rest = .ok v := by
  obtain ⟨w, rest, hw, hbs, hk⟩ := withWord_eq_ok h
  have hbits : (BitVec.ofNat 64 w).toNat = w := by
    rw [BitVec.toNat_ofNat]
    exact Nat.mod_eq_of_lt hw
  exact ⟨⟨BitVec.ofNat 64 w⟩, rest, by rw [realBytes, hbits, hbs], hk⟩

theorem withCode_eq_ok {k : Code → List Byte → Except DecodeError α} (h : withCode bs k = .ok v) :
    ∃ c rest, bs = leBytes 2 (BitVec.toNat c) ++ rest ∧ k c rest = .ok v := by
  obtain ⟨w, rest, hw, hbs, hk⟩ := withWord_eq_ok h
  have hbits : (BitVec.ofNat 16 w).toNat = w := by
    rw [BitVec.toNat_ofNat]
    exact Nat.mod_eq_of_lt hw
  exact ⟨BitVec.ofNat 16 w, rest, by rw [hbits, hbs], hk⟩

/-- Any other byte than the three that name a filter is refused. -/
theorem withFilter_eq_ok {k : FilterId → List Byte → Except DecodeError α} (h : withFilter bs k = .ok v) :
    ∃ f rest, bs = filterByte f :: rest ∧ k f rest = .ok v := by
  obtain ⟨w, rest, -, hbs, hk⟩ := withWord_eq_ok h
  split at hk
  · exact ⟨.sf, rest, hbs, hk⟩
  · exact ⟨.fi, rest, hbs, hk⟩
  · exact ⟨.fq, rest, hbs, hk⟩
  · cases hk

end

/-! ### Encode, then decode -/

/-- Each selector's arm of the decoder reads the operands in the order the encoder writes them. -/
theorem decodeOperands_operandBytes {i : Instr} (h : i.wellFormed = true) (rest : List Byte) :
    decodeOperands i.selector (i.operandBytes ++ rest) = .ok (i, rest) := by
  cases i with
  | scale start stop outLen =>
    have hlen : outLen - 1 + 1 = outLen := Nat.sub_add_cancel (of_decide_eq_true h)
    simp [decodeOperands, Instr.selector, Instr.operandBytes, hlen]
  | process | dispatch | clsActive | fclr | ffeed | s2ire | ire2s | cubic | burst | wrap | tgtupd | pcl | maprow
  | lvladj | asmline => simp [decodeOperands, Instr.selector, Instr.operandBytes]
  | reset | step | clsField2 | clsNewframe | clsVsync | clsHalf | clsSkip | clsNone | phresync | hetgen | emit => rfl

/-- Settles O3: the selector leads the decoder to the operation's arm, which reads its operands back. -/
theorem decodeEncodeRoundTrip : Obligations.DecodeEncodeRoundTrip :=
  fun _ rest h => decodeOperands_operandBytes h rest

/-! ### Decode, then encode -/

/-- The bytes `selector :: bs` are the one encoding of the well-formed operation `i` and the rest. -/
def CanonicalOperands (selector : Byte) (bs : List Byte) (i : Instr) (rest : List Byte) : Prop :=
  i.wellFormed = true ∧ selector = i.selector ∧ bs = i.operandBytes ++ rest

/-- Each arm of the decoder answers an operation with the arm's selector and the operands read there. -/
theorem decodeOperands_eq_ok {selector : Byte} {bs rest : List Byte} {i : Instr}
    (h : decodeOperands selector bs = .ok (i, rest)) : CanonicalOperands selector bs i rest := by
  unfold decodeOperands at h
  split at h
  -- the eleven operations without operands
  case h_1 hsel | h_3 hsel | h_6 hsel | h_7 hsel | h_8 hsel | h_9 hsel | h_10 hsel | h_11 hsel | h_12 hsel
    | h_15 hsel | h_27 hsel =>
    cases h
    exact ⟨rfl, BitVec.eq_of_toNat_eq hsel, rfl⟩
  -- S2IRE: a code
  case h_16 hsel =>
    obtain ⟨code, _, rfl, ⟨⟩⟩ := withCode_eq_ok h
    exact ⟨rfl, BitVec.eq_of_toNat_eq hsel, rfl⟩
  -- BURST and MAPROW: a signed integer
  case h_20 hsel | h_24 hsel =>
    obtain ⟨n, _, rfl, ⟨⟩⟩ := withInt_eq_ok h
    exact ⟨rfl, BitVec.eq_of_toNat_eq hsel, rfl⟩
  -- IRE2S, WRAP and TGTUPD: a real
  case h_17 hsel | h_21 hsel | h_22 hsel =>
    obtain ⟨a, _, rfl, ⟨⟩⟩ := withReal_eq_ok h
    exact ⟨rfl, BitVec.eq_of_toNat_eq hsel, rfl⟩
  -- PROCESS: two integers
  case h_2 hsel =>
    obtain ⟨lo, _, rfl, hk⟩ := withNat_eq_ok h
    obtain ⟨len, _, rfl, ⟨⟩⟩ := withNat_eq_ok hk
    exact ⟨rfl, BitVec.eq_of_toNat_eq hsel, (List.append_assoc ..).symm⟩
  -- DISPATCH and CLS.ACTIVE: a real and an integer
  case h_4 hsel | h_5 hsel =>
    obtain ⟨a, _, rfl, hk⟩ := withReal_eq_ok h
    obtain ⟨count, _, rfl, ⟨⟩⟩ := withNat_eq_ok hk
    exact ⟨rfl, BitVec.eq_of_toNat_eq hsel, (List.append_assoc ..).symm⟩
  -- FCLR and FFEED: a filter and a real
  case h_13 hsel | h_14 hsel =>
    obtain ⟨f, _, rfl, hk⟩ := withFilter_eq_ok h
    obtain ⟨a, _, rfl, ⟨⟩⟩ := withReal_eq_ok hk
    exact ⟨rfl, BitVec.eq_of_toNat_eq hsel, rfl⟩
  -- PCL, LVLADJ and ASMLINE: two reals
  case h_23 hsel | h_25 hsel | h_26 hsel =>
    obtain ⟨start, _, rfl, hk⟩ := withReal_eq_ok h
    obtain ⟨stop, _, rfl, ⟨⟩⟩ := withReal_eq_ok hk
    exact ⟨rfl, BitVec.eq_of_toNat_eq hsel, (List.append_assoc ..).symm⟩
  -- SCALE: two reals and a length, counted from 1
  case h_19 hsel =>
    obtain ⟨start, _, rfl, hk⟩ := withReal_eq_ok h
    obtain ⟨stop, _, rfl, hk₂⟩ := withReal_eq_ok hk
    obtain ⟨n, _, rfl, ⟨⟩⟩ := withNat_eq_ok hk₂
    exact ⟨by simp [Instr.wellFormed], BitVec.eq_of_toNat_eq hsel, by simp [Instr.operandBytes]⟩
  -- CUBIC: five reals
  case h_18 hsel =>
    obtain ⟨y0, _, rfl, hk⟩ := withReal_eq_ok h
    obtain ⟨y1, _, rfl, hk₂⟩ := withReal_eq_ok hk
    obtain ⟨y2, _, rfl, hk₃⟩ := withReal_eq_ok hk₂
    obtain ⟨y3, _, rfl, hk₄⟩ := withReal_eq_ok hk₃
    obtain ⟨t, _, rfl, ⟨⟩⟩ := withReal_eq_ok hk₄
    exact ⟨rfl, BitVec.eq_of_toNat_eq hsel, by simp [Instr.operandBytes]⟩
  -- a reserved selector
  case h_28 => cases h

/-- Settles O4: what each arm of the decoder read is what the encoder writes. -/
theorem decodedOperationsAreCanonical : Obligations.DecodedOperationsAreCanonical := by
  intro bs rest i h
  cases bs with
  | nil => cases h
  | cons selector bs =>
    obtain ⟨hwf, rfl, rfl⟩ := decodeOperands_eq_ok h
    exact ⟨hwf, rfl⟩

/-! ### The selectors -/

theorem mem_assignedSelectors {b : Byte} (h : b.toNat ∈ Claims.assignedSelectors.map BitVec.toNat) :
    b ∈ Claims.assignedSelectors :=
  (List.mem_map_of_injective fun _ _ => BitVec.eq_of_toNat_eq).1 h

/-- Settles O2: every arm of the decoder but the last is at an assigned selector. -/
theorem reservedSelectorsNameNoOperation : Obligations.ReservedSelectorsNameNoOperation := by
  intro selector rest hreserved
  change decodeOperands selector rest = _
  unfold decodeOperands
  split
  case h_28 => rfl
  all_goals
    rename_i hsel
    refine absurd (mem_assignedSelectors ?_) hreserved
    rw [hsel]
    decide

/-! ### Words of the table -/

/-- A table word that spells an encoding decodes to the operation, whatever bytes pad it. -/
theorem decodeTableWord_of_encode {nbits w : Nat} {i : Instr} (hwf : i.wellFormed = true)
    (h : encode i <+: tableBytes nbits w) : decodeTableWord nbits w = some i := by
  obtain ⟨rest, hrest⟩ := h
  rw [decodeTableWord, ← hrest, decodeEncodeRoundTrip i rest hwf]

/-- Settles O5: each word begins with the bytes of its operation, and 0x3F is a reserved selector. -/
theorem tableWordsDecode : Obligations.TableWordsDecode := by
  refine ⟨?_, ?_, ?_, ?_, ?_, ?_, ?_, ?_, ?_, ?_, ?_, ?_, ?_, ?_, ?_, ?reserved⟩
  case reserved =>
    have hreserved : decode (tableBytes 8 0x3F) = .error (.reservedSelector 0x3F#8) :=
      reservedSelectorsNameNoOperation 0x3F#8 _ (by decide)
    rw [decodeTableWord, hreserved]
  all_goals exact decodeTableWord_of_encode rfl (by decide)

end Sys2Proof

namespace Sys2Proof.Machine

/-! ### The guards of the decode table (R99) -/

theorem activeMin_eq : Config.ACTIVE_MIN = F64.ofNat 1638 := by decide +kernel

section
variable {line2 : Int} {linelen : F64} {count : Nat}

theorem guardActive_iff : guardActive line2 linelen count = true ↔
    0 ≤ line2 ∧ F64.le (F64.ofNat 1638) linelen = true ∧ 90 < count := by
  simp [guardActive, activeMin_eq, and_assoc]

theorem guardField2_iff : guardField2 line2 linelen count = true ↔
    line2 = -2 ∧ F64.lt linelen (F64.ofNat 1000) = true ∧ 80 < count ∧ count < 160 := by
  simp [guardField2, and_assoc]

theorem guardNewframe_iff : guardNewframe line2 linelen count = true ↔
    (line2 = -2 ∨ 1040 < line2) ∧ F64.lt (F64.ofNat 1800) linelen = true ∧ count < 80 := by
  simp [guardNewframe, and_assoc]

theorem guardVsync_iff : guardVsync line2 linelen count = true ↔
    line2 = -4 ∧ F64.lt (F64.ofNat 1800) linelen = true ∧ 80 < count := by
  simp [guardVsync, and_assoc]

theorem guardHalf_iff : guardHalf line2 linelen = true ↔
    0 ≤ line2 ∧ F64.lt (F64.ofNat 800) linelen = true ∧ F64.lt linelen (F64.ofNat 1000) = true := by
  simp [guardHalf]

theorem guardSkip_iff : guardSkip line2 linelen = true ↔
    0 ≤ line2 ∧ F64.lt (F64.ofNat 1700) linelen = true := by
  simp [guardSkip]

/-- The model's guards are the printed ones. -/
theorem guardHolds_iff (g : Nat) :
    Claims.guardHolds line2 linelen count g ↔ Claims.printedGuard line2 linelen count g :=
  match g with
  | 0 => Iff.rfl
  | 1 => guardActive_iff
  | 2 => guardField2_iff
  | 3 => guardNewframe_iff
  | 4 => guardVsync_iff
  | 5 => guardHalf_iff
  | 6 => guardSkip_iff
  | _ + 7 => Iff.rfl

theorem le_six_of_guardHolds {g : Nat} (h : Claims.guardHolds line2 linelen count g) : g ≤ 6 :=
  match g with
  | 0 | 1 | 2 | 3 | 4 | 5 | 6 => by decide
  | _ + 7 => h.elim

/-! ### Their overlaps -/

theorem F64.lt_iff_key_lt {a b : F64} (ha : a.finite = true) (hb : b.finite = true) :
    F64.lt a b = true ↔ a.key < b.key := by
  simp [F64.lt, ha, hb]

theorem F64.le_iff_key_le {a b : F64} (ha : a.finite = true) (hb : b.finite = true) :
    F64.le a b = true ↔ a.key ≤ b.key := by
  simp [F64.le, ha, hb]

/-- A finite interval below 1000 is not above a bound from there up. -/
theorem not_above_of_short {bound : F64} (hlen : linelen.finite = true)
    (hshort : F64.lt linelen (F64.ofNat 1000) = true) (hbound : bound.finite = true)
    (hkey : (F64.ofNat 1000).key ≤ bound.key) :
    ¬ F64.le bound linelen = true ∧ ¬ F64.lt bound linelen = true := by
  rw [F64.lt_iff_key_lt hlen (by decide +kernel)] at hshort
  rw [F64.le_iff_key_le hbound hlen, F64.lt_iff_key_lt hbound hlen]
  omega

/-- Guard 5 asks for a short interval and guards 1, 3 and 6 for a long one; any other two guards that exclude each
other do so by the line or by the count. -/
theorem printedGuard_overlap {g h : Nat} (hlen : linelen.finite = true) (hgh : g < h) (hh6 : h ≤ 6)
    (hg : Claims.printedGuard line2 linelen count g) (hh : Claims.printedGuard line2 linelen count h) :
    (g = 1 ∨ g = 3) ∧ h = 6 := by
  have h1638 (hshort : F64.lt linelen (F64.ofNat 1000) = true) : ¬ F64.le (F64.ofNat 1638) linelen = true :=
    (not_above_of_short hlen hshort (by decide +kernel) (by decide +kernel)).1
  have h1700 (hshort : F64.lt linelen (F64.ofNat 1000) = true) : ¬ F64.lt (F64.ofNat 1700) linelen = true :=
    (not_above_of_short hlen hshort (by decide +kernel) (by decide +kernel)).2
  have h1800 (hshort : F64.lt linelen (F64.ofNat 1000) = true) : ¬ F64.lt (F64.ofNat 1800) linelen = true :=
    (not_above_of_short hlen hshort (by decide +kernel) (by decide +kernel)).2
  match g, h with
  | 0, _ => exact hg.elim
  | 1, 6 => exact ⟨.inl rfl, rfl⟩
  | 3, 6 => exact ⟨.inr rfl, rfl⟩
  | 1, 5 => exact absurd hg.2.1 (h1638 hh.2.2)
  | 3, 5 => exact absurd hg.2.1 (h1800 hh.2.2)
  | 5, 6 => exact absurd hh.2 (h1700 hg.2.2)
  | 1, 2 | 1, 3 | 1, 4 | 2, 3 | 2, 4 | 2, 5 | 2, 6 | 3, 4 | 4, 5 | 4, 6 =>
    simp only [Claims.printedGuard] at hg hh
    omega
  | _ + 6, _ => omega

/-! ### The least guard that holds -/

theorem classify_of_least {g : Nat} (hg : Claims.guardHolds line2 linelen count g)
    (hleast : ∀ h < g, ¬ Claims.guardHolds line2 linelen count h) :
    classify line2 linelen count = Claims.outcomeOf g :=
  match g with
  | 0 => hg.elim
  | 1 => if_pos hg
  | 2 => (if_neg (hleast 1 (by decide))).trans <| if_pos hg
  | 3 => (if_neg (hleast 1 (by decide))).trans <| (if_neg (hleast 2 (by decide))).trans <| if_pos hg
  | 4 =>
    (if_neg (hleast 1 (by decide))).trans <| (if_neg (hleast 2 (by decide))).trans <|
      (if_neg (hleast 3 (by decide))).trans <| if_pos hg
  | 5 =>
    (if_neg (hleast 1 (by decide))).trans <| (if_neg (hleast 2 (by decide))).trans <|
      (if_neg (hleast 3 (by decide))).trans <| (if_neg (hleast 4 (by decide))).trans <| if_pos hg
  | 6 =>
    (if_neg (hleast 1 (by decide))).trans <| (if_neg (hleast 2 (by decide))).trans <|
      (if_neg (hleast 3 (by decide))).trans <| (if_neg (hleast 4 (by decide))).trans <|
      (if_neg (hleast 5 (by decide))).trans <| if_pos hg
  | _ + 7 => hg.elim

theorem classify_of_none (hnone : ∀ g, ¬ Claims.guardHolds line2 linelen count g) :
    classify line2 linelen count = .none :=
  (if_neg (hnone 1)).trans <| (if_neg (hnone 2)).trans <| (if_neg (hnone 3)).trans <|
    (if_neg (hnone 4)).trans <| (if_neg (hnone 5)).trans <| if_neg (hnone 6)

end

/-- Settles O30: the guards are the printed ones, and their overlaps and the first match are read off those. -/
theorem guardsOverlapOnlyWithSkip : Obligations.GuardsOverlapOnlyWithSkip := by
  intro line2 linelen count
  refine ⟨guardHolds_iff, fun g h hlen hgh hg hh => ?_, fun g => classify_of_least, classify_of_none⟩
  exact printedGuard_overlap hlen hgh (le_six_of_guardHolds hh) ((guardHolds_iff g).1 hg) ((guardHolds_iff h).1 hh)

/-! ### DISPATCH (R173) -/

/-- The operation that makes a classification outcome by itself (R190 to R196). -/
def Cls.operation (c : Cls) (linelen : F64) (count : Nat) : Instr :=
  match c with
  | .active => .clsActive linelen count
  | .field2 => .clsField2
  | .newframe => .clsNewframe
  | .vsync => .clsVsync
  | .half => .clsHalf
  | .skip => .clsSkip
  | .none => .clsNone

theorem selectedOutcome_eq (line2 : Int) (linelen : F64) (count : Nat) :
    Claims.selectedOutcome line2 linelen count = (classify line2 linelen count).operation linelen count := by
  simp only [Claims.selectedOutcome, classify, guardActive_iff, guardField2_iff, guardNewframe_iff, guardVsync_iff,
    guardHalf_iff, guardSkip_iff]
  split_ifs <;> rfl

section
variable {s : State}

theorem bodyOf_operation (c : Cls) (linelen : F64) (count : Nat) (s : State) :
    bodyOf (c.operation linelen count) s = (runOutcome c linelen s).andThen fun _ u => .ok .none u := by
  cases c <;> rfl

theorem Cls.operation_ne_reset (c : Cls) (linelen : F64) (count : Nat) : c.operation linelen count ≠ .reset := by
  cases c <;> nofun

theorem exec_operation (ha : s.Accepts) (c : Cls) (linelen : F64) (count : Nat) :
    exec (c.operation linelen count) s =
      ((runOutcome c linelen (s.setRet .none)).andThen fun _ u => .ok .none u).outcome := by
  rw [exec_eq_operate (c.operation_ne_reset linelen count), operate_ready ha.1 ha.2, bodyOf_operation]

theorem phresync_setRet (s : State) (r : Result) : phresync (s.setRet r) = (phresync s).setRet r := by
  rw [phresync, phresync, State.setRet_line2]
  split <;> rfl

theorem exec_phresync (ha : s.Accepts) : exec .phresync s = .next ((phresync s).setRet .none) := by
  rw [exec_eq_operate (by decide), operate_ready ha.1 ha.2, bodyOf, Res.ok_outcome, phresync_setRet,
    State.setRet_setRet]

theorem dispatch_of_reference (hp : s.prevValid = true) (xpt : F64) (count : Nat) :
    dispatch xpt count s =
      (runOutcome (classify s.line2 (F64.sub xpt s.prevCrosspoint) count) (F64.sub xpt s.prevCrosspoint) s).andThen
        fun _ u => .ok () (phresync u) := by
  rw [dispatch, State.readPrev_of_valid hp]
  rfl

theorem exec_dispatch (ha : s.Accepts) (hp : s.prevValid = true) (xpt : F64) (count : Nat) :
    exec (.dispatch xpt count) s =
      ((runOutcome (classify s.line2 (F64.sub xpt s.prevCrosspoint) count) (F64.sub xpt s.prevCrosspoint)
        (s.setRet .none)).andThen fun _ u => .ok .none (phresync u)).outcome := by
  rw [exec_eq_operate (i := .dispatch xpt count) nofun, operate_ready ha.1 ha.2, bodyOf,
    dispatch_of_reference (s := s.setRet .none) hp, Res.andThen_assoc]
  rfl

/-- An outcome that returns leaves the block ready for PHRESYNC. -/
theorem runOutcome_accepts {c : Cls} {linelen : F64} {u : State} {v : Unit} (ha : s.Accepts)
    (h : runOutcome c linelen s = .ok v u) : u.Accepts := by
  obtain ⟨⟨_, _, _, _, _, _, _, _, _, heffect⟩, hfault⟩ := runOutcome_effect.1 v h
  exact ⟨by rw [heffect]; exact ha.1, hfault.trans ha.2⟩

end

/-- Settles O31: the outcome returns and PHRESYNC follows, or it raises F_BOUNDS, or it stops. -/
theorem dispatchIsTheSelectedOutcomeThenResync : Obligations.DispatchIsTheSelectedOutcomeThenResync := by
  intro s xpt count o ha hp ho
  have hs : (s.setRet .none).Accepts := ha
  rw [exec_dispatch ha hp]
  rw [selectedOutcome_eq, exec_operation ha] at ho
  subst ho
  cases h : runOutcome (classify s.line2 (F64.sub xpt s.prevCrosspoint) count) (F64.sub xpt s.prevCrosspoint)
      (s.setRet .none) with
  | ok v u =>
    have hu : u.Accepts := runOutcome_accepts hs h
    have hret : (u.setRet .none).Accepts := hu
    simp only [Res.ok_andThen, Res.ok_outcome]
    rw [if_pos hret.2, exec_phresync hret, phresync_setRet, State.setRet_setRet]
  | raised u =>
    obtain ⟨-, n, hfault, -⟩ := runOutcome_effect.2 h
    simp [hfault]
  | stopped w => cases w <;> rfl

end Sys2Proof.Machine
end

section
/-! PROOFS about the filters and the heterodyne table (family 40_filter_heterodyne): FFEED, FCLR and HETGEN return on
every state that accepts them, each with one write of the state. -/

namespace Sys2Proof.Machine

/-- An accepted operation starts with no result; what its body returns is recorded in the state it leaves. -/
theorem exec_of_returned {i : Instr} {s u : State} {r : Result} (ha : s.Accepts) (hi : i ≠ .reset)
    (hbody : bodyOf i (s.setRet .none) = .ok r (u.setRet .none)) : exec i s = .next (u.setRet r) := by
  rw [exec_eq_operate hi, operate_ready ha.1 ha.2, hbody, Res.ok_outcome, State.setRet_setRet]

/-! ### The filters -/

@[simp] theorem State.setRet_filter (s : State) (r : Result) (f : FilterId) :
    (s.setRet r).filter f = s.filter f := by cases f <;> rfl

theorem State.setRet_setFilter (s : State) (r : Result) (f : FilterId) (st : FilterState) :
    (s.setRet r).setFilter f st = (s.setFilter f st).setRet r := by cases f <;> rfl

/-- Feeding a cleared filter returns the output of R122 and writes its one delay line. -/
theorem ffeed_of_cleared {f : FilterId} {s : State} (hc : (s.filter f).cleared = true) (v : F64) :
    ffeed f v s = .ok (Claims.directForm (coefOf s.cfg f) (s.filter f) v)
      (s.setFilter f (Claims.fed (coefOf s.cfg f) (s.filter f) v)) := by
  rcases ffeed_cases f v s with ⟨-, he⟩ | ⟨hu, -⟩
  · rw [he, FilterState.output_eq_directForm, FilterState.advance_eq_fed]
  · exact absurd (hc.symm.trans hu) (by decide)

/-- Feeding a filter leaves its ghost bit (R33). -/
theorem fed_of_cleared {st : FilterState} (hc : st.cleared = true) (spec : FilterSpec) (v : F64) :
    Claims.fed spec st v =
      { x := (v :: st.x).take spec.b.length
        y := (Claims.directForm spec st v :: st.y).take spec.a.length
        cleared := true } := by
  rw [Claims.fed, hc]

/-- Settles O11: a cleared filter is fed, and recording the result commutes with the write of its delay line. -/
theorem ffeedComputesTheDirectForm : Obligations.FfeedComputesTheDirectForm := by
  intro s f v ha hc
  have hfeed := ffeed_of_cleared (s := s.setRet .none) (by rwa [State.setRet_filter]) v
  rw [State.setRet_filter, State.setRet_cfg, fed_of_cleared hc, State.setRet_setFilter] at hfeed
  exact exec_of_returned ha nofun (by rw [bodyOf, hfeed, Res.ok_andThen])

/-- Settles O10: FCLR is the one write of the cleared delay line. -/
theorem fclrSetsTheDelayLine : Obligations.FclrSetsTheDelayLine := by
  intro s f level ha
  have hclear : fclr f level (s.setRet .none) = (fclr f level s).setRet .none := State.setRet_setFilter s .none f _
  exact exec_of_returned (u := fclr f level s) ha nofun (by rw [bodyOf, hclear])

/-! ### The heterodyne table -/

@[simp] theorem hetTable_length (p : Params) : (hetTable p).length = p.hetLen := by simp [hetTable]

theorem hetTable_getElem? {p : Params} {k : Nat} (hk : k < p.hetLen) :
    (hetTable p)[k]? = some (Claims.tableEntry k) := by
  simp [hetTable, hk, hetEntry_eq_tableEntry]

/-- The cosine is within the last bit of a value that both its choices are within the last bit of (U12). -/
theorem hetCos_lastBitApart {a e : F64} (hf : a.finite = true) (h0 : a.significand ≠ 0)
    (h : ∀ away, Claims.LastBitApart (enclosing (cosSin a).1 away) e) : Claims.LastBitApart (hetCos a) e := by
  rcases hetCos_cases hf h0 with he | he <;> rw [he] <;> exact h _

/-- The same of the sine. -/
theorem hetSin_lastBitApart {a e : F64} (hf : a.finite = true) (h0 : a.significand ≠ 0)
    (h : ∀ away, Claims.LastBitApart (enclosing (cosSin a).2 away) e) : Claims.LastBitApart (hetSin a) e := by
  rcases hetSin_cases hf h0 with he | he <;> rw [he] <;> exact h _

/-- The vectors V-HET 1 to 8: the angle is finite and not zero, and either last bit is within one of the printed
value. -/
theorem printedTable_near_enclosing : ∀ k < 8, ∀ entry ∈ Claims.printedTable[k + 1]?,
    (Claims.tableAngle (k + 1)).finite = true ∧ (Claims.tableAngle (k + 1)).significand ≠ 0 ∧
      (∀ away, Claims.LastBitApart (enclosing (cosSin (Claims.tableAngle (k + 1))).1 away) entry.1) ∧
      ∀ away, Claims.LastBitApart (enclosing (cosSin (Claims.tableAngle (k + 1))).2 away) entry.2 := by
  unfold Claims.LastBitApart
  decide +kernel

theorem tableEntry_zero : Claims.tableEntry 0 = (Config.ONE, Config.ZERO) := by
  rw [← hetEntry_eq_tableEntry, hetEntry_zero]

/-- V-HET: the phase origin is exact, and each later entry is within the last bit (R126, U12). -/
theorem tableEntry_near_printedTable {k : Nat} {entry : F64 × F64} (h : Claims.printedTable[k]? = some entry) :
    Claims.LastBitApart (Claims.tableEntry k).1 entry.1 ∧ Claims.LastBitApart (Claims.tableEntry k).2 entry.2 := by
  cases k with
  | zero =>
    obtain rfl : (Config.ONE, Config.ZERO) = entry := Option.some.inj h
    rw [tableEntry_zero]
    exact ⟨⟨rfl, Nat.le_succ _, Nat.le_succ _⟩, rfl, Nat.le_succ _, Nat.le_succ _⟩
  | succ k =>
    obtain ⟨hlen, -⟩ := List.getElem?_eq_some_iff.1 h
    obtain ⟨hf, h0, hcos, hsin⟩ := printedTable_near_enclosing k (Nat.lt_of_succ_lt_succ hlen) entry h
    exact ⟨hetCos_lastBitApart hf h0 hcos, hetSin_lastBitApart hf h0 hsin⟩

/-- Settles O12: HETGEN is the one write of the table, whose entries are those of R126. -/
theorem hetgenWritesTheTable : Obligations.HetgenWritesTheTable := by
  refine ⟨fun s ha => ?_, tableEntry_zero, fun k entry => tableEntry_near_printedTable⟩
  have hexec : exec .hetgen s = .next ((s.setHet (hetTable s.cfg)).setRet .none) := exec_of_returned ha nofun rfl
  exact ⟨_, hexec, rfl, hetTable_length s.cfg, fun k hk => hetTable_getElem? hk⟩

end Sys2Proof.Machine
end

section
/-! PROOFS about the level codec (family 41_level_codec): S2IRE and IRE2S compute a value from their operand alone. -/

namespace Sys2Proof.Machine

/-- An accepted operation whose body only returns a value changes nothing but the result register (R98). -/
theorem exec_of_pure {i : Instr} {s : State} {r : Result} (ha : s.Accepts) (hi : i ≠ .reset)
    (hbody : ∀ u, bodyOf i u = .ok r u) : exec i s = .next (s.setRet r) :=
  exec_of_returned ha hi (hbody (s.setRet .none))

theorem exec_s2ire {s : State} (ha : s.Accepts) (code : Code) :
    exec (.s2ire code) s = .next (s.setRet (.real (s2ire code))) :=
  exec_of_pure ha nofun fun _ => rfl

theorem exec_ire2s {s : State} (ha : s.Accepts) (ire : F64) :
    exec (.ire2s ire) s = .next (s.setRet (.code (ire2s ire))) :=
  exec_of_pure ha nofun fun _ => rfl

/-- Settles O13: the code enters S2IRE's affine map as the real of its number (R9). -/
theorem s2ireConverts : Obligations.S2ireConverts := by
  intro s code ha
  rw [exec_s2ire ha, s2ire, F64.ofCode]

/-- The 1 that IRE2S adds, a constant of the model, is the real of the number 1. -/
theorem one_eq_ofNat : Config.ONE = F64.ofNat 1 := by decide +kernel

/-- Settles O14: IRE2S's tests are the printed ones, and so is its affine map with the constant written as a
number. -/
theorem ire2sClampsAndTruncates : Obligations.Ire2sClampsAndTruncates := by
  intro s ire ha
  rw [exec_ire2s ha, ire2s, ire2sLinear, one_eq_ofNat]

end Sys2Proof.Machine
end

section
/-! PROOFS about the Resampler (family 42_resampler): CUBIC computes a value from its operands alone; SCALE writes an
initial part of NL, the whole line or the elements before the first refused read. -/

namespace Sys2Proof.Machine

/-! ### CUBIC -/

/-- The 0.5 of the polynomial, a constant of the model, is the written quotient 1/2. -/
theorem half_eq_div : Config.HALF = F64.div (F64.ofNat 1) (F64.ofNat 2) := by decide

theorem exec_cubic {s : State} (ha : s.Accepts) (y0 y1 y2 y3 t : F64) :
    exec (.cubic y0 y1 y2 y3 t) s = .next (s.setRet (.real (cubic y0 y1 y2 y3 t))) :=
  exec_of_pure ha nofun fun _ => rfl

/-- Settles O17: CUBIC's polynomial is the printed one with 0.5 written as a quotient. -/
theorem cubicEvaluatesTheNestedPolynomial : Obligations.CubicEvaluatesTheNestedPolynomial := by
  intro s y0 y1 y2 y3 t ha
  rw [exec_cubic ha, cubic, half_eq_div]

/-! ### The write of NL -/

/-- The state after SCALE's values are written to NL[0], NL[1], … (R151). -/
def State.writeNl (s : State) (vals : List F64) : State := s.setNl (Cells.write none s.nl 0 vals)

/-- An element of NL that the write reaches holds its value. -/
theorem State.readNl_writeNl_of_getElem? {s : State} {vals : List F64} {j : Nat} {v : F64}
    (h : vals[j]? = some v) : (s.writeNl vals).readNl j = .ok v := by
  obtain ⟨hj, -⟩ := List.getElem?_eq_some_iff.1 h
  apply State.readNl_of_find
  rw [State.writeNl, State.setNl_nl, Cells.find_write, if_pos (by omega), Nat.sub_zero, h]

/-- A read of NL past the write, or at no index at all, is as before it. -/
theorem State.readNl_writeNl_of_outside {s : State} {vals : List F64} {k : Int}
    (h : k < 0 ∨ (vals.length : Int) ≤ k) : (s.writeNl vals).readNl k = s.readNl k := by
  by_cases hneg : k < 0
  · rw [State.readNl_of_neg hneg, State.readNl_of_neg hneg]
  · have hfind : Cells.find (s.writeNl vals).nl k.toNat = Cells.find s.nl k.toNat := by
      rw [State.writeNl, State.setNl_nl, Cells.find_write, if_neg (by omega)]
    rw [State.readNl, hfind, State.writeNl, State.setNl_cfg, State.readNl]

/-- The `i`-th value of the resampled line is the output sample of R151 at its position. -/
theorem resampledLine_getElem? {s : State} {start stop : F64} {n i : Nat} (hi : i < n) :
    (resampledLine s start stop n)[i]? = some (Claims.interpolated s (Claims.positionOf start stop n i)) := by
  rw [resampledLine, List.getElem?_map, List.getElem?_range hi]
  rfl

/-! ### SCALE of a readable line -/

/-- Settles O18: SCALE returns with the resampled line written over the first elements of NL. -/
theorem scaleWritesTheResampledLine : Obligations.ScaleWritesTheResampledLine := by
  intro s start stop outLen ha hfits hreads
  have hscale : scale start stop outLen (s.setRet .none) =
      .ok () ((s.writeNl (resampledLine s start stop outLen)).setRet .none) :=
    scale_of_readable (s := s.setRet .none) hreads hfits
  refine ⟨_, exec_of_returned ha nofun (by rw [bodyOf, hscale, Res.ok_andThen]), rfl, fun i hi => ?_, fun k hk => ?_⟩
  · exact State.readNl_writeNl_of_getElem? (resampledLine_getElem? hi)
  · exact State.readNl_writeNl_of_outside (by rwa [resampledLine_length])

/-! ### SCALE at its first refused read -/

/-- Of the four reads of an output sample, made in ascending order, the first one outside the window is refused
(R151, R263). -/
theorem sampleAt_of_refused {s : State} {p : F64} {d : Nat} (hd : d < 4)
    (hbefore : ∀ e < d, s.inWindow (sourceIndex p - 1 + e) = true)
    (hout : s.inWindow (sourceIndex p - 1 + d) = false) : sampleAt s p = .error (sourceIndex p - 1 + d) := by
  obtain ⟨m, hm⟩ : ∃ m, sourceIndex p = m + 1 := Nat.exists_eq_add_one.2 (by have := sourceIndex_ge p; omega)
  rw [hm, Nat.add_sub_cancel] at hbefore hout ⊢
  have hread : ∀ e < d, s.readSample (m + e) = some (s.streamCode (m + e)) := fun e he =>
    State.readSample_of_inWindow (hbefore e he)
  have hfirst : 0 < d → s.readSample m = some (s.streamCode m) := hread 0
  have hnone : s.readSample (m + d) = none := State.readSample_eq_none.2 hout
  simp only [sampleAt, hm, Nat.add_sub_cancel, Nat.add_assoc, Nat.reduceAdd]
  match d, hd with
  | 0, _ =>
    rw [Nat.add_zero] at hnone
    simp only [hnone, Nat.add_zero]
  | 1, _ => simp only [hfirst (by decide), hnone]
  | 2, _ => simp only [hfirst (by decide), hread 1 (by decide), hnone]
  | 3, _ => simp only [hfirst (by decide), hread 1 (by decide), hread 2 (by decide), hnone]

/-- When the reads of an output element are the first ones refused, SCALE raises F_BOUNDS at the refused index with
the elements before it written (R151, R264). -/
theorem scale_of_refused {s : State} {start stop : F64} {n i m : Nat} (hi : i < n) (hfits : i ≤ s.cfg.scaleTgt)
    (hbefore : ∀ j < i, TapsReadable s (sourcePosition start (perSample start stop n) j))
    (hrefused : sampleAt s (sourcePosition start (perSample start stop n) i) = .error m) :
    scale start stop n s = .raised ((s.writeNl ((resampledLine s start stop n).take i)).raise m) := by
  obtain ⟨-, hbad⟩ := sampleAt_error hrefused
  rcases scaleFrom_cases s start (perSample start stop n) n 0 with ⟨hall, -⟩ | ⟨j, hj, why, hall, he, hwhy⟩
  · have hread := (hall i hi).1
    rw [Nat.zero_add] at hread
    exact absurd hread hbad
  · simp only [zero_add] at hall he hwhy
    have hji : j ≤ i := not_lt.1 fun h => hbad (hall i h).1
    rcases hwhy with ⟨m', rfl, hm'⟩ | ⟨-, hend, hread⟩
    · obtain rfl : i = j := le_antisymm (not_lt.1 fun h => (sampleAt_error hm').2 (hbefore j h)) hji
      obtain rfl : m = m' := Except.error.inj (hrefused.symm.trans hm')
      rw [resampledLine, ← List.map_take, List.take_range, Nat.min_eq_left hi.le]
      simp only [scale, he]
      rfl
    · obtain rfl : i = j := by omega
      exact absurd hread hbad

/-- An accepted operation whose body begins with a part that raises F_BOUNDS leaves the state of the raise (R264). -/
theorem exec_of_raised {α : Type} {i : Instr} {s u : State} {r : Res α} {k : α → State → Res Result}
    (ha : s.Accepts) (hr : r = .raised u) (hi : i ≠ .reset) (hbody : bodyOf i (s.setRet .none) = r.andThen k) :
    exec i s = .next u := by
  rw [exec_eq_operate hi, operate_ready ha.1 ha.2, hbody, hr]
  rfl

/-- Settles O19: the first refused read of the first element with one ends SCALE, whose earlier elements stand. -/
theorem scaleFaultsAtTheFirstRefusedRead : Obligations.ScaleFaultsAtTheFirstRefusedRead := by
  intro s start stop outLen i d ha hi hfits hd hbefore hin hout
  have hrefused := sampleAt_of_refused hd hin hout
  have hscale : scale start stop outLen (s.setRet .none) =
      .raised (((s.writeNl ((resampledLine s start stop outLen).take i)).raise _).setRet .none) :=
    scale_of_refused (s := s.setRet .none) hi hfits hbefore hrefused
  refine ⟨_, exec_of_raised ha hscale nofun rfl, rfl, rfl, fun j hj => ?_, fun k hk => ?_⟩
  · exact State.readNl_writeNl_of_getElem? (by rw [List.getElem?_take_of_lt hj, resampledLine_getElem? (hj.trans hi)])
  · exact State.readNl_writeNl_of_outside (by rwa [List.length_take, resampledLine_length, Nat.min_eq_left hi.le])

end Sys2Proof.Machine
end

section
/-! PROOFS about the burst detector (family 43_burst_detector): as built, BURST's loop is one arm run twice, each
accumulator being two copies of that arm's delay line and of its running maximum. -/

namespace Sys2Proof.Machine

/-! ### One arm, twice -/

/-- BURST's accumulator after `n` window samples of the as-built detector: one arm, twice (R161 b). -/
def BurstAcc.ofArm (p : Params) (input : Nat → F64) (n : Nat) : BurstAcc where
  fi := Claims.burstArm p input n
  fq := Claims.burstArm p input n
  amp := Claims.burstMaximum p input n
  phase := Claims.burstMaximum p input n

theorem burstStart_eq_ofArm (p : Params) (input : Nat → F64) : burstStart p = BurstAcc.ofArm p input 0 := rfl

/-- Two equal outputs of the arm have the magnitude of its window sample (R160, R161 b). -/
theorem magnitudeOf_directForm (p : Params) (input : Nat → F64) (n : Nat) :
    magnitudeOf (Claims.directForm p.burstCoef (Claims.burstArm p input n) (input n))
      (Claims.directForm p.burstCoef (Claims.burstArm p input n) (input n)) = Claims.burstMagnitude p input n := rfl

/-- BURST's test for a new maximum is that of the printed loop: from sample 16 on, and strictly greater (R160). -/
theorem newMaximum_iff (n : Nat) (best m : F64) :
    (decide (Config.BW_SKIP ≤ n) && F64.lt best m) = true ↔ 16 ≤ n ∧ F64.lt best m = true := by
  rw [Bool.and_eq_true, decide_eq_true_eq, Config.BW_SKIP]

/-- The maximum after one more window sample, in the terms of BURST's loop. -/
theorem burstMaximum_succ (p : Params) (input : Nat → F64) (n : Nat) :
    Claims.burstMaximum p input (n + 1) =
      if decide (Config.BW_SKIP ≤ n) &&
        F64.lt (Claims.burstMaximum p input n) (Claims.burstMagnitude p input n)
      then Claims.burstMagnitude p input n else Claims.burstMaximum p input n := by
  rw [Claims.burstMaximum, List.range_succ, List.foldl_append]
  exact (if_congr (newMaximum_iff n _ _) rfl rfl).symm

/-- As built, both arms are fed the product with the real table entry, and the magnitude is recorded as the phase
(R160), so a window sample keeps the arms equal (R161 b). -/
theorem burstSample_ofArm {p : Params} {input : Nat → F64} {n : Nat} {v : F64} {h : F64 × F64}
    (hbuilt : p.burstVariant = .asBuilt) (hinput : input n = F64.mul v h.1) :
    burstSample p n v h (BurstAcc.ofArm p input n) = BurstAcc.ofArm p input (n + 1) := by
  simp only [burstSample, quadratureInput, recordedPhase, hbuilt, ← hinput, BurstAcc.ofArm,
    FilterState.output_eq_directForm, FilterState.advance_eq_fed, Claims.burstArm, burstMaximum_succ,
    magnitudeOf_directForm]

/-! ### The reads of the window -/

/-- `line` is what NL holds in the burst window of `off` (R63, R75). -/
def WindowHolds (s : State) (line : List F64) (off : Nat) : Prop :=
  ∀ i : Nat, i < 100 → s.readNl ((off + 140 + i : Nat) : Int) = .ok (line.getD (off + 140 + i) Config.ZERO)

/-- With the window-relative map, sample `i` meets entry `i` of a table long enough for the window (R127). -/
theorem readHet_of_detectorReady {s : State} (hs : Claims.DetectorReady s) (off : Int) {i : Nat} (hi : i < 100) :
    s.readHet (hetIndex s.cfg off i) = .ok (s.het.getD i (Config.ZERO, Config.ZERO)) := by
  obtain ⟨-, hmap, hlen, -⟩ := hs
  simp [hetIndex, hmap, State.readHet, List.getD_eq_getElem?_getD,
    List.getElem?_eq_getElem (lt_of_lt_of_le hi hlen)]

/-! ### BURST -/

/-- Over a window that can be read, BURST's loop runs one arm twice (R160, R161 b). -/
theorem burstFrom_ofArm {s : State} {line : List F64} {off k i : Nat} (hs : Claims.DetectorReady s)
    (hnl : WindowHolds s line off) (hk : i + k ≤ 100) :
    burstFrom s (off : Int) k i (BurstAcc.ofArm s.cfg (Claims.burstInput s.het line off) i) =
      .ok (BurstAcc.ofArm s.cfg (Claims.burstInput s.het line off) (i + k)) := by
  have hbuilt : s.cfg.burstVariant = .asBuilt := hs.1
  induction k generalizing i with
  | zero => rfl
  | succ k ih =>
    have hv : s.readNl ((off : Int) + (Config.BW_START : Int) + (i : Int)) = _ := hnl i (by omega)
    have hh := readHet_of_detectorReady hs (off : Int) (i := i) (by omega)
    have hsample := burstSample_ofArm (input := Claims.burstInput s.het line off) (n := i) hbuilt rfl
    simp only [burstFrom, hv, hh, hsample]
    rw [ih (by omega), Nat.add_right_comm, Nat.add_assoc]

/-- BURST over a window that can be read returns what the one arm measures, twice, and writes that arm's delay
line to both filters (R160, R161 a and b). -/
theorem burst_of_windowHolds {s : State} {line : List F64} {off : Nat} (hs : Claims.DetectorReady s)
    (hnl : WindowHolds s line off) :
    burst (off : Int) s = .ok (Claims.measured s line off, Claims.measured s line off)
      ((s.setFilter .fi (Claims.burstArm s.cfg (Claims.burstInput s.het line off) 100)).setFilter .fq
        (Claims.burstArm s.cfg (Claims.burstInput s.het line off) 100)) := by
  have hrun : burstRun s (off : Int) = .ok (BurstAcc.ofArm s.cfg (Claims.burstInput s.het line off) 100) := by
    rw [burstRun, burstStart_eq_ofArm _ (Claims.burstInput s.het line off)]
    exact burstFrom_ofArm hs hnl (Nat.le_of_eq (Nat.zero_add _))
  rw [burst, hrun]
  rfl

theorem measured_setRet (s : State) (r : Result) (line : List F64) (off : Nat) :
    Claims.measured (s.setRet r) line off = Claims.measured s line off := rfl

/-- Settles O21: BURST reads none of what the start of an operation clears, and its two writes are of FI and FQ. -/
theorem burstMeasuresOneArmTwice : Obligations.BurstMeasuresOneArmTwice := by
  intro s off line ha hs hnl
  have hburst : burst (off : Int) (s.setRet .none) = _ := burst_of_windowHolds (s := s.setRet .none) hs hnl
  rw [measured_setRet, State.setRet_cfg, State.setRet_het, State.setRet_setFilter, State.setRet_setFilter] at hburst
  have hexec : exec (.burst off) s = .next (State.setRet _ (.pair _ _)) :=
    exec_of_returned ha nofun (by rw [bodyOf, hburst, Res.ok_andThen])
  exact hexec

end Sys2Proof.Machine
end

section
/-! PROOFS about the sync detector (family 44_sync_detector): STEP opens, counts, discards or accepts a run, and an
accepted crossing with a reference is DISPATCH's; DISPATCH of an active line is the phase-correction loop, the row's
store and PHRESYNC. -/

namespace Sys2Proof.Machine

/-! ### What becomes of a filtered sample (R171, R172) -/

section
variable {n : Nat} {f : F64} {s : State}

/-- The first sample below the threshold opens a run with its interpolated crosspoint. -/
theorem trackCrossing_of_crossing (hf : F64.lt f s.cfg.syncThreshold = true) (hb : s.below = false) :
    trackCrossing n f s = .ok () (s.openRun (crosspoint n s.fPrev f s.cfg.syncThreshold)) := by
  rw [trackCrossing, if_pos hf, if_neg (by simp [hb])]

theorem trackCrossing_of_run (hf : F64.lt f s.cfg.syncThreshold = true) (hb : s.below = true) :
    trackCrossing n f s = .ok () s.extendRun := by
  rw [trackCrossing, if_pos hf, if_pos hb]

theorem trackCrossing_of_above (hf : F64.lt f s.cfg.syncThreshold = false) (hb : s.below = false) :
    trackCrossing n f s = .ok () s := by
  rw [trackCrossing, if_neg (by simp [hf]), if_neg (by simp [hb])]

/-- The first sample not below the threshold ends the run. -/
theorem trackCrossing_of_end (hf : F64.lt f s.cfg.syncThreshold = false) (hb : s.below = true) :
    trackCrossing n f s = completeRun s.closeRun := by
  rw [trackCrossing, if_neg (by simp [hf]), if_pos hb]

theorem completeRun_of_short (hcount : s.count ≤ Config.W_GATE) : completeRun s = .ok () s := by
  rw [completeRun, if_neg (not_lt.2 hcount)]

theorem completeRun_of_long (hcount : Config.W_GATE < s.count) (hx : s.xptValid = true) :
    completeRun s = acceptCrossing s.xpt s := by
  rw [completeRun, if_pos hcount, State.readXpt_of_valid hx]

theorem acceptCrossing_of_no_reference (hp : s.prevValid = false) (xpt : F64) :
    acceptCrossing xpt s = .ok () (s.acceptCrossing xpt) := by
  rw [acceptCrossing, if_neg (by simp [hp]), Res.ok_andThen]

theorem acceptCrossing_of_reference (hp : s.prevValid = true) (xpt : F64) :
    acceptCrossing xpt s = (dispatch xpt s.count s).andThen fun _ u => .ok () (u.acceptCrossing xpt) := by
  rw [acceptCrossing, if_pos hp]

end

/-! ### STEP (R171) -/

section
variable {s : State}

theorem stepOp_of_outside (h : s.inWindow s.scanPos = false) : stepOp s = .raised (s.raise s.scanPos) := by
  simp only [stepOp, State.readSample_eq_none.2 h, raiseBounds]

/-- Settles O40: the read of the sample is STEP's first act, and it is refused. -/
theorem stepOutsideTheWindowFaults : Obligations.StepOutsideTheWindowFaults := fun s ha hout =>
  exec_of_raised ha (stepOp_of_outside (s := s.setRet .none) hout) nofun rfl

theorem exec_step (ha : s.Accepts) :
    exec .step s = ((stepOp (s.setRet .none)).andThen fun _ u => .ok .none u).outcome :=
  operate_ready ha.1 ha.2 (bodyOf .step)

/-- The state in which STEP tracks the filtered value: no result stands, and SF is fed. -/
def State.syncFed (s : State) : State := (s.setRet .none).setFilter .sf (Claims.fedSync s)

theorem stepOp_eq_track (hready : Claims.SampleReady s) :
    stepOp (s.setRet .none) = (trackCrossing s.scanPos (Claims.filtered s) s.syncFed).andThen
      fun _ u => .ok () (u.advanceScan (Claims.filtered s) s.scanPos) :=
  stepOp_of_ready (s := s.setRet .none) hready

/-- STEP on a ready sample whose tracking returns. -/
theorem execStep_of_tracked {u : State} (ha : s.Accepts) (hready : Claims.SampleReady s)
    (htrack : trackCrossing s.scanPos (Claims.filtered s) s.syncFed = .ok () u) :
    exec .step s = .next ((u.advanceScan (Claims.filtered s) s.scanPos).setRet .none) := by
  rw [exec_step ha, stepOp_eq_track hready, htrack, Res.ok_andThen, Res.ok_andThen, Res.ok_outcome]

/-- STEP on a ready sample whose tracking raises F_BOUNDS: `f_prev` and `scan_pos` stay (R264, log entry 12). -/
theorem execStep_of_track_raised {u : State} (ha : s.Accepts) (hready : Claims.SampleReady s)
    (htrack : trackCrossing s.scanPos (Claims.filtered s) s.syncFed = .raised u) : exec .step s = .next u := by
  rw [exec_step ha, stepOp_eq_track hready, htrack, Res.raised_andThen, Res.raised_andThen, Res.raised_outcome]

end

/-- Settles O38: each clause is one path through the tracking of the sample. -/
theorem stepTracksOneSample : Obligations.StepTracksOneSample := by
  refine fun s ha hready => ⟨fun hf hb => ?_, fun hf hb => ?_, fun hf hb => ?_, fun hf hb hcount => ?_,
    fun hf hb hcount hp hx => ?_⟩
  · exact execStep_of_tracked ha hready (trackCrossing_of_crossing (s := s.syncFed) hf hb)
  · exact execStep_of_tracked ha hready (trackCrossing_of_run (s := s.syncFed) hf hb)
  · exact execStep_of_tracked ha hready (trackCrossing_of_above (s := s.syncFed) hf hb)
  · have htrack := trackCrossing_of_end (n := s.scanPos) (s := s.syncFed) hf hb
    rw [completeRun_of_short (s := s.syncFed.closeRun) hcount] at htrack
    exact execStep_of_tracked ha hready htrack
  · have htrack := trackCrossing_of_end (n := s.scanPos) (s := s.syncFed) hf hb
    rw [completeRun_of_long (s := s.syncFed.closeRun) hcount hx,
      acceptCrossing_of_no_reference (s := s.syncFed.closeRun) hp] at htrack
    exact execStep_of_tracked ha hready htrack

/-- DISPATCH returns without a fault, or it raises one (R173, R264). -/
theorem execDispatch_eq_next {s u : State} {xpt : F64} {count : Nat} (ha : s.Accepts)
    (h : exec (.dispatch xpt count) s = .next u) :
    (∃ v, dispatch xpt count (s.setRet .none) = .ok () v ∧ u = v.setRet .none ∧ u.fault = none) ∨
      dispatch xpt count (s.setRet .none) = .raised u ∧ u.fault ≠ none := by
  have houtcome : exec (.dispatch xpt count) s =
      ((dispatch xpt count (s.setRet .none)).andThen fun _ u => .ok .none u).outcome :=
    operate_ready ha.1 ha.2 (bodyOf (.dispatch xpt count))
  rw [houtcome] at h
  cases hd : dispatch xpt count (s.setRet .none) with
  | ok _ v =>
    rw [hd] at h
    obtain rfl : v.setRet .none = u := Host.Outcome.next.inj h
    exact .inl ⟨v, rfl, rfl, (dispatch_effect.1 _ hd).2.trans ha.2⟩
  | raised v =>
    rw [hd] at h
    obtain rfl : v = u := Host.Outcome.next.inj h
    obtain ⟨-, n, hfault, -⟩ := dispatch_effect.2 hd
    exact .inr ⟨rfl, by simp [hfault]⟩
  | stopped w =>
    rw [hd] at h
    cases w <;> nomatch h

/-- Settles O39: the DISPATCH that STEP makes is the operation's on the fed state with the run closed, and it
returns without a fault or raises one. -/
theorem stepDispatchesAnAcceptedCrossing : Obligations.StepDispatchesAnAcceptedCrossing := by
  intro s u ha hready hf hb hcount hx hp hdispatch
  have htrack : trackCrossing s.scanPos (Claims.filtered s) s.syncFed =
      (dispatch s.xpt s.count s.syncFed.closeRun).andThen fun _ u => .ok () (u.acceptCrossing s.xpt) :=
    calc trackCrossing s.scanPos (Claims.filtered s) s.syncFed
        = completeRun s.syncFed.closeRun := trackCrossing_of_end (s := s.syncFed) hf hb
      _ = acceptCrossing s.xpt s.syncFed.closeRun := completeRun_of_long (s := s.syncFed.closeRun) hcount hx
      _ = _ := acceptCrossing_of_reference (s := s.syncFed.closeRun) hp s.xpt
  have hreturns :
      (∃ v, dispatch s.xpt s.count s.syncFed.closeRun = .ok () v ∧ u = v.setRet .none ∧ u.fault = none) ∨
        dispatch s.xpt s.count s.syncFed.closeRun = .raised u ∧ u.fault ≠ none :=
    execDispatch_eq_next (s := (s.setFilter .sf (Claims.fedSync s)).closeRun) ha hdispatch
  rcases hreturns with ⟨v, hv, rfl, hfault⟩ | ⟨hv, hfault⟩ <;> rw [hv] at htrack
  · exact ⟨fun _ => execStep_of_tracked ha hready htrack, fun h => absurd hfault h⟩
  · exact ⟨fun h => absurd h hfault, fun _ => execStep_of_track_raised ha hready htrack⟩

/-! ### PCL over readable lines (R212) -/

section
variable {s : State} {start stop : F64}

theorem twoPi_eq : Config.TWO_PI = Claims.twoPi := by decide

theorem phaseError_eq_wrapped (phase target : F64) :
    phaseError phase target = Claims.wrapped (F64.sub phase target) := by
  rw [phaseError, wrap, twoPi_eq, Claims.wrapped]

theorem halfPi_eq : Config.HALF_PI = Claims.halfPi := by decide

theorem neg_halfPi_eq : F64.neg Config.HALF_PI = Claims.minusHalfPi := by decide

theorem minusThreeQuarterPi_eq : Config.NEG_THREE_QUARTER_PI = Claims.minusThreeQuarterPi := by decide

/-- The model's choice of the target is the text of R211. -/
theorem nextTarget_eq_targetAfter (target phase1 : F64) :
    nextTarget target phase1 = Claims.targetAfter target phase1 := by
  rw [nextTarget, neg_halfPi_eq, halfPi_eq, minusThreeQuarterPi_eq, Claims.targetAfter]
  simp only [Bool.and_eq_true]

/-- SCALE of one line of the loop. -/
theorem scale_lineOf (h : SpanReadable s start stop s.cfg.scaleTgt) :
    scale start stop s.cfg.scaleTgt s = .ok () (s.writeNl (Claims.lineOf s start stop)) :=
  scale_of_readable h le_rfl

/-- An element of NL that the write reaches holds the line's value. -/
theorem State.readNl_writeNl_of_lt {line : List F64} {k : Nat} (hk : k < line.length) :
    (s.writeNl line).readNl (k : Int) = .ok (line.getD k Config.ZERO) :=
  State.readNl_writeNl_of_getElem? (by simp [List.getD_eq_getElem?_getD, List.getElem?_eq_getElem hk])

@[simp] theorem lineOf_length (s : State) (start stop : F64) :
    (Claims.lineOf s start stop).length = s.cfg.scaleTgt := resampledLine_length s start stop _

/-- Both burst windows lie in a line of the loop (R75, R290). -/
theorem windowHolds_lineOf {off : Nat} (hs : Claims.DetectorReady s) (hoff : off ≤ 1820) (u : State) :
    WindowHolds (u.writeNl (Claims.lineOf s start stop)) (Claims.lineOf s start stop) off := by
  obtain ⟨-, -, -, hlen⟩ := hs
  exact fun i hi => State.readNl_writeNl_of_lt (by rw [lineOf_length]; omega)

/-- What BURST off leaves in the filters: the one arm's delay line, twice. -/
def State.setArms (s : State) (line : List F64) (off : Nat) : State :=
  (s.setFilter .fi (Claims.burstArm s.cfg (Claims.burstInput s.het line off) 100)).setFilter .fq
    (Claims.burstArm s.cfg (Claims.burstInput s.het line off) 100)

theorem State.setArms_setArms (s : State) (line line' : List F64) (off off' : Nat) :
    (s.setArms line off).setArms line' off' = s.setArms line' off' := rfl

theorem State.setArms_writeNl (s : State) (line vals : List F64) (off : Nat) :
    (s.setArms line off).writeNl vals = (s.writeNl vals).setArms line off := rfl

theorem State.setArms_setTgtPhase (s : State) (line : List F64) (off : Nat) (a : F64) :
    (s.setArms line off).setTgtPhase a = (s.setTgtPhase a).setArms line off := rfl

theorem State.setTgtPhase_writeNl (s : State) (a : F64) (vals : List F64) :
    (s.setTgtPhase a).writeNl vals = (s.writeNl vals).setTgtPhase a := rfl

/-- The line of a resampling depends on nothing that PCL writes. -/
theorem LineEffect.lineOf {t : State} (h : LineEffect s t) (start stop : F64) :
    Claims.lineOf t start stop = Claims.lineOf s start stop := by
  obtain ⟨_, _, _, _, _, rfl⟩ := h
  rfl

/-- What BURST measures on a line depends on nothing that PCL writes. -/
theorem LineEffect.measured {t : State} (h : LineEffect s t) (line : List F64) (off : Nat) :
    Claims.measured t line off = Claims.measured s line off := by
  obtain ⟨_, _, _, _, _, rfl⟩ := h
  rfl

theorem writeNl_effect (s : State) (line : List F64) : LineEffect s (s.writeNl line) := ⟨_, _, _, _, _, rfl⟩

theorem setArms_effect (s : State) (line : List F64) (off : Nat) : LineEffect s (s.setArms line off) :=
  ⟨_, _, _, _, _, rfl⟩

theorem burst_setArms {line : List F64} {off : Nat} (hs : Claims.DetectorReady s) (hnl : WindowHolds s line off) :
    burst (off : Int) s = .ok (Claims.measured s line off, Claims.measured s line off) (s.setArms line off) :=
  burst_of_windowHolds hs hnl

/-- The state between PCL's two passes. -/
def State.retargeted (s : State) (start stop : F64) : State :=
  ((s.writeNl (Claims.lineOf s start stop)).setArms (Claims.lineOf s start stop) 0).setTgtPhase
    (Claims.pclTarget s start stop)

theorem retargeted_effect (s : State) (start stop : F64) : LineEffect s (s.retargeted start stop) :=
  ⟨_, _, _, _, _, rfl⟩

/-- PCL's first pass measures at the first window, moves the target and nudges `begin` (R212 steps 1 to 4). -/
theorem pclFirstPass_of_readable (hs : Claims.DetectorReady s) (hread : SpanReadable s start stop s.cfg.scaleTgt) :
    pclFirstPass start stop s = .ok (Claims.pclBegin s start stop) (s.retargeted start stop) := by
  have hburst := burst_setArms (s := s.writeNl (Claims.lineOf s start stop)) hs
    (windowHolds_lineOf hs (Nat.zero_le _) s)
  rw [pclFirstPass, scale_lineOf hread, Res.ok_andThen, ← Nat.cast_zero, hburst, Res.ok_andThen,
    (writeNl_effect s _).measured]
  simp only [tgtupd, nextTarget_eq_targetAfter, phaseError_eq_wrapped]
  rfl

/-- The state after PCL's second pass. -/
def State.remeasured (s : State) (start stop : F64) : State :=
  (s.writeNl (Claims.lineOf s start stop)).setArms (Claims.lineOf s start stop) Config.WIN2_OFFSET

theorem remeasured_effect (s : State) (start stop : F64) : LineEffect s (s.remeasured start stop) :=
  ⟨_, _, _, _, _, rfl⟩

/-- PCL's second pass discards the first window's result and nudges `end` by the second's (R212 steps 5 and 6). -/
theorem pclSecondPass_of_readable (hs : Claims.DetectorReady s) (hread : SpanReadable s start stop s.cfg.scaleTgt) :
    pclSecondPass start stop s =
      .ok (nudge stop
          (Claims.wrapped (F64.sub (Claims.measured s (Claims.lineOf s start stop) Config.WIN2_OFFSET) s.tgtPhase)))
        (s.remeasured start stop) := by
  have hfirst := burst_setArms (s := s.writeNl (Claims.lineOf s start stop)) hs
    (windowHolds_lineOf hs (Nat.zero_le _) s)
  have hsecond := burst_setArms (off := Config.WIN2_OFFSET)
    (s := (s.writeNl (Claims.lineOf s start stop)).setArms (Claims.lineOf s start stop) 0) hs
    (windowHolds_lineOf hs le_rfl (s.setArms (Claims.lineOf s start stop) 0))
  rw [pclSecondPass, scale_lineOf hread, Res.ok_andThen, ← Nat.cast_zero, hfirst, Res.ok_andThen, hsecond,
    Res.ok_andThen, phaseError_eq_wrapped, (setArms_effect _ _ 0).measured, (writeNl_effect s _).measured,
    State.setArms_setArms]
  rfl

/-- The line PCL ends with (R212). -/
def finalLine (s : State) (start stop : F64) : List F64 :=
  Claims.lineOf s (Claims.pclBegin s start stop) (Claims.pclEnd s start stop)

/-- The state after PCL: NL holds the final line, the target is moved, and the filters hold what the last BURST
left (R212). -/
def State.corrected (s : State) (start stop : F64) : State :=
  ((s.writeNl (finalLine s start stop)).setTgtPhase (Claims.pclTarget s start stop)).setArms
    (Claims.lineOf s (Claims.pclBegin s start stop) stop) Config.WIN2_OFFSET

@[simp] theorem finalLine_length (s : State) (start stop : F64) : (finalLine s start stop).length = s.cfg.scaleTgt :=
  lineOf_length s _ _

theorem State.corrected_readNl {k : Nat} (hk : k < s.cfg.scaleTgt) :
    (s.corrected start stop).readNl (k : Int) = .ok ((finalLine s start stop).getD k Config.ZERO) :=
  State.readNl_writeNl_of_lt (s := s) (by rwa [finalLine_length])

theorem State.writeNl_writeNl {line line' : List F64} (h : line.length = line'.length) :
    (s.writeNl line).writeNl line' = s.writeNl line' :=
  congrArg s.setNl (Cells.write_write none s.nl 0 line line' h)

/-- A whole line written after the first pass replaces the pass's own. -/
theorem State.retargeted_writeNl {line : List F64} (h : line.length = s.cfg.scaleTgt) :
    (s.retargeted start stop).writeNl line =
      ((s.writeNl line).setTgtPhase (Claims.pclTarget s start stop)).setArms (Claims.lineOf s start stop) 0 := by
  show (((s.writeNl _).setArms _ 0).setTgtPhase _).writeNl line = _
  rw [State.setTgtPhase_writeNl, State.setArms_writeNl, State.writeNl_writeNl (by rw [lineOf_length, h]),
    State.setArms_setTgtPhase]

/-- A whole line written after the second pass replaces the pass's own. -/
theorem State.remeasured_writeNl {line : List F64} (h : line.length = s.cfg.scaleTgt) :
    (s.remeasured start stop).writeNl line =
      (s.writeNl line).setArms (Claims.lineOf s start stop) Config.WIN2_OFFSET := by
  show ((s.writeNl _).setArms _ _).writeNl line = _
  rw [State.setArms_writeNl, State.writeNl_writeNl (by rw [lineOf_length, h])]

/-- Of PCL's three lines NL keeps the last, and of its three measurements FI and FQ keep the last. -/
theorem State.writeNl_remeasured_retargeted (s : State) (start stop : F64) :
    ((s.retargeted start stop).remeasured (Claims.pclBegin s start stop) stop).writeNl (finalLine s start stop) =
      s.corrected start stop := by
  rw [State.remeasured_writeNl (s := s.retargeted start stop) (finalLine_length s start stop),
    State.retargeted_writeNl (finalLine_length s start stop), (retargeted_effect s start stop).lineOf,
    State.setArms_setArms]
  rfl

/-- PCL with its three resamplings readable returns the nudged bounds (R212). -/
theorem pcl_of_readable (hs : Claims.DetectorReady s) (hread : Claims.PassesReadable s start stop) :
    pcl start stop s =
      .ok (Claims.pclBegin s start stop, Claims.pclEnd s start stop) (s.corrected start stop) := by
  obtain ⟨hfirst, hsecond, hfinal⟩ := hread
  have heffect := retargeted_effect s start stop
  have hpass : pclSecondPass (Claims.pclBegin s start stop) stop (s.retargeted start stop) =
      .ok (Claims.pclEnd s start stop) ((s.retargeted start stop).remeasured (Claims.pclBegin s start stop) stop) := by
    rw [pclSecondPass_of_readable (s := s.retargeted start stop) hs hsecond, heffect.measured, heffect.lineOf]
    rfl
  have hscale := scale_lineOf (s := (s.retargeted start stop).remeasured (Claims.pclBegin s start stop) stop) hfinal
  have hline := State.writeNl_remeasured_retargeted s start stop
  rw [(remeasured_effect _ _ _).lineOf, heffect.lineOf] at hscale
  rw [pcl, pclFirstPass_of_readable hs hfirst, Res.ok_andThen, hpass, Res.ok_andThen, hscale, Res.ok_andThen]
  exact congrArg (Res.ok _) hline

/-! ### ASMLINE of a written window (R232) -/

theorem State.find_of_readNl {k : Nat} {v : F64} (h : s.readNl (k : Int) = .ok v) : Cells.find s.nl k = some v := by
  cases hfind : Cells.find s.nl k with
  | none => rw [State.readNl_of_unwritten hfind] at h; nomatch h
  | some v' =>
    rw [State.readNl_of_find hfind] at h
    rw [Except.ok.inj h]

theorem asmline_of_no_row (hrow : Claims.rowOf s.line2 = none) : asmline start stop s = .ok () s := by
  rw [asmline, maprow_eq_rowOf, hrow]

/-- ASMLINE writes the row of a line whose active window can be read. -/
theorem asmline_of_row {row : Nat} {value : Nat → F64} (hrow : Claims.rowOf s.line2 = some row)
    (hreads : ∀ x : Nat, 130 ≤ x → x < 1815 → s.readNl x = .ok (value x)) :
    ∃ fb, asmline start stop s = .ok () ((s.setFb fb).setFbDirty true) ∧
      Claims.RowWritten s.fb fb row fun col =>
        Claims.storedValue s.cfg (Claims.levelAdjust s.cfg start stop) (value (130 + col)) := by
  have hfind : ∀ i < Config.FB_COLS, Cells.find s.nl (Config.ACTIVE_START + i) = some (value (130 + i)) :=
    fun i hi => State.find_of_readNl (hreads (130 + i) (Nat.le_add_right _ _) (Nat.add_lt_add_left hi 130))
  obtain ⟨vals, hvals, hlen, hget⟩ := rowFrom_ok (lvladj s.cfg start stop) Config.FB_COLS Config.ACTIVE_START
    fun i hi => ⟨_, hfind i hi⟩
  refine ⟨writeRow s.fb row vals, ?_, fun r col hcol => ?_⟩
  · simp only [asmline, maprow_eq_rowOf, hrow, activeRow, hvals]
  · rw [frameElement_writeRow s.fb row vals hlen r col hcol]
    have hstored := (List.getElem?_eq_some_iff.1 (hget col _ hcol (hfind col hcol))).2
    rw [hstored]
    rfl

/-! ### CLS.ACTIVE (R190) -/

/-- What storing a line does to FB and `fb_dirty` (R232): nothing if it has no row; else its row holds `value`. -/
def LineStored (s : State) (value : Nat → F64) (fb : RealCells) (dirty : Bool) : Prop :=
  (Claims.rowOf s.line2 = none → fb = s.fb ∧ dirty = s.fbDirty) ∧
    ∀ row, Claims.rowOf s.line2 = some row → dirty = true ∧ Claims.RowWritten s.fb fb row value

/-- The value CLS.ACTIVE stores for a column: the final line's, stretched by the corrected bounds (R190, R232). -/
def correctedColumn (s : State) (start stop : F64) (col : Nat) : F64 :=
  Claims.storedValue s.cfg
    (Claims.levelAdjust s.cfg (Claims.pclBegin s start stop) (Claims.pclEnd s start stop))
    ((finalLine s start stop).getD (130 + col) Config.ZERO)

/-- ASMLINE after PCL stores the final line's active window. -/
theorem asmline_corrected (hs : Claims.DetectorReady s) :
    ∃ fb dirty, asmline (Claims.pclBegin s start stop) (Claims.pclEnd s start stop) (s.corrected start stop) =
        .ok () (((s.corrected start stop).setFb fb).setFbDirty dirty) ∧
      LineStored s (correctedColumn s start stop) fb dirty := by
  cases hrow : Claims.rowOf s.line2 with
  | none => exact ⟨s.fb, s.fbDirty, asmline_of_no_row hrow, fun _ => ⟨rfl, rfl⟩, by simp [hrow]⟩
  | some row =>
    obtain ⟨-, -, -, hlen⟩ := hs
    obtain ⟨fb, hasm, hwritten⟩ := asmline_of_row (s := s.corrected start stop) hrow
      fun x _ hx => State.corrected_readNl (s := s) (by omega)
    refine ⟨fb, true, hasm, by simp [hrow], fun row' hrow' => ⟨rfl, ?_⟩⟩
    obtain rfl : row = row' := Option.some.inj (hrow.symm.trans hrow')
    exact hwritten

/-- CLS.ACTIVE on a readable line corrects it, stores its row and moves to the next line. -/
theorem clsActive_of_readable {linelen : F64} (hp : s.prevValid = true) (hs : Claims.DetectorReady s)
    (hstop : stop = F64.add s.prevCrosspoint (F64.mul linelen s.cfg.ext))
    (hread : Claims.PassesReadable s s.prevCrosspoint stop) :
    ∃ fb dirty, clsActive linelen s =
        .ok () ((((s.corrected s.prevCrosspoint stop).setFb fb).setFbDirty dirty).setLine2 (s.line2 + 2)) ∧
      LineStored s (correctedColumn s s.prevCrosspoint stop) fb dirty := by
  obtain ⟨fb, dirty, hasm, hstored⟩ := asmline_corrected (start := s.prevCrosspoint) (stop := stop) hs
  refine ⟨fb, dirty, ?_, hstored⟩
  simp only [clsActive, State.readPrev_of_valid hp, lineEnd, ← hstop, pcl_of_readable hs hread, Res.ok_andThen, hasm]
  rfl

end

/-! ### DISPATCH of an active line (R173) -/

/-- PHRESYNC is the test of R198 on 2·line. -/
theorem phresync_eq_resynced (s : State) : phresync s = s.setTgtPhase (Claims.resynced s.line2 s.tgtPhase) := by
  have hline : lineFloor s.line2 = 272 ↔ s.line2 = 544 ∨ s.line2 = 545 := by
    rw [lineFloor]
    omega
  rw [phresync, Claims.resynced]
  simp only [hline]
  split <;> rfl

theorem classify_active_of_selected {line2 : Int} {linelen : F64} {count : Nat}
    (h : Claims.selectedOutcome line2 linelen count = .clsActive linelen count) :
    classify line2 linelen count = .active := by
  rw [selectedOutcome_eq] at h
  cases hc : classify line2 linelen count with
  | active => rfl
  | _ => rw [hc] at h; nomatch h

/-- Settles O33: the active line is corrected and stored, and PHRESYNC moves the target only. -/
theorem dispatchOfAnActiveLineCompletes : Obligations.DispatchOfAnActiveLineCompletes := by
  intro s xpt linelen stop count ha hp hs hlinelen hselected hstop hread
  obtain ⟨fb, dirty, hactive, hnone, hsome⟩ :=
    clsActive_of_readable (s := s.setRet .none) hp hs hstop hread
  have hexec := exec_dispatch ha hp xpt count
  rw [← hlinelen, classify_active_of_selected hselected, runOutcome, hactive, Res.ok_andThen, Res.ok_outcome,
    phresync_eq_resynced] at hexec
  exact ⟨_, hexec, rfl, rfl, rfl, hnone, hsome⟩

end Sys2Proof.Machine
end

section
/-! PROOFS about the Line Tracker (family 45_line_tracker): each outcome CLS.* is one write of the state or, for
CLS.ACTIVE, the corrected line and its row; DISPATCH is the selected outcome and then PHRESYNC; and the guard that
selects an outcome says from where the outcome moves `line`. -/

namespace Sys2Proof.Machine

/-! ### The outcomes by themselves (R190 to R196, R198) -/

/-- Settles O27: each body is one write of `line`, or none. -/
theorem lineOutcomesWriteLineOnly : Obligations.LineOutcomesWriteLineOnly := fun s ha =>
  ⟨exec_of_returned (u := clsField2 s) ha nofun rfl, exec_of_returned (u := clsVsync s) ha nofun rfl,
    exec_of_returned (u := clsHalf s) ha nofun rfl, exec_of_returned (u := clsSkip s) ha nofun rfl,
    exec_of_returned (u := clsNone s) ha nofun rfl⟩

/-- CLS.NEWFRAME emits FB exactly when it is dirty, and all its other writes do not depend on that (R192). -/
theorem clsNewframe_eq (s : State) :
    clsNewframe s =
      { s with
        line2 := 2, tgtPhase := Config.ZERO, fb := freshFrame, fbDirty := false
        sink := if s.fbDirty = true then s.sink ++ [s.fb] else s.sink } := by
  rw [clsNewframe]
  split <;> rfl

/-- Settles O28: the two cases of `fb_dirty` differ in the sink only. -/
theorem newframeEmitsAndStartsAFreshFrame : Obligations.NewframeEmitsAndStartsAFreshFrame := by
  intro s ha
  have hbody : clsNewframe (s.setRet .none) = (clsNewframe s).setRet .none := by
    rw [clsNewframe_eq, clsNewframe_eq]
    rfl
  have hexec : exec .clsNewframe s = .next ((clsNewframe s).setRet .none) :=
    exec_of_returned ha nofun (congrArg (Res.ok Result.none) hbody)
  rw [clsNewframe_eq] at hexec
  exact ⟨_, hexec, rfl, frameElement_fresh, fun hdirty => if_pos hdirty, fun hclean => if_neg (by simp [hclean])⟩

/-- Settles O29: PHRESYNC is R198's test on 2·line. -/
theorem phresyncUnsetsTheTargetOnLine272 : Obligations.PhresyncUnsetsTheTargetOnLine272 := by
  intro s ha
  rw [exec_phresync ha, phresync_eq_resynced]
  rfl

/-- Settles O26: PCL leaves the final line in NL, ASMLINE stores its row, and `line` moves on. -/
theorem clsActiveDecodesOneLine : Obligations.ClsActiveDecodesOneLine := by
  intro s linelen stop count ha hp hs hstop hread
  obtain ⟨fb, dirty, hactive, hnone, hsome⟩ :=
    clsActive_of_readable (s := s.setRet .none) hp hs hstop hread
  have hexec := exec_operation ha .active linelen count
  rw [runOutcome, hactive, Res.ok_andThen, Res.ok_outcome] at hexec
  exact ⟨_, hexec, rfl, rfl, rfl, fun _ hk => State.corrected_readNl (s := s.setRet .none) hk, hnone, hsome⟩

/-! ### DISPATCH of an interval that decodes no line (R173) -/

theorem Cls.operation_inj {c c' : Cls} {linelen : F64} {count : Nat}
    (h : c.operation linelen count = c'.operation linelen count) : c = c' := by
  cases c <;> cases c' <;> trivial

/-- DISPATCH of a selected outcome that returns completes with PHRESYNC in the state the outcome leaves. -/
theorem exec_dispatch_of_selected {s u : State} {xpt : F64} {count : Nat} (ha : s.Accepts) (hp : s.prevValid = true)
    (c : Cls) (hselected : Claims.selectedOutcome s.line2 (F64.sub xpt s.prevCrosspoint) count =
      c.operation (F64.sub xpt s.prevCrosspoint) count)
    (hrun : runOutcome c (F64.sub xpt s.prevCrosspoint) (s.setRet .none) = .ok () u) :
    exec (.dispatch xpt count) s = .next ((u.setTgtPhase (Claims.resynced u.line2 u.tgtPhase)).setRet .none) := by
  rw [selectedOutcome_eq] at hselected
  rw [exec_dispatch ha hp, Cls.operation_inj hselected, hrun, Res.ok_andThen, phresync_eq_resynced, Res.ok_outcome]

/-- Settles O32: the outcome returns at once, and lines 262.5, 1 and -1 are not line 272. -/
theorem dispatchWithoutDecodeCompletes : Obligations.DispatchWithoutDecodeCompletes := by
  intro s xpt count o ha hp ho
  subst ho
  refine ⟨fun h => ?_, fun h => ?_, fun h => ?_, fun h => ?_, fun h => ?_, fun h => ?_⟩
  · exact exec_dispatch_of_selected ha hp .field2 h rfl
  · exact exec_dispatch_of_selected ha hp .newframe h (congrArg (Res.ok ()) (clsNewframe_eq _))
  · exact exec_dispatch_of_selected ha hp .vsync h rfl
  · exact exec_dispatch_of_selected ha hp .half h rfl
  · exact exec_dispatch_of_selected ha hp .skip h rfl
  · exact exec_dispatch_of_selected (u := s.setRet .none) ha hp .none h rfl

/-! ### The moves of `line` (R199) -/

/-- `line` after an outcome that returns, as 2·line (R190 to R196). -/
def Cls.lineAfter (c : Cls) (line2 : Int) : Int :=
  match c with
  | .active | .skip => line2 + 2
  | .field2 => 525
  | .newframe => 2
  | .vsync => -2
  | .half => line2 + 1
  | .none => line2

theorem pcl_line2 {start stop : F64} {s t : State} {r : F64 × F64}
    (h : pcl start stop s = .ok r t ∨ pcl start stop s = .raised t) : t.line2 = s.line2 := by
  obtain ⟨_, _, _, _, _, rfl⟩ := pcl_effect h
  rfl

theorem asmline_line2 {start stop : F64} {s t : State} {u : Unit} (h : asmline start stop s = .ok u t) :
    t.line2 = s.line2 := by
  rcases asmline_cases start stop s with ⟨-, he⟩ | ⟨_, _, -, -, -, he⟩ | ⟨_, _, -, -, he⟩ <;> rw [he] at h <;>
    cases h <;> rfl

theorem phresync_line2 (s : State) : (phresync s).line2 = s.line2 := by
  rw [phresync_eq_resynced, State.setTgtPhase_line2]

/-- CLS.ACTIVE moves `line` last, so a fault of PCL leaves it (R190, R264). -/
theorem clsActive_line2 (linelen : F64) (s : State) :
    (∀ u t, clsActive linelen s = .ok u t → t.line2 = s.line2 + 2) ∧
      ∀ t, clsActive linelen s = .raised t → t.line2 = s.line2 := by
  rw [clsActive]
  cases s.readPrev with
  | error w => simp
  | ok prev =>
    refine ⟨fun u t h => ?_, fun t h => ?_⟩
    · simp only [Res.andThen_eq_ok, Res.ok.injEq] at h
      obtain ⟨_, s1, hpcl, _, s2, hasm, -, rfl⟩ := h
      rw [State.setLine2_line2, asmline_line2 hasm, pcl_line2 (.inl hpcl)]
    · simp only [Res.andThen_eq_raised, asmline_not_raised, reduceCtorEq, and_false, exists_false, or_false] at h
      exact pcl_line2 (.inr h) (r := default)

/-- An outcome moves `line` as its rule says, or it raises F_BOUNDS and leaves `line`. -/
theorem runOutcome_line2 (c : Cls) (linelen : F64) (s : State) :
    (runOutcome c linelen s).Leaves fun t => t.line2 = c.lineAfter s.line2 ∨ t.line2 = s.line2 := by
  cases c with
  | active =>
    obtain ⟨hok, hraised⟩ := clsActive_line2 linelen s
    exact Res.leaves_iff.2 ⟨fun u t h => .inl (hok u t h), fun t h => .inr (hraised t h)⟩
  | newframe => exact .inl (by rw [clsNewframe_eq]; rfl)
  | field2 | vsync | half | skip | none => exact .inl rfl

/-- An outcome other than CLS.NONE is selected by its guard. -/
theorem guardHolds_of_classify (line2 : Int) (linelen : F64) (count : Nat) :
    (∃ g, Claims.guardHolds line2 linelen count g ∧ classify line2 linelen count = Claims.outcomeOf g) ∨
      classify line2 linelen count = .none := by
  classical
  by_cases h : ∃ g, Claims.guardHolds line2 linelen count g
  · exact .inl ⟨Nat.find h, Nat.find_spec h, classify_of_least (Nat.find_spec h) fun _ => Nat.find_min h⟩
  · exact .inr (classify_of_none (not_exists.1 h))

/-- The transitions of R199 between two values of 2·line. -/
abbrev LineMoves (l l' : Int) : Prop :=
  (l = -4 → l' = -4 ∨ l' = -2) ∧ (l = -2 → l' = -2 ∨ l' = 525 ∨ l' = 2) ∧
    (0 ≤ l → l' = l ∨ l' = l + 1 ∨ l' = l + 2 ∨ (l' = 2 ∧ 1040 < l))

theorem LineMoves.refl (l : Int) : LineMoves l l := ⟨.inl, .inl, fun _ => .inl rfl⟩

/-- Each guard asks of `line` what allows the move its outcome makes (R99, R199). -/
theorem lineMoves_of_printedGuard {line2 : Int} {linelen : F64} {count : Nat} (g : Nat)
    (h : Claims.printedGuard line2 linelen count g) : LineMoves line2 ((Claims.outcomeOf g).lineAfter line2) := by
  have hup {d : Int} (hd : d = 1 ∨ d = 2) (h0 : 0 ≤ line2) : LineMoves line2 (line2 + d) := by omega
  match g, h with
  | 1, ⟨hline, _⟩ => exact hup (.inr rfl) hline
  | 2, ⟨hline, _⟩ => subst hline; decide
  | 3, ⟨hline, _⟩ =>
    show LineMoves line2 2
    omega
  | 4, ⟨hline, _⟩ => subst hline; decide
  | 5, ⟨hline, _⟩ => exact hup (.inl rfl) hline
  | 6, ⟨hline, _⟩ => exact hup (.inr rfl) hline

theorem lineMoves_classify (line2 : Int) (linelen : F64) (count : Nat) :
    LineMoves line2 ((classify line2 linelen count).lineAfter line2) := by
  rcases guardHolds_of_classify line2 linelen count with ⟨g, hg, hc⟩ | hc <;> rw [hc]
  · exact lineMoves_of_printedGuard g ((guardHolds_iff g).1 hg)
  · exact LineMoves.refl line2

theorem dispatch_lineMoves (xpt : F64) (count : Nat) (s : State) :
    (dispatch xpt count s).Leaves fun t => LineMoves s.line2 t.line2 := by
  rw [dispatch]
  cases s.readPrev with
  | error w => trivial
  | ok prev =>
    have hrun : (runOutcome (classify s.line2 (lineLength xpt prev) count) (lineLength xpt prev) s).Leaves
        fun t => LineMoves s.line2 t.line2 :=
      (runOutcome_line2 _ _ s).mono fun t ht => by
        rcases ht with ht | ht <;> rw [ht]
        · exact lineMoves_classify s.line2 _ count
        · exact LineMoves.refl s.line2
    refine hrun.andThen (fun _ ht => ht) fun _ t _ ht => ?_
    show LineMoves s.line2 (phresync t).line2
    rwa [phresync_line2]

/-- Settles O51: the guard that selected the outcome allows its move, and a fault leaves `line`. -/
theorem dispatchMovesLineAsR199Says : Obligations.DispatchMovesLineAsR199Says := by
  intro s t xpt count h
  obtain ⟨hok, hraised⟩ := Res.leaves_iff.1 (dispatch_lineMoves xpt count (s.setRet .none))
  rw [exec_eq_operate (i := .dispatch xpt count) nofun] at h
  obtain ⟨-, ⟨v, u, hbody, rfl⟩ | hbody⟩ := operate_eq_next.1 h
  · obtain ⟨_, u', hdispatch, hu⟩ := Res.andThen_eq_ok.1 hbody
    cases hu
    exact hok () u hdispatch
  · rcases Res.andThen_eq_raised.1 hbody with hdispatch | ⟨_, _, _, hu⟩
    · exact hraised _ hdispatch
    · nomatch hu

end Sys2Proof.Machine
end

section
/-! PROOFS about the phase-correction loop (family 46_phase_correction): WRAP computes a value from its operand alone,
TGTUPD is one write of the target, and PCL is the corrected state of the lines its three resamplings give. -/

namespace Sys2Proof.Machine

/-! ### WRAP (R210) -/

theorem exec_wrap {s : State} (ha : s.Accepts) (d : F64) :
    exec (.wrap d) s = .next (s.setRet (.real (wrap d))) :=
  exec_of_pure ha nofun fun _ => rfl

/-- Settles O22: the model's 2·π is the printed constant. -/
theorem wrapSubtractsWholeTurns : Obligations.WrapSubtractsWholeTurns := by
  intro s d ha
  rw [exec_wrap ha, wrap, twoPi_eq]

/-- The difference of equal finite reals is +0: the aligned significands cancel, and the signs differ (R10). -/
theorem F64.sub_self_of_finite {a : F64} (h : a.finite = true) : F64.sub a a = Config.ZERO := by
  have hvalue : (F64.alignedSum a a.neg : ℝ) * 2 ^ (min a.scale a.neg.scale + 1074) = 0 := by
    rw [← F64.alignedSum_value, F64.neg_toFixed, Int.cast_neg, add_neg_cancel]
  have hsum : F64.alignedSum a a.neg = 0 :=
    Int.cast_eq_zero.1 ((mul_eq_zero.1 hvalue).resolve_right (zpow_ne_zero _ two_ne_zero))
  rw [F64.sub_eq_addFinite h h, F64.addFinite_eq, if_pos hsum, F64.neg_sign, Bool.and_not_self]
  rfl

/-- A significand of 53 bits, given as a count of the least unit, is its own rounding. -/
theorem F64.round_of_significand {negative : Bool} {m k : Nat} (hlo : 2 ^ 52 ≤ m) (hhi : m < 2 ^ 53) (hk : 0 < k)
    (hmax : k * 2 ^ 52 + m < 2047 * 2 ^ 52) :
    F64.round negative (m * 2 ^ k) (-1074) false = F64.ofParts negative (k * 2 ^ 52 + m) := by
  have hpow : 0 < 2 ^ k := Nat.two_pow_pos k
  have hlog : Nat.log2 (m * 2 ^ k) = 52 + k := by
    rw [Nat.log2_eq_iff (Nat.mul_pos (by omega) hpow).ne', pow_add, add_right_comm, pow_add 2 (52 + 1)]
    exact ⟨Nat.mul_le_mul_right _ hlo, Nat.mul_lt_mul_of_pos_right hhi hpow⟩
  have hexponent : roundExponent (m * 2 ^ k) (-1074) = k - 1074 := by rw [roundExponent, hlog]; omega
  have hunit : roundUnit (m * 2 ^ k) (-1074) = k := by rw [roundUnit, hexponent]; omega
  have hkept : roundKept (m * 2 ^ k) (-1074) false = m := by
    rw [roundKept, if_neg (by omega), hexponent, show ((k : Int) - 1074 - -1074).toNat = k by omega]
    simp [dropBits, Nat.shiftRight_eq_div_pow, (Nat.two_pow_pos (k - 1)).ne]
  rw [F64.round_eq, roundMagnitude, hunit, hkept, if_neg (by omega)]

theorem F64.addFinite_of_alignedSum_neg {a b : F64} {m : Nat} (hm : 0 < m) (h : F64.alignedSum a b = -(m : Int)) :
    F64.addFinite a b = F64.round true m (min a.scale b.scale) false := by
  rw [F64.addFinite_eq, h, if_neg (by omega), Int.natAbs_neg, Int.natAbs_natCast, decide_eq_true (by omega)]

/-- 0 - π is -π, whose significand counts 2^1023 of the least unit, the scale of zero (R10): a power that `decide` does
not evaluate. -/
theorem zero_sub_pi : F64.sub Config.ZERO Config.PI = F64.neg Config.PI := by
  have hzero : Config.ZERO.scale = -1074 := by decide
  have hpi : Config.PI.neg.scale = -51 := by decide
  have hsum : F64.alignedSum Config.ZERO Config.PI.neg = -((7074237752028440 * 2 ^ 1023 : ℕ) : Int) := by
    rw [F64.alignedSum, show Config.ZERO.signed = 0 by decide, show Config.PI.neg.signed = -7074237752028440 by decide,
      hzero, hpi, zero_mul, zero_add, Nat.cast_mul, Nat.cast_pow, ← neg_mul]
    rfl
  rw [F64.sub_eq_addFinite (by decide) (by decide), F64.addFinite_of_alignedSum_neg (by positivity) hsum, hzero, hpi,
    min_eq_left (by decide), F64.round_of_significand (by decide) (by decide) (by decide) (by decide)]
  decide

/-- WRAP 0 subtracts no turn: -π/(2π) is -1/2, which rounds up to 0 (R210). -/
theorem wrap_zero : wrap Config.ZERO = Config.ZERO := by
  have hturns : F64.ceil (F64.div (F64.neg Config.PI) Config.TWO_PI) = 0 := by decide
  rw [wrap, zero_sub_pi, hturns]
  decide

/-- Settles O23: the difference is +0, from which WRAP subtracts no turn. -/
theorem wrapOfEqualAnglesIsZero : Obligations.WrapOfEqualAnglesIsZero := by
  intro s a ha hfinite
  rw [exec_wrap ha, F64.sub_self_of_finite hfinite, wrap_zero]

/-! ### TGTUPD (R211) -/

theorem exec_tgtupd {s : State} (ha : s.Accepts) (phase1 : F64) :
    exec (.tgtupd phase1) s = .next ((tgtupd phase1 s).setRet .none) :=
  exec_of_returned ha nofun rfl

/-- Settles O24: the one write is of the target, by the text of R211. -/
theorem tgtupdSelectsOrNegatesTheTarget : Obligations.TgtupdSelectsOrNegatesTheTarget := by
  intro s phase1 ha
  rw [exec_tgtupd ha, tgtupd, nextTarget_eq_targetAfter]
  rfl

/-! ### PCL (R212) -/

theorem lineOf_setRet (s : State) (r : Result) (start stop : F64) :
    Claims.lineOf (s.setRet r) start stop = Claims.lineOf s start stop := rfl

theorem pclTarget_setRet (s : State) (r : Result) (start stop : F64) :
    Claims.pclTarget (s.setRet r) start stop = Claims.pclTarget s start stop := by
  rw [Claims.pclTarget, lineOf_setRet, measured_setRet, State.setRet_tgtPhase, Claims.pclTarget]

theorem pclBegin_setRet (s : State) (r : Result) (start stop : F64) :
    Claims.pclBegin (s.setRet r) start stop = Claims.pclBegin s start stop := by
  rw [Claims.pclBegin, lineOf_setRet, measured_setRet, pclTarget_setRet, Claims.pclBegin]

theorem pclEnd_setRet (s : State) (r : Result) (start stop : F64) :
    Claims.pclEnd (s.setRet r) start stop = Claims.pclEnd s start stop := by
  rw [Claims.pclEnd, pclBegin_setRet, lineOf_setRet, measured_setRet, pclTarget_setRet, Claims.pclEnd]

theorem State.corrected_setRet (s : State) (r : Result) (start stop : F64) :
    (s.setRet r).corrected start stop = (s.corrected start stop).setRet r := by
  rw [State.corrected, finalLine, pclBegin_setRet, pclEnd_setRet, lineOf_setRet, lineOf_setRet, pclTarget_setRet]
  rfl

/-- PCL with its three resamplings readable answers the corrected state with the nudged bounds (R212). -/
theorem exec_pcl_of_readable {s : State} {start stop : F64} (ha : s.Accepts) (hs : Claims.DetectorReady s)
    (hread : Claims.PassesReadable s start stop) :
    exec (.pcl start stop) s =
      .next ((s.corrected start stop).setRet (.pair (Claims.pclBegin s start stop) (Claims.pclEnd s start stop))) := by
  have hpcl := pcl_of_readable (s := s.setRet .none) hs hread
  rw [pclBegin_setRet, pclEnd_setRet, State.corrected_setRet] at hpcl
  exact exec_of_returned ha nofun (by rw [bodyOf, hpcl, Res.ok_andThen])

/-- Settles O25: the corrected state differs from the old one in the target, NL, FI and FQ only. -/
theorem pclCorrectsBothBounds : Obligations.PclCorrectsBothBounds := by
  intro s start stop ha hs hread
  exact ⟨_, exec_pcl_of_readable ha hs hread, rfl, rfl, rfl, fun _ hk => State.corrected_readNl (s := s) hk, rfl, rfl⟩

end Sys2Proof.Machine
end

section
/-! PROOFS about the Frame Assembler (family 47_frame_assembler): MAPROW and LVLADJ compute a value, ASMLINE writes one
row, EMIT appends one frame, whose bytes on the wire are those of its elements in the order of the configuration. -/

namespace Sys2Proof.Machine

/-! ### MAPROW (R230) -/

theorem exec_maprow {s : State} (ha : s.Accepts) (line2 : Int) :
    exec (.maprow line2) s = .next (s.setRet (.row (maprow line2))) :=
  exec_of_pure ha nofun fun _ => rfl

/-- The row of a line number: the even rows from line 10 on, the odd ones from line 273 on (R230). -/
theorem rowOf_eq_some_iff {line2 : Int} {row : Nat} :
    Claims.rowOf line2 = some row ↔
      (10 ≤ line2 / 2 ∧ line2 / 2 < 262 ∧ (row : Int) = (line2 / 2 - 10) * 2) ∨
        (273 ≤ line2 / 2 ∧ line2 / 2 < 525 ∧ (row : Int) = (line2 / 2 - 273) * 2 + 1) := by
  unfold Claims.rowOf
  generalize line2 / 2 = l
  split_ifs with hfirst hsecond
  · simp only [Option.some.injEq]
    omega
  · simp only [Option.some.injEq]
    omega
  · simp only [false_iff]
    omega

theorem half_double (l : Int) : 2 * l / 2 = l := Int.mul_ediv_cancel_left l two_ne_zero

theorem half_double_add_one (l : Int) : (2 * l + 1) / 2 = l := by omega

/-- Settles O34: the two ranges of lines have rows of opposite parity, and in each the row rises with the line. -/
theorem maprowMapsTheActiveLines : Obligations.MaprowMapsTheActiveLines := by
  refine ⟨fun s line2 ha => ?_, fun l => ?_, fun l row hrow => ?_, fun l m row hl hm => ?_⟩
  · rw [exec_maprow ha, maprow_eq_rowOf]
  · rw [Claims.rowOf, half_double_add_one, Claims.rowOf, half_double]
  · exact maprow_lt ((maprow_eq_rowOf _).trans hrow)
  · rw [rowOf_eq_some_iff, half_double] at hl hm
    omega

/-! ### LVLADJ (R231) and ASMLINE (R232) -/

/-- Settles O35: the stretch is the written quotient, and the constant 1 is the real of the number. -/
theorem lvladjComputesTheStretch : Obligations.LvladjComputesTheStretch := by
  intro s start stop ha
  have hexec : exec (.lvladj start stop) s = .next (s.setRet (.real (lvladj s.cfg start stop))) :=
    exec_of_returned ha nofun rfl
  rw [hexec, lvladj, stretch, one_eq_ofNat]

/-- ASMLINE that returns hands over no result (R98). -/
theorem exec_asmline {s u : State} {start stop : F64} (ha : s.Accepts)
    (h : asmline start stop (s.setRet .none) = .ok () (u.setRet .none)) :
    exec (.asmline start stop) s = .next (u.setRet .none) :=
  exec_of_returned ha nofun (by rw [bodyOf, h, Res.ok_andThen])

/-- Settles O36: by whether the line has a row. -/
theorem asmlineWritesItsRow : Obligations.AsmlineWritesItsRow := by
  intro s start stop ha
  refine ⟨fun hrow => ?_, fun row value hrow hreads => ?_⟩
  · exact exec_asmline ha (asmline_of_no_row (s := s.setRet .none) hrow)
  · obtain ⟨fb, hasm, hwritten⟩ :=
      asmline_of_row (s := s.setRet .none) (start := start) (stop := stop) hrow hreads
    exact ⟨_, exec_asmline (u := (s.setFb fb).setFbDirty true) ha hasm, rfl, hwritten⟩

/-! ### EMIT (R234) and the bytes on the wire (R65) -/

theorem leBytes_getElem? {n j : Nat} (v : Nat) (h : j < n) :
    (leBytes n v)[j]? = some (BitVec.ofNat 8 (v >>> (8 * j))) := by
  induction n generalizing v j with
  | zero => exact absurd h (Nat.not_lt_zero j)
  | succ n ih =>
    cases j with
    | zero => rfl
    | succ j =>
      have hshift : (v / 256) >>> (8 * j) = v >>> (8 * (j + 1)) := by
        rw [Nat.mul_succ, Nat.add_comm, Nat.shiftRight_add, Nat.shiftRight_eq_div_pow v 8]
      rw [leBytes, List.getElem?_cons_succ, ih _ (Nat.lt_of_succ_lt_succ h), hshift]

/-- Byte `j` of a real on the wire: its bits from 8·j up, or from the top down (R65). -/
theorem sinkBytes_getElem? (order : ByteOrder) (a : F64) {j : Nat} (h : j < 8) :
    (sinkBytes order a)[j]? = some (a.bits.extractLsb' (8 * if order = .little then j else 7 - j) 8) := by
  cases order with
  | little => exact leBytes_getElem? a.bits.toNat h
  | big =>
    have hlen : j < (leBytes 8 a.bits.toNat).length := by rwa [leBytes_length]
    rw [sinkBytes, List.getElem?_reverse hlen, leBytes_length]
    exact leBytes_getElem? a.bits.toNat (by omega)

/-- Byte `j` of element (row, col) is at offset 8·(row·1685 + col) + j of the frame. -/
theorem frameByte_element (order : ByteOrder) (m : RealCells) (row col : Nat) {j : Nat} (h : j < 8) :
    frameByte order m (8 * (row * 1685 + col) + j) =
      (frameElement m row col).bits.extractLsb' (8 * if order = .little then j else 7 - j) 8 := by
  have hdiv : (8 * (row * 1685 + col) + j) / 8 = frameAddress row col := by
    simp only [frameAddress, Config.FB_COLS]
    omega
  have hmod : (8 * (row * 1685 + col) + j) % 8 = j := by omega
  rw [frameByte, hdiv, hmod, sinkBytes_getElem? order _ h, Option.getD_some, frameElement]

theorem frameBytes_eq : frameBytes = 6807400 := rfl

/-- The bytes of the frames already in the sink stay where they are. -/
theorem wireByte_of_extends {s t : State} (hcfg : t.cfg = s.cfg) {frames : List RealCells}
    (hsink : t.sink = s.sink ++ frames) {n : Nat} (hn : n < s.sink.length * frameBytes) :
    t.wireByte n = s.wireByte n := by
  have hframe : n / frameBytes < s.sink.length := Nat.div_lt_of_lt_mul (by rwa [Nat.mul_comm])
  rw [State.wireByte, State.wireByte, hsink, List.getElem?_append_left hframe, hcfg]

theorem exec_emit {s : State} (ha : s.Accepts) : exec .emit s = .next ((emit s).setRet .none) :=
  exec_of_returned ha nofun rfl

/-- What EMIT leaves, whenever it completes. -/
theorem exec_emit_eq_next {s t : State} (h : exec .emit s = .next t) : t = (emit s).setRet .none := by
  rw [exec_eq_operate (i := .emit) nofun] at h
  obtain ⟨ha, -⟩ := operate_eq_next.1 h
  exact Host.Outcome.next.inj (h.symm.trans (exec_emit ha))

/-- Settles O37: the frames before it, the frame appended, and nothing after it. -/
theorem emitAppendsTheFrame : Obligations.EmitAppendsTheFrame := by
  refine ⟨fun s ha => exec_emit ha, fun m row col j hj => ⟨frameByte_element .little m row col hj,
    frameByte_element .big m row col hj⟩, fun s t h => ?_⟩
  have ht := exec_emit_eq_next h
  have hsink : t.sink = s.sink ++ [s.fb] := by rw [ht]; rfl
  have hcfg : t.cfg = s.cfg := by rw [ht]; rfl
  rw [← frameBytes_eq]
  refine ⟨fun n hn => wireByte_of_extends hcfg hsink hn, fun row col j hrow hcol hj => ?_, fun n hn => ?_⟩
  · have hframe : t.sink[s.sink.length]? = some s.fb := by rw [hsink, List.getElem?_concat_length]
    rw [State.wireByte_frame hframe (by rw [frameBytes_eq]; omega), frameByte_element _ _ _ _ hj, hcfg]
  · refine State.wireByte_eq_none ?_
    rw [hsink, List.length_append, List.length_singleton]
    exact (Nat.le_div_iff_mul_le (by decide)).2 hn

end Sys2Proof.Machine
end

section
/-! PROOFS about the host operations (family 48_host_operations).  PROCESS is the move of the window and STEPs up to the
LOOKAHEAD.  No rule but the bounds check reads the window, so what a STEP does is the same for every call in which it
takes no fault: that is said once, of every body a STEP runs, and a run of STEPs can then be cut into calls anywhere. -/

namespace Sys2Proof.Machine

/-! ### What a PROCESS call names -/

/-- The block of `s` in the PROCESS call of `c`: the window, and the values returned before it, are those of `c` (R34,
R251). -/
def State.withCall (s c : State) : State :=
  { s with winLo := c.winLo, winHi := c.winHi, lastConsumed := c.lastConsumed, ret := c.ret }

section
variable (s c : State)

@[simp] theorem State.withCall_cfg : (s.withCall c).cfg = s.cfg := rfl
@[simp] theorem State.withCall_winHi : (s.withCall c).winHi = c.winHi := rfl
@[simp] theorem State.withCall_scanPos : (s.withCall c).scanPos = s.scanPos := rfl
@[simp] theorem State.withCall_readNl (k : Int) : (s.withCall c).readNl k = s.readNl k := rfl
@[simp] theorem State.withCall_readHet (k : Int) : (s.withCall c).readHet k = s.readHet k := rfl
@[simp] theorem State.withCall_readPrev : (s.withCall c).readPrev = s.readPrev := rfl
@[simp] theorem State.withCall_readXpt : (s.withCall c).readXpt = s.readXpt := rfl

theorem State.withCall_setFilter (f : FilterId) (st : FilterState) :
    (s.withCall c).setFilter f st = (s.setFilter f st).withCall c := by cases f <;> rfl

theorem State.withCall_filter (f : FilterId) : (s.withCall c).filter f = s.filter f := by cases f <;> rfl

end

/-! ### A body does the same in every call in which it returns -/

/-- When both bodies return, they return the same value, and the second the first one's state in the call of `c`. -/
def Res.Agrees {α : Type} (c : State) (r r' : Res α) : Prop :=
  ∀ v t v' t', r = .ok v t → r' = .ok v' t' → v' = v ∧ t' = t.withCall c

section
variable {α β : Type} {c : State}

theorem Res.agrees_ok (v : α) (t : State) : (Res.ok v t).Agrees c (.ok v (t.withCall c)) := by
  intro _ _ _ _ h h'
  cases h
  cases h'
  exact ⟨rfl, rfl⟩

theorem Res.agrees_stopped (w : Stop) (r' : Res α) : (Res.stopped w).Agrees c r' := by
  intro _ _ _ _ h
  nomatch h

theorem Res.Agrees.andThen {r r' : Res α} {k k' : α → State → Res β} (h : r.Agrees c r')
    (hk : ∀ v t, (k v t).Agrees c (k' v (t.withCall c))) : (r.andThen k).Agrees c (r'.andThen k') := by
  intro v t v' t' hr hr'
  obtain ⟨x, u, hx, hv⟩ := Res.andThen_eq_ok.1 hr
  obtain ⟨x', u', hx', hv'⟩ := Res.andThen_eq_ok.1 hr'
  obtain ⟨rfl, rfl⟩ := h x u x' u' hx hx'
  exact hk _ u v t v' t' hv hv'

end

section
variable (s c : State)

theorem ffeed_agrees (f : FilterId) (v : F64) : (ffeed f v s).Agrees c (ffeed f v (s.withCall c)) := by
  rw [ffeed, ffeed, State.withCall_filter, State.withCall_setFilter]
  split
  · exact Res.agrees_ok _ _
  · exact Res.agrees_stopped _ _

theorem scale_eq_ok {start stop : F64} {n : Nat} {s t : State} {u : Unit} (h : scale start stop n s = .ok u t) :
    t = s.writeNl (resampledLine s start stop n) := by
  rcases scale_cases s start stop n with ⟨-, -, he⟩ | ⟨_, _, _, _, _, _, _, he⟩ | ⟨-, he⟩ <;> rw [he] at h
  · cases h
    rfl
  · nomatch h
  · nomatch h

/-- The samples are the stream's, whatever the window. -/
theorem scale_agrees (start stop : F64) (n : Nat) :
    (scale start stop n s).Agrees c (scale start stop n (s.withCall c)) := by
  intro _ t _ t' h h'
  rw [scale_eq_ok h, scale_eq_ok h']
  exact ⟨rfl, rfl⟩

theorem burstFrom_withCall (off : Int) (k i : Nat) (acc : BurstAcc) :
    burstFrom (s.withCall c) off k i acc = burstFrom s off k i acc := by
  induction k generalizing i acc with
  | zero => rfl
  | succ k ih => simp only [burstFrom, State.withCall_readNl, State.withCall_readHet, State.withCall_cfg, ih]

theorem burst_agrees (off : Int) : (burst off s).Agrees c (burst off (s.withCall c)) := by
  have hrun : burstRun (s.withCall c) off = burstRun s off := burstFrom_withCall s c off _ _ _
  rw [burst, burst, hrun]
  cases burstRun s off with
  | error w => exact Res.agrees_stopped _ _
  | ok acc => exact Res.agrees_ok _ _

theorem pclFirstPass_agrees (start stop : F64) :
    (pclFirstPass start stop s).Agrees c (pclFirstPass start stop (s.withCall c)) :=
  (scale_agrees s c start stop _).andThen fun _ t => (burst_agrees t c 0).andThen fun m u =>
    Res.agrees_ok (nudge start (phaseError m.2 (tgtupd m.2 u).tgtPhase)) (tgtupd m.2 u)

theorem pclSecondPass_agrees (start stop : F64) :
    (pclSecondPass start stop s).Agrees c (pclSecondPass start stop (s.withCall c)) :=
  (scale_agrees s c start stop _).andThen fun _ t => (burst_agrees t c 0).andThen fun _ u =>
    (burst_agrees u c _).andThen fun m v => Res.agrees_ok (nudge stop (phaseError m.2 v.tgtPhase)) v

theorem pcl_agrees (start stop : F64) : (pcl start stop s).Agrees c (pcl start stop (s.withCall c)) :=
  (pclFirstPass_agrees s c start stop).andThen fun start' t => (pclSecondPass_agrees t c start' stop).andThen
    fun stop' u => (scale_agrees u c start' stop' _).andThen fun _ v => Res.agrees_ok (start', stop') v

theorem rowFrom_withCall (lvl : F64) (k x : Nat) : rowFrom (s.withCall c) lvl k x = rowFrom s lvl k x := by
  induction k generalizing x with
  | zero => rfl
  | succ k ih => simp only [rowFrom, State.withCall_readNl, State.withCall_cfg, ih]

theorem asmline_agrees (start stop : F64) : (asmline start stop s).Agrees c (asmline start stop (s.withCall c)) := by
  have hrow : activeRow (s.withCall c) (lvladj s.cfg start stop) = activeRow s (lvladj s.cfg start stop) :=
    rowFrom_withCall s c _ _ _
  have hline : (s.withCall c).line2 = s.line2 := rfl
  rw [asmline, asmline, State.withCall_cfg, hrow, hline]
  cases maprow s.line2 with
  | none => exact Res.agrees_ok () s
  | some row =>
    cases activeRow s (lvladj s.cfg start stop) with
    | error w => exact Res.agrees_stopped _ _
    | ok vals => exact Res.agrees_ok () ((s.setFb (writeRow s.fb row vals)).setFbDirty true)

theorem clsActive_agrees (linelen : F64) : (clsActive linelen s).Agrees c (clsActive linelen (s.withCall c)) := by
  rw [clsActive, clsActive, State.withCall_readPrev]
  cases s.readPrev with
  | error w => exact Res.agrees_stopped _ _
  | ok prev =>
    exact (pcl_agrees s c _ _).andThen fun bounds t => (asmline_agrees t c bounds.1 bounds.2).andThen
      fun _ u => Res.agrees_ok () (u.setLine2 (u.line2 + 2))

theorem runOutcome_agrees (o : Cls) (linelen : F64) :
    (runOutcome o linelen s).Agrees c (runOutcome o linelen (s.withCall c)) := by
  cases o with
  | active => exact clsActive_agrees s c linelen
  | newframe =>
    have hnew : clsNewframe (s.withCall c) = (clsNewframe s).withCall c := by
      rw [clsNewframe_eq, clsNewframe_eq]
      rfl
    rw [runOutcome, runOutcome, hnew]
    exact Res.agrees_ok () (clsNewframe s)
  | field2 => exact Res.agrees_ok () (clsField2 s)
  | vsync => exact Res.agrees_ok () (clsVsync s)
  | half => exact Res.agrees_ok () (clsHalf s)
  | skip => exact Res.agrees_ok () (clsSkip s)
  | none => exact Res.agrees_ok () s

theorem dispatch_agrees (xpt : F64) (count : Nat) :
    (dispatch xpt count s).Agrees c (dispatch xpt count (s.withCall c)) := by
  have hresync (u : State) : phresync (u.withCall c) = (phresync u).withCall c := by
    rw [phresync_eq_resynced, phresync_eq_resynced]
    rfl
  rw [dispatch, dispatch, State.withCall_readPrev]
  cases s.readPrev with
  | error w => exact Res.agrees_stopped _ _
  | ok prev =>
    refine (runOutcome_agrees s c _ _).andThen fun _ u => ?_
    rw [hresync]
    exact Res.agrees_ok () (phresync u)

theorem acceptCrossing_agrees (xpt : F64) :
    (acceptCrossing xpt s).Agrees c (acceptCrossing xpt (s.withCall c)) := by
  refine Res.Agrees.andThen ?_ fun _ u => Res.agrees_ok () (u.acceptCrossing xpt)
  show Res.Agrees c (if s.prevValid then dispatch xpt s.count s else .ok () s)
    (if s.prevValid then dispatch xpt s.count (s.withCall c) else .ok () (s.withCall c))
  split
  · exact dispatch_agrees s c xpt s.count
  · exact Res.agrees_ok () s

theorem completeRun_agrees : (completeRun s).Agrees c (completeRun (s.withCall c)) := by
  have hcount : (s.withCall c).count = s.count := rfl
  rw [completeRun, completeRun, hcount, State.withCall_readXpt]
  split
  · cases s.readXpt with
    | error w => exact Res.agrees_stopped _ _
    | ok xpt => exact acceptCrossing_agrees s c xpt
  · exact Res.agrees_ok () s

theorem trackCrossing_agrees (n : Nat) (f : F64) :
    (trackCrossing n f s).Agrees c (trackCrossing n f (s.withCall c)) := by
  have hbelow : (s.withCall c).below = s.below := rfl
  rw [trackCrossing, trackCrossing, State.withCall_cfg, hbelow]
  split
  · split
    · exact Res.agrees_ok () s.extendRun
    · exact Res.agrees_ok () (s.openRun (crosspoint n s.fPrev f s.cfg.syncThreshold))
  · split
    · exact completeRun_agrees s.closeRun c
    · exact Res.agrees_ok () s

/-- A STEP that returns found its sample in the window. -/
theorem inWindow_of_stepOp_ok {s t : State} {v : Unit} (h : stepOp s = .ok v t) : s.inWindow s.scanPos = true := by
  by_contra hout
  rw [stepOp_of_outside (Bool.eq_false_iff.2 hout)] at h
  nomatch h

/-- STEP reads the window for its bounds check only (R251 b). -/
theorem stepOp_agrees : (stepOp s).Agrees c (stepOp (s.withCall c)) := by
  intro v t v' t' h h'
  have hbody : ((ffeed .sf (F64.ofCode (s.streamCode s.scanPos)) s).andThen fun f u =>
      (trackCrossing s.scanPos f u).andThen fun _ u => .ok () (u.advanceScan f s.scanPos)).Agrees c
      ((ffeed .sf (F64.ofCode (s.streamCode s.scanPos)) (s.withCall c)).andThen fun f u =>
      (trackCrossing s.scanPos f u).andThen fun _ u => .ok () (u.advanceScan f s.scanPos)) :=
    (ffeed_agrees s c .sf _).andThen fun f u => (trackCrossing_agrees u c _ f).andThen fun _ u' =>
      Res.agrees_ok () (u'.advanceScan f s.scanPos)
  refine hbody v t v' t' ?_ ?_
  · rw [← stepOp_of_inWindow (inWindow_of_stepOp_ok h), h]
  · exact (stepOp_of_inWindow (inWindow_of_stepOp_ok h')).symm.trans h'

end

/-! ### STEP -/

theorem StepEffect.lastConsumed {s t : State} (h : StepEffect s t) : t.lastConsumed = s.lastConsumed := by
  obtain ⟨_, _, _, _, _, _, _, _, _, _, _, _, _, _, _, _, _, _, rfl⟩ := h
  rfl

theorem StepEffect.ret {s t : State} (h : StepEffect s t) : t.ret = s.ret := by
  obtain ⟨_, _, _, _, _, _, _, _, _, _, _, _, _, _, _, _, _, _, rfl⟩ := h
  rfl

theorem StepEffect.cfg {s t : State} (h : StepEffect s t) : t.cfg = s.cfg := by
  obtain ⟨_, _, _, _, _, _, _, _, _, _, _, _, _, _, _, _, _, _, rfl⟩ := h
  rfl

theorem StepEffect.constructed {s t : State} (h : StepEffect s t) : t.constructed = s.constructed := by
  obtain ⟨_, _, _, _, _, _, _, _, _, _, _, _, _, _, _, _, _, _, rfl⟩ := h
  rfl

/-- A STEP that took no fault is its body's return. -/
theorem execStep_eq_next {s t : State} (h : exec .step s = .next t) (hfault : t.fault = none) :
    ∃ u, stepOp (s.setRet .none) = .ok () u ∧ t = u.setRet .none := by
  rw [exec_eq_operate (i := .step) nofun] at h
  obtain ⟨-, ⟨v, u, hbody, rfl⟩ | hbody⟩ := operate_eq_next.1 h
  · obtain ⟨_, u', hstep, hu⟩ := Res.andThen_eq_ok.1 hbody
    cases hu
    exact ⟨u, hstep, rfl⟩
  · rcases Res.andThen_eq_raised.1 hbody with hstep | ⟨_, _, _, hu⟩
    · obtain ⟨-, n, hn, -⟩ := stepOp_effect.2 hstep
      nomatch hn.symm.trans hfault
    · nomatch hu

/-- Settles O45: the other window is another call of the same block, and STEP leaves the values a call returned. -/
theorem stepDoesNotDependOnTheWindow : Obligations.StepDoesNotDependOnTheWindow := by
  intro s t u lo hi ht hft hu hfu
  obtain ⟨t', ht', rfl⟩ := execStep_eq_next ht hft
  obtain ⟨u', hu', rfl⟩ := execStep_eq_next hu hfu
  obtain ⟨-, rfl⟩ := stepOp_agrees (s.setRet .none) ((s.setRet .none).setWindow lo hi) _ _ _ _ ht' hu'
  obtain ⟨heffect, -⟩ := stepOp_effect.1 _ ht'
  have hlast : t'.lastConsumed = s.lastConsumed := heffect.lastConsumed
  have hwindow : t'.withCall ((s.setRet .none).setWindow lo hi) =
      { t' with winLo := lo, winHi := hi, lastConsumed := s.lastConsumed, ret := .none } := rfl
  rw [hwindow, ← hlast]
  rfl

/-! ### Runs of STEPs up to the LOOKAHEAD -/

/-- PROCESS goes on: the next sample lies more than LOOKAHEAD before the window's end (R251). -/
def State.Scans (s : State) : Prop := s.scanPos + s.cfg.lookahead < s.winHi

theorem processLoop_of_scans {s : State} (h : s.Scans) (k : Nat) :
    processLoop (k + 1) s = (stepOp s).andThen fun _ t => processLoop k t := if_pos h

theorem processLoop_of_not_scans {s : State} (h : ¬ s.Scans) (k : Nat) : processLoop k s = .ok () s := by
  cases k with
  | zero => rfl
  | succ k => exact if_neg h

/-- With turns enough to reach the end of the window, a turn is left while PROCESS goes on. -/
theorem State.Scans.turn_left {s : State} (h : s.Scans) {k : Nat} (hk : s.winHi ≤ s.scanPos + k) :
    ∃ j, k = j + 1 :=
  Nat.exists_eq_add_one.2 (by unfold State.Scans at h; omega)

/-- A STEP uses up one turn. -/
theorem stepOp_uses_turn {s t : State} {v : Unit} {k : Nat} (h : stepOp s = .ok v t)
    (hk : s.winHi ≤ s.scanPos + (k + 1)) : t.winHi ≤ t.scanPos + k := by
  obtain ⟨heffect, -, hpos⟩ := stepOp_effect.1 _ h
  rw [heffect.window.2, hpos]
  omega

/-- PROCESS goes on from `s`, and its next STEP takes no fault and leaves `t`. -/
def ScanStep (s t : State) : Prop := s.Scans ∧ stepOp s = .ok () t

/-- STEP after STEP, each with no fault, until PROCESS does not go on. -/
def ScanRun (s t : State) : Prop := Relation.ReflTransGen ScanStep s t ∧ ¬ t.Scans

/-- PROCESS's loop with turns enough is such a run when it returns. -/
theorem scanRun_of_processLoop {k : Nat} {s t : State} {v : Unit} (hk : s.winHi ≤ s.scanPos + k)
    (h : processLoop k s = .ok v t) : ScanRun s t := by
  induction k generalizing s with
  | zero =>
    cases h
    exact ⟨.refl, by unfold State.Scans; omega⟩
  | succ k ih =>
    by_cases hs : s.Scans
    · rw [processLoop_of_scans hs] at h
      obtain ⟨_, u, hstep, hrest⟩ := Res.andThen_eq_ok.1 h
      obtain ⟨hrun, hstop⟩ := ih (stepOp_uses_turn hstep hk) hrest
      exact ⟨.head ⟨hs, hstep⟩ hrun, hstop⟩
    · rw [processLoop_of_not_scans hs] at h
      cases h
      exact ⟨.refl, hs⟩

section
variable {s t : State}

theorem ScanRun.eq_of_not_scans (h : ScanRun s t) (hs : ¬ s.Scans) : t = s := by
  rcases h.1.cases_head with rfl | ⟨u, ⟨hscans, -⟩, -⟩
  · rfl
  · exact absurd hscans hs

theorem ScanRun.first (h : ScanRun s t) (hs : s.Scans) : ∃ u, stepOp s = .ok () u ∧ ScanRun u t := by
  obtain ⟨hrun, hstop⟩ := h
  rcases hrun.cases_head with rfl | ⟨u, ⟨-, hstep⟩, hrest⟩
  · exact absurd hs hstop
  · exact ⟨u, hstep, hrest, hstop⟩

theorem ScanStep.effect (h : ScanStep s t) : StepEffect s t := (stepOp_effect.1 _ h.2).1

theorem ScanRun.effect (h : ScanRun s t) : StepEffect s t := by
  obtain ⟨hrun, -⟩ := h
  induction hrun with
  | refl => exact StepEffect.refl s
  | tail _ hstep ih => exact ih.trans hstep.effect

/-- A run that starts inside the window, or at its end, ends there. -/
theorem ScanRun.scanPos_le (h : ScanRun s t) (hs : s.scanPos ≤ s.winHi) : t.scanPos ≤ t.winHi := by
  rcases h.1.cases_tail with rfl | ⟨u, -, hscans, hstep⟩
  · exact hs
  · obtain ⟨heffect, -, hpos⟩ := stepOp_effect.1 _ hstep
    rw [heffect.window.2, hpos]
    unfold State.Scans at hscans
    omega

/-- A run depends on where its window ends, and not on the rest of the call. -/
theorem ScanRun.agrees {c t' : State} (h : ScanRun s t) (h' : ScanRun (s.withCall c) t')
    (hc : c.winHi = s.winHi) : t' = t.withCall c := by
  obtain ⟨hrun, hstop⟩ := h
  induction hrun using Relation.ReflTransGen.head_induction_on with
  | refl => exact h'.eq_of_not_scans (by simpa [State.Scans, hc] using hstop)
  | head hstep _ ih =>
    obtain ⟨_, hstep', hrest'⟩ := h'.first (by simpa [State.Scans, hc] using hstep.1)
    obtain ⟨-, rfl⟩ := stepOp_agrees _ c _ _ _ _ hstep.2 hstep'
    exact ih hrest' (hc.trans hstep.effect.window.2.symm)

/-- A run to the end of a longer window is the run to the end of the shorter one and then on from there. -/
theorem ScanRun.chunks {c d u v : State} (hfirst : ScanRun s t) (hsecond : ScanRun (t.withCall c) u)
    (hwhole : ScanRun (s.withCall d) v) (hlonger : s.winHi ≤ d.winHi) (hend : d.winHi = c.winHi) :
    v = u.withCall d := by
  obtain ⟨hrun, -⟩ := hfirst
  induction hrun using Relation.ReflTransGen.head_induction_on with
  | refl => exact hsecond.agrees hwhole hend
  | head hstep _ ih =>
    obtain ⟨_, hstep', hrest'⟩ := hwhole.first (lt_of_lt_of_le hstep.1 hlonger)
    obtain ⟨-, rfl⟩ := stepOp_agrees _ d _ _ _ _ hstep.2 hstep'
    exact ih hrest' (hstep.effect.window.2.le.trans hlonger)

end

/-! ### PROCESS (R251) -/

theorem consumedCount_eq_consumedOf (s : State) : consumedCount s = Claims.consumedOf s := rfl

/-- The state in which PROCESS begins to scan. -/
def State.opened (s : State) (lo len : Nat) : State := (s.setRet .none).setWindow lo (lo + len)

/-- The state PROCESS returns in, from the one its scan ends in. -/
def State.closed (u : State) : State := (u.setConsumed (consumedCount u)).setRet (.consumed (consumedCount u))

theorem protocolBreach_setRet (lo len : Nat) (s : State) (r : Result) :
    protocolBreach lo len (s.setRet r) = protocolBreach lo len s := rfl

/-- A PROCESS that breaks no obligation is its loop from the moved window. -/
theorem exec_process {s : State} {lo len : Nat} (ha : s.Accepts) (hbreach : protocolBreach lo len s = none) :
    exec (.process lo len) s =
      ((processLoop ((s.opened lo len).winHi - (s.opened lo len).scanPos) (s.opened lo len)).andThen fun _ u =>
        .ok (.consumed (consumedCount u)) (u.setConsumed (consumedCount u))).outcome := by
  rw [exec_eq_operate (i := .process lo len) nofun, operate_ready ha.1 ha.2, bodyOf, process,
    protocolBreach_setRet, hbreach, Res.andThen_assoc]
  rfl

/-- A call that breaks an obligation is refused by its name. -/
theorem exec_process_of_breach {s : State} {lo len : Nat} {v : HostViolation} (ha : s.Accepts)
    (hbreach : protocolBreach lo len s = some v) : exec (.process lo len) s = .refused (.hostProtocol v) := by
  have hstop : process lo len (s.setRet .none) = .stopped (.refusal (.hostProtocol v)) := by
    rw [process, protocolBreach_setRet, hbreach]
  exact exec_of_stopped ha hstop nofun rfl

theorem lawful_of_protocolBreach {s : State} {lo len : Nat} (h : protocolBreach lo len s = none) :
    Claims.LawfulCall s lo len := by
  unfold protocolBreach at h
  unfold Claims.LawfulCall
  cases hlast : s.lastConsumed with
  | none =>
    simp only [hlast] at h ⊢
    split_ifs at h
    omega
  | some consumed =>
    simp only [hlast] at h ⊢
    split_ifs at h
    omega

/-- Settles O41: a call that breaks none of the tested obligations is lawful. -/
theorem processRefusesABrokenProtocol : Obligations.ProcessRefusesABrokenProtocol := by
  intro s lo len ha hunlawful
  cases hbreach : protocolBreach lo len s with
  | none => exact absurd (lawful_of_protocolBreach hbreach) hunlawful
  | some v => exact ⟨v, exec_process_of_breach ha hbreach⟩

/-- A PROCESS that took no fault was lawful, and it returns from a run of STEPs. -/
theorem execProcess_eq_next {s t : State} {lo len : Nat} (h : exec (.process lo len) s = .next t)
    (hfault : t.fault = none) :
    Claims.LawfulCall s lo len ∧ ∃ u, ScanRun (s.opened lo len) u ∧ t = u.closed := by
  have ha : s.Accepts := by
    rw [exec_eq_operate (i := .process lo len) nofun] at h
    exact (operate_eq_next.1 h).1
  cases hbreach : protocolBreach lo len s with
  | some v =>
    rw [exec_process_of_breach ha hbreach] at h
    nomatch h
  | none =>
    rw [exec_process ha hbreach] at h
    rcases Res.outcome_eq_next.1 h with ⟨v, u, hbody, rfl⟩ | hbody
    · obtain ⟨_, u', hloop, hu⟩ := Res.andThen_eq_ok.1 hbody
      cases hu
      exact ⟨lawful_of_protocolBreach hbreach, u', scanRun_of_processLoop (by omega) hloop, rfl⟩
    · rcases Res.andThen_eq_raised.1 hbody with hloop | ⟨_, _, _, hu⟩
      · obtain ⟨-, n, hn, -⟩ := processLoop_effect.2 hloop
        nomatch hn.symm.trans hfault
      · nomatch hu

/-- Settles O44: the scan ends inside the window, and what is kept begins there or before. -/
theorem consumedIsAtMostLen : Obligations.ConsumedIsAtMostLen := by
  intro s t lo len h hfault hpos
  obtain ⟨-, u, hrun, rfl⟩ := execProcess_eq_next h hfault
  refine ⟨consumedCount u, rfl, rfl, ?_⟩
  have hend : u.scanPos ≤ u.winHi := hrun.scanPos_le hpos
  have hlo : u.winLo = lo := hrun.effect.window.1
  have hhi : u.winHi = lo + len := hrun.effect.window.2
  have hretain : retainFrom u ≤ max (u.scanPos : Int) u.winLo := by
    unfold retainFrom
    split
    · exact max_le_max (min_le_left _ _) le_rfl
    · exact le_rfl
  unfold consumedCount
  omega

/-- Settles O46: the two calls make one run of STEPs, cut where the first window ends. -/
theorem processIsChunkInvariant : Obligations.ProcessIsChunkInvariant := by
  intro s t u v lo len lo' len' len'' ht hft hu hfu hend hv hfv
  obtain ⟨-, t', hfirst, rfl⟩ := execProcess_eq_next ht hft
  obtain ⟨⟨-, -, -, hkept⟩, u', hsecond, rfl⟩ := execProcess_eq_next hu hfu
  obtain ⟨-, v', hwhole, rfl⟩ := execProcess_eq_next hv hfv
  have hhi : t'.winHi = lo + len := hfirst.effect.window.2
  have hlonger : lo + len ≤ lo + len'' := by
    have hkept' : t'.winHi ≤ lo' + len' := hkept
    omega
  obtain rfl := hfirst.chunks (c := t'.closed.opened lo' len') (d := s.opened lo len'') hsecond hwhole hlonger hend
  rfl

/-! ### PROCESS as the host sees it, STEP after STEP -/

/-- The state accepts operations, and no result stands in it. -/
def State.Running (s : State) : Prop := s.Accepts ∧ s.ret = .none

section
variable {s : State} (hs : s.Running)
include hs

theorem State.Running.setRet : s.setRet .none = s := by
  rw [State.setRet, ← hs.2]

theorem exec_step_of_running :
    exec .step s = ((stepOp s).andThen fun _ u => .ok .none u).outcome := by
  rw [exec_step hs.1, hs.setRet]

theorem stepOp_running {t : State} {v : Unit} (h : stepOp s = .ok v t) : t.Running := by
  obtain ⟨heffect, hfault, -⟩ := stepOp_effect.1 _ h
  exact ⟨⟨heffect.constructed.trans hs.1.1, hfault.trans hs.1.2⟩, heffect.ret.trans hs.2⟩

theorem exec_step_of_ok {t : State} {v : Unit} (h : stepOp s = .ok v t) : exec .step s = .next t := by
  rw [exec_step_of_running hs, h, Res.ok_andThen, Res.ok_outcome, (stepOp_running hs h).setRet]

end

theorem scanned_of_stop {s : State} (h : ¬ (s.fault = none ∧ s.Scans)) (k : Nat) : Claims.scanned k s = some s := by
  cases k with
  | zero => rfl
  | succ k => exact if_neg h

theorem scanned_of_next {s t : State} (hfault : s.fault = none) (hs : s.Scans) (h : exec .step s = .next t) (k : Nat) :
    Claims.scanned (k + 1) s = Claims.scanned k t := by
  rw [Claims.scanned, if_pos ⟨hfault, hs⟩, h]

theorem scanned_of_no_next {s : State} (hfault : s.fault = none) (hs : s.Scans) (h : ∀ t, exec .step s ≠ .next t)
    (k : Nat) : Claims.scanned (k + 1) s = none := by
  rw [Claims.scanned, if_pos ⟨hfault, hs⟩]
  split
  · exact absurd ‹_› (h _)
  · rfl

/-- The loop of PROCESS ends as the STEPs executed one by one do: it returns, or a STEP of it took the fault. -/
theorem processLoop_of_scanned {k j : Nat} {s u : State} (hs : s.Running) (hk : s.winHi ≤ s.scanPos + k)
    (hj : s.winHi ≤ s.scanPos + j) (h : Claims.scanned k s = some u) :
    processLoop j s = if u.fault = none then .ok () u else .raised u := by
  induction k generalizing j s with
  | zero =>
    cases h
    rw [if_pos hs.1.2]
    exact processLoop_of_not_scans (by unfold State.Scans; omega) j
  | succ k ih =>
    by_cases hscans : s.Scans
    · obtain ⟨j, rfl⟩ := hscans.turn_left hj
      rw [processLoop_of_scans hscans]
      cases hstep : stepOp s with
      | ok v t =>
        rw [scanned_of_next hs.1.2 hscans (exec_step_of_ok hs hstep)] at h
        exact ih (stepOp_running hs hstep) (stepOp_uses_turn hstep hk) (stepOp_uses_turn hstep hj) h
      | raised t =>
        obtain ⟨-, n, hn, -⟩ := stepOp_effect.2 hstep
        have hfaulted : t.fault ≠ none := by simp [hn]
        rw [scanned_of_next hs.1.2 hscans (by rw [exec_step_of_running hs, hstep]; rfl),
          scanned_of_stop fun hstop => hfaulted hstop.1] at h
        cases h
        rw [if_neg hfaulted, Res.raised_andThen]
      | stopped w =>
        have hnext : ∀ t, exec .step s ≠ .next t := fun t ht => by
          rw [exec_step_of_running hs, hstep] at ht
          cases w <;> nomatch ht
        rw [scanned_of_no_next hs.1.2 hscans hnext] at h
        nomatch h
    · rw [scanned_of_stop fun hstop => hscans hstop.2] at h
      cases h
      rw [if_pos hs.1.2]
      exact processLoop_of_not_scans hscans j

/-- Settles O43: the loop has turns enough, and PROCESS returns in the state it ends in with the value kept. -/
theorem processIsStepsUntilTheLookahead : Obligations.ProcessIsStepsUntilTheLookahead := by
  intro s u lo len k ha hlawful hk h
  have hrunning : (s.opened lo len).Running := ⟨ha, rfl⟩
  rw [exec_process ha (protocolBreach_of_lawful hlawful),
    processLoop_of_scanned (s := s.opened lo len) hrunning hk (by omega) h]
  split <;> rfl

/-- Settles O42: none of the STEPs is executed. -/
theorem processThatScansNothingCompletes : Obligations.ProcessThatScansNothingCompletes := by
  intro s lo len ha hlawful hshort
  have hstop : ¬ (s.opened lo len).Scans := not_lt.2 hshort
  have hscanned : Claims.scanned s.cfg.lookahead (s.opened lo len) = some (s.opened lo len) :=
    scanned_of_stop (fun h => hstop h.2) _
  have hexec := processIsStepsUntilTheLookahead s _ lo len _ ha hlawful hshort hscanned
  rwa [if_pos (show (s.opened lo len).fault = none from ha.2)] at hexec

end Sys2Proof.Machine
end

section
/-! PROOFS about the fault (families 60_exceptions and 70_reset_and_hazards): which operations take F_BOUNDS and what
they record, what a fault inside a line leaves undone, and the gate that lets RESET only through. -/

namespace Sys2Proof.Machine

/-! ### Who takes F_BOUNDS, and what it records (R261, R264) -/

/-- The operations that read samples (R261). -/
def readsSamples : Instr → Bool
  | .scale _ _ _ | .pcl _ _ | .clsActive _ _ | .dispatch _ _ | .step | .process _ _ => true
  | _ => false

theorem readsSamples_iff (i : Instr) : readsSamples i = true ↔
    (∃ start stop n, i = .scale start stop n) ∨ (∃ start stop, i = .pcl start stop) ∨
      (∃ linelen count, i = .clsActive linelen count) ∨ (∃ xpt count, i = .dispatch xpt count) ∨
      i = .step ∨ ∃ lo len, i = .process lo len := by
  cases i <;> simp [readsSamples]

/-- `t` records an F_BOUNDS for an index outside its own window, with the result that stood in `s`. -/
def FaultTaken (s t : State) : Prop := BoundsRecorded t t ∧ t.ret = s.ret

theorem StepEffect.faultTaken {s t : State} (h : StepEffect s t) (hbounds : BoundsRecorded s t) : FaultTaken s t :=
  ⟨hbounds.of_window h.window.1.symm h.window.2.symm, h.ret⟩

/-- A body leaves the fault register alone when it returns; it raises only if `reads`, and then it takes F_BOUNDS. -/
def Res.Faults {α : Type} (reads : Bool) (s : State) : Res α → Prop
  | .ok _ t => t.fault = s.fault
  | .raised t => reads = true ∧ FaultTaken s t
  | .stopped _ => True

theorem Res.faults_of_reading {α : Type} {s : State} {r : Res α} (hok : ∀ v t, r = .ok v t → t.fault = s.fault)
    (hraised : ∀ t, r = .raised t → StepEffect s t ∧ BoundsRecorded s t) : r.Faults true s := by
  cases r with
  | ok v t => exact hok v t rfl
  | raised t =>
    obtain ⟨heffect, hbounds⟩ := hraised t rfl
    exact ⟨rfl, heffect.faultTaken hbounds⟩
  | stopped w => trivial

/-- A last write that is not of the fault register changes nothing here. -/
theorem Res.Faults.andThen_ok {α β : Type} {reads : Bool} {s : State} {r : Res α} (v : α → State → β)
    (w : State → State) (hw : ∀ t, (w t).fault = t.fault) (h : r.Faults reads s) :
    (r.andThen fun a t => .ok (v a t) (w t)).Faults reads s := by
  cases r with
  | ok a t => exact (hw t).trans h
  | raised t => exact h
  | stopped w => trivial

/-- The result an operation hands over is no fault. -/
theorem Res.Faults.returning {α β : Type} {reads : Bool} {s : State} {r : Res α} (v : α → β)
    (h : r.Faults reads s) : (r.andThen fun a t => .ok (v a) t).Faults reads s :=
  h.andThen_ok (fun a _ => v a) id fun _ => rfl

/-- A fault of PROCESS records an index outside the window it moved to. -/
theorem processLoop_faults (k lo hi : Nat) (s : State) : (processLoop k (s.setWindow lo hi)).Faults true s := by
  cases h : processLoop k (s.setWindow lo hi) with
  | ok v t => exact (processLoop_effect.1 v h).2
  | raised t =>
    obtain ⟨heffect, hbounds⟩ := processLoop_effect.2 h
    obtain ⟨hrecorded, hret⟩ := heffect.faultTaken hbounds
    exact ⟨rfl, hrecorded, hret⟩
  | stopped w => trivial

theorem process_faults (lo len : Nat) (s : State) : (process lo len s).Faults true s := by
  rw [process]
  cases protocolBreach lo len s with
  | some v => trivial
  | none =>
    exact (processLoop_faults _ lo (lo + len) s).andThen_ok (fun _ t => consumedCount t)
      (fun t => t.setConsumed (consumedCount t)) fun _ => rfl

/-- What becomes of the fault register in the body of an operation. -/
theorem bodyOf_faults (i : Instr) (s : State) : (bodyOf i s).Faults (readsSamples i) s := by
  cases i with
  | scale start stop n =>
    exact (Res.faults_of_reading (fun _ _ h => scale_ok_fault h) fun _ h =>
      ⟨(scale_effect (.inr h) (u := ())).dispatchEffect.stepEffect, scale_raised h⟩).returning _
  | pcl start stop =>
    exact (Res.faults_of_reading (fun _ _ h => pcl_fault.1 _ h) fun _ h =>
      ⟨(pcl_effect (.inr h) (r := default)).dispatchEffect.stepEffect, pcl_fault.2 h⟩).returning _
  | clsActive linelen count =>
    exact (Res.faults_of_reading (fun _ _ h => (clsActive_effect.1 _ h).2) fun _ h =>
      ⟨(clsActive_effect.2 h).1.stepEffect, (clsActive_effect.2 h).2⟩).returning _
  | dispatch xpt count =>
    exact (Res.faults_of_reading (fun _ _ h => (dispatch_effect.1 _ h).2) fun _ h =>
      ⟨(dispatch_effect.2 h).1.stepEffect, (dispatch_effect.2 h).2⟩).returning _
  | step =>
    exact (Res.faults_of_reading (fun _ _ h => (stepOp_effect.1 _ h).2.1) fun _ h =>
      stepOp_effect.2 h).returning _
  | process lo len => exact (process_faults lo len s).returning _
  | burst off =>
    rcases burst_cases off s with ⟨acc, -, he⟩ | ⟨w, -, he⟩ <;> rw [bodyOf, he]
    · rfl
    · trivial
  | asmline start stop =>
    rcases asmline_cases start stop s with ⟨-, he⟩ | ⟨_, _, -, -, -, he⟩ | ⟨_, _, -, -, he⟩ <;> rw [bodyOf, he]
    · rfl
    · rfl
    · trivial
  | ffeed f v =>
    rcases ffeed_cases f v s with ⟨-, he⟩ | ⟨-, he⟩ <;> rw [bodyOf, he]
    · exact State.setFilter_fault s f _
    · trivial
  | fclr f level => exact State.setFilter_fault s f _
  | clsNewframe => exact (clsNewframe_effect s).2
  | phresync => exact (phresync_effect s).2
  | reset | clsField2 | clsVsync | clsHalf | clsSkip | clsNone | hetgen | s2ire | ire2s | cubic | wrap | tgtupd
  | maprow | lvladj | emit => rfl

/-- The body of an operation that ends with a fault raised it. -/
theorem raised_of_faulted {i : Instr} {s t : State} (h : exec i s = .next t) (hfault : t.fault ≠ none) :
    bodyOf i (s.setRet .none) = .raised t := by
  have hi : i ≠ .reset := by
    rintro rfl
    cases h
    exact hfault rfl
  rw [exec_eq_operate hi] at h
  obtain ⟨⟨-, hclear⟩, ⟨v, u, hbody, rfl⟩ | hbody⟩ := operate_eq_next.1 h
  · have hsame := bodyOf_faults i (s.setRet .none)
    rw [hbody] at hsame
    exact absurd (hsame.trans hclear) hfault
  · exact hbody

/-- Settles O56: only the body of an operation that reads samples raises, and it records the index it read. -/
theorem onlyRefusedReadsFault : Obligations.OnlyRefusedReadsFault := by
  intro i s t f h hf
  have htaken := bodyOf_faults i (s.setRet .none)
  rw [raised_of_faulted h (by simp [hf])] at htaken
  obtain ⟨hreads, ⟨n, hn, hout⟩, hret⟩ := htaken
  obtain rfl : (⟨.fBounds, n⟩ : FaultRecord) = f := Option.some.inj (hn.symm.trans hf)
  exact ⟨(readsSamples_iff i).1 hreads, rfl, hout, hret⟩

/-! ### What a fault inside a line leaves undone (R264) -/

/-- `line`, the reference crossing, `scan_pos`, FB, `fb_dirty` and the sink are the same. -/
def LineUndone (s t : State) : Prop :=
  t.line2 = s.line2 ∧ t.prevValid = s.prevValid ∧ t.prevCrosspoint = s.prevCrosspoint ∧ t.scanPos = s.scanPos ∧
    t.fb = s.fb ∧ t.fbDirty = s.fbDirty ∧ t.sink = s.sink

theorem LineEffect.lineUndone {s t : State} (h : LineEffect s t) : LineUndone s t := by
  obtain ⟨_, _, _, _, _, rfl⟩ := h
  exact ⟨rfl, rfl, rfl, rfl, rfl, rfl, rfl⟩

section
variable {s t : State}

/-- Only PCL raises in CLS.ACTIVE, and ASMLINE and the increment of `line` come after it (R190). -/
theorem clsActive_raised {linelen : F64} (h : clsActive linelen s = .raised t) : LineUndone s t := by
  rw [clsActive] at h
  cases hprev : s.readPrev with
  | error w =>
    rw [hprev] at h
    nomatch h
  | ok prev =>
    simp only [hprev, Res.andThen_eq_raised, asmline_not_raised, reduceCtorEq, and_false, exists_false, or_false] at h
    exact (pcl_effect (.inr h) (r := default)).lineUndone

theorem dispatch_raised {xpt : F64} {count : Nat} (h : dispatch xpt count s = .raised t) : LineUndone s t := by
  rw [dispatch] at h
  cases hprev : s.readPrev with
  | error w =>
    rw [hprev] at h
    nomatch h
  | ok prev =>
    simp only [hprev, Res.andThen_eq_raised, reduceCtorEq, and_false, exists_false, or_false] at h
    cases hc : classify s.line2 (lineLength xpt prev) count with
    | active =>
      rw [hc] at h
      exact clsActive_raised h
    | field2 | newframe | vsync | half | skip | none =>
      rw [hc] at h
      nomatch h

/-- The crossing becomes the reference only after its DISPATCH returned (R172). -/
theorem acceptCrossing_raised {xpt : F64} (h : acceptCrossing xpt s = .raised t) : LineUndone s t := by
  cases hp : s.prevValid with
  | false =>
    rw [acceptCrossing_of_no_reference hp] at h
    nomatch h
  | true =>
    simp only [acceptCrossing_of_reference hp, Res.andThen_eq_raised, reduceCtorEq, and_false, exists_false,
      or_false] at h
    exact dispatch_raised h

theorem completeRun_raised (h : completeRun s = .raised t) : LineUndone s t := by
  rw [completeRun] at h
  split at h
  · split at h
    · nomatch h
    · exact acceptCrossing_raised h
  · nomatch h

/-- Of what becomes of a filtered sample, only the end of a run raises (R171). -/
theorem trackCrossing_raised {n : Nat} {f : F64} (h : trackCrossing n f s = .raised t) : LineUndone s t := by
  rw [trackCrossing] at h
  split at h
  · split at h <;> nomatch h
  · split at h
    · exact completeRun_raised (s := s.closeRun) h
    · nomatch h

/-- STEP writes `scan_pos` last, and the feed of SF is no part of the line (R171). -/
theorem stepOp_raised (h : stepOp s = .raised t) : LineUndone s t := by
  cases hwin : s.inWindow s.scanPos with
  | false =>
    rw [stepOp_of_outside hwin] at h
    cases h
    exact ⟨rfl, rfl, rfl, rfl, rfl, rfl, rfl⟩
  | true =>
    rw [stepOp_of_inWindow hwin] at h
    rcases ffeed_cases .sf (F64.ofCode (s.streamCode s.scanPos)) s with ⟨-, hfeed⟩ | ⟨-, hfeed⟩
    · simp only [hfeed, Res.ok_andThen, Res.andThen_eq_raised, reduceCtorEq, and_false, exists_false, or_false] at h
      exact trackCrossing_raised (s := s.setFilter .sf ((s.filter .sf).advance s.cfg.syncCoef _)) h
    · rw [hfeed] at h
      nomatch h

end

/-- A fault of an operation is one of the part before it hands over its result. -/
theorem Res.raised_of_returning {α β : Type} {r : Res α} {v : α → β} {t : State}
    (h : (r.andThen fun a u => .ok (v a) u) = .raised t) : r = .raised t := by
  rcases Res.andThen_eq_raised.1 h with hr | ⟨_, _, -, hok⟩
  · exact hr
  · nomatch hok

/-- Settles O57: each of the three raises before it writes any of the line's items. -/
theorem faultLeavesTheLineUndone : Obligations.FaultLeavesTheLineUndone := by
  intro i s t hi h hfault
  have hbody := raised_of_faulted h hfault
  rcases hi with rfl | ⟨xpt, count, rfl⟩ | ⟨linelen, count, rfl⟩
  · exact stepOp_raised (s := s.setRet .none) (Res.raised_of_returning hbody)
  · exact dispatch_raised (s := s.setRet .none) (Res.raised_of_returning hbody)
  · exact clsActive_raised (s := s.setRet .none) (Res.raised_of_returning hbody)

/-! ### The gate (R264 (4), R265, R281) -/

/-- A block that does not accept operations refuses every one but RESET, whatever its body. -/
theorem exec_of_blocked {i : Instr} {s : State} {r : Refusal} (hi : i ≠ .reset) (h : s.blocked = some r) :
    exec i s = .refused r := by
  rw [exec_eq_operate hi, operate, h]

theorem State.blocked_of_faulted {s : State} {f : FaultRecord} (hc : s.constructed = true) (hf : s.fault = some f) :
    s.blocked = some .blockFaulted := by
  simp [State.blocked, hc, hf]

theorem State.blocked_of_unconstructed {s : State} (hc : s.constructed = false) : s.blocked = some .beforeReset := by
  rw [State.blocked, if_pos hc]

theorem State.restart_accepts (s : State) : s.restart.Accepts := ⟨rfl, rfl⟩

/-- Settles O7: the gate refuses, and RESET does not pass through it. -/
theorem faultedBlockAcceptsOnlyReset : Obligations.FaultedBlockAcceptsOnlyReset := by
  intro s i f hc hf
  refine ⟨fun hi => exec_of_blocked hi (State.blocked_of_faulted hc hf), ?_⟩
  rintro rfl
  exact ⟨s.restart, exec_reset s, s.restart_accepts.2⟩

/-- Settles O8: the gate refuses, and RESET constructs the block. -/
theorem unconstructedBlockAcceptsOnlyReset : Obligations.UnconstructedBlockAcceptsOnlyReset := by
  intro s i hc
  refine ⟨fun hi => exec_of_blocked hi (State.blocked_of_unconstructed hc), ?_⟩
  rintro rfl
  exact ⟨s.restart, exec_reset s, s.restart_accepts⟩

end Sys2Proof.Machine
end
